-- ==== Sys2Proof/Word.lean ====
section
/-!
DEFINITION. The word types of QOIENC (spec/00_scope.md rules R8, R9): bytes, the unsigned integers of the header
and of the counters, and the 82-bit command word. Arithmetic that the spec does "in int" is done in `Int` or `Nat`.
-/

namespace Sys2Proof

/-- A byte, `u8` (R8, R9). -/
abbrev Byte := BitVec 8

/-- `u32` (R9): width, height, the sink's failure code. -/
abbrev U32 := BitVec 32

/-- `u64` (R9): PIX_COUNT and ERR_INFO. -/
abbrev U64 := BitVec 64

/-- A slot number of the index cache, the 6-bit hash (R50, R102). -/
abbrev Slot := BitVec 6

/-- A command word: `op` in bits 81:80 and `data` in bits 79:0 (R85, R89). -/
abbrev CommandWord := BitVec 82

end Sys2Proof
end

