-- ==== Sys2Proof/Config.lean ====
section
/-!
DEFINITION. What the implementation fixes and what the environment chooses (spec/00_scope.md rules R6, R7):
the constants of R6, the capacity of the serializer's buffer that the reset state is given, and the sink's answers.
-/

namespace Sys2Proof

/-- The sink's reaction to one block write (R192; 93_implementation_defined.md I2, I8). `ok` and `fail code` are its
two answers; `hold` is a write that gets no answer before the next reset, or never (R240, R248, I8). -/
inductive SinkAnswer where
  | ok
  | fail (code : U32)
  | hold
  deriving DecidableEq, Repr, Inhabited

namespace Config

/-- The maximum run per RUN chunk (R6, R142). -/
abbrev runMax : Nat := 62

/-- The number of slots of the index cache (R6, R28). -/
abbrev slots : Nat := 64

/-- DESIGN CHOICE (notes/assumptions/3.md). `BUF_CAP` is OPEN (R7, I1): it is the field `bufCap` of State, which every
statement takes at any value; this is only the value that `State.reset` carries, the capacity the test vectors of
95_test_vectors.md L2.10 use where they name no other. -/
def resetBufCap : Nat := 4096

/-- FREE VALUE (notes/assumptions/4.md). The sink's answer to the k-th block write of the machine's life (R192, I2):
one oracle draw per write, where the environment has not written the answer down in `State.sinkIn`. It has no value
that a proof could use. -/
opaque sinkAnswer : Nat → SinkAnswer

/-- FREE VALUE (notes/assumptions/11.md). RUN after the k-th block write of the machine's life failed inside a PIXEL
(R216, I12: "any value"). -/
opaque runAfterSink : Nat → BitVec 6

/-- FREE VALUE (notes/assumptions/11.md). The bits of PREV after that failure, packed as R10 has them (I12). -/
opaque prevAfterSink : Nat → BitVec 32

/-- FREE VALUE (notes/assumptions/11.md). The bits of an ICACHE slot after that failure, packed as R10 has them (I12). -/
opaque slotAfterSink : Nat → Slot → BitVec 32

end Config
end Sys2Proof
end

