-- ==== Sys2Proof/Syntax.lean ====
section
/-!
DEFINITION. The syntax of QOIENC: one constructor of `Instr` per row of spec/opcode_table.json.
Four rows are the commands of the command port (spec/30_encoding.md rules R85 to R88); eight are the units of the
output stream that PACK forms and SER appends: six chunks, the header and the end marker (R70 to R78). A stream unit
is the datapath operation that START, PIXEL or CLOSE makes the block perform; no host issues one (R92).
-/

namespace Sys2Proof

/-- A pixel, `(r, g, b, a)` (R10). -/
structure Pixel where
  r : Byte
  g : Byte
  b : Byte
  a : Byte
  deriving DecidableEq, Repr, Inhabited

/-- The rows of spec/opcode_table.json. Signed operands and the run length are mathematical integers, as the packers
take them (R171 to R173); `WellFormed` says which values the formats admit. An `ignored` operand holds the bits of
the command word that have no effect (R87, R88, I5), so that no bit of a word is dropped by the decoder. -/
inductive Instr where
  /-- INDEX h (R71, R144, R170). -/
  | index (h : Slot)
  /-- DIFF dr, dg, db (R72, R148, R171). -/
  | diff (dr dg db : Int)
  /-- LUMA dg, drg, dbg (R73, R149, R172). -/
  | luma (dg drg dbg : Int)
  /-- RGB r, g, b (R75, R150, R174). -/
  | rgb (r g b : Byte)
  /-- RGBA r, g, b, a (R76, R150, R175). -/
  | rgba (r g b a : Byte)
  /-- RUN n, n the run length (R74, R141 to R143, R173). -/
  | run (n : Nat)
  /-- HEADER w, h, ch, cs (R77, R123, R176). -/
  | header (w h : U32) (ch cs : Byte)
  /-- END, the end marker (R78, R125, R177). -/
  | endMarker
  /-- START w, h, ch, cs (R86, R120). -/
  | start (w h : U32) (ch cs : Byte)
  /-- PIXEL r, g, b, a; `ignored` is data[79:32] (R87, R124). -/
  | pixel (ignored : BitVec 48) (r g b a : Byte)
  /-- CLOSE; `ignored` is data[79:0] (R88, R125). -/
  | close (ignored : BitVec 80)
  /-- The reserved op 0b00; `ignored` is data[79:0] (R88, R128). -/
  | reserved (ignored : BitVec 80)
  deriving DecidableEq, Repr

/-- The encoded form of a row. The two opcode spaces are separate (R92): command words come on the command port,
stream units go to the sink port. -/
inductive Encoded where
  | command (w : CommandWord)
  | stream (bytes : List Byte)
  deriving DecidableEq, Repr

/-- The rows that are commands of the command port (R85). -/
def Instr.isCommand : Instr → Bool
  | .index _ => false
  | .diff _ _ _ => false
  | .luma _ _ _ => false
  | .rgb _ _ _ => false
  | .rgba _ _ _ _ => false
  | .run _ => false
  | .header _ _ _ _ => false
  | .endMarker => false
  | .start _ _ _ _ => true
  | .pixel _ _ _ _ _ => true
  | .close _ => true
  | .reserved _ => true

end Sys2Proof
end

