-- ==== Sys2Proof/WellFormed.lean ====
section
/-!
DEFINITION. Which operands the formats admit (spec/30_encoding.md rule R79, spec/43_chunk_encoder.md rules R170 to
R179). Every command word is well-formed: START's fields are checked by the command itself (R121), and every value
of the ignored bits is accepted (I5).
-/

namespace Sys2Proof

/-- The value range of a DIFF delta (R72, R79). -/
abbrev inDiff (x : Int) : Prop := -2 ≤ x ∧ x ≤ 1

/-- The value range of LUMA's dg (R73, R79). -/
abbrev inLumaG (x : Int) : Prop := -32 ≤ x ∧ x ≤ 31

/-- The value range of LUMA's drg and dbg (R73, R79). -/
abbrev inLumaRB (x : Int) : Prop := -8 ≤ x ∧ x ≤ 7

/-- The value range of a RUN length (R74, R79). -/
abbrev inRun (n : Nat) : Prop := 1 ≤ n ∧ n ≤ Config.runMax

/-- The range that PackHeader states for its operands: w and h are any u32, ch is 3 or 4, cs is 0 or 1 (R176). -/
abbrev headerFields (ch cs : Byte) : Prop := (ch = 3#8 ∨ ch = 4#8) ∧ (cs = 0#8 ∨ cs = 1#8)

/-- The fields that START accepts, which are the legal values of the CFG_* registers (R22 to R25, R121). -/
abbrev headerLegal (w h : U32) (ch cs : Byte) : Prop := w ≠ 0 ∧ h ≠ 0 ∧ headerFields ch cs

/-- The check: the operands of `i` are in the ranges of its format. -/
def Instr.wf : Instr → Bool
  | .index _ => true
  | .diff dr dg db => decide (inDiff dr ∧ inDiff dg ∧ inDiff db)
  | .luma dg drg dbg => decide (inLumaG dg ∧ inLumaRB drg ∧ inLumaRB dbg)
  | .rgb _ _ _ => true
  | .rgba _ _ _ _ => true
  | .run n => decide (inRun n)
  | .header _ _ ch cs => decide (headerFields ch cs)
  | .endMarker => true
  | .start _ _ _ _ => true
  | .pixel _ _ _ _ _ => true
  | .close _ => true
  | .reserved _ => true

/-- The operands of `i` are in the ranges of its format. -/
abbrev Instr.WellFormed (i : Instr) : Prop := i.wf = true

end Sys2Proof
end

