-- ==== Sys2Proof/Decode.lean ====
section
/-!
DEFINITION. Decoding and encoding (spec/30_encoding.md; the encoder of the stream units is the PACK unit of
spec/43_chunk_encoder.md). Command words and stream bytes are two opcode spaces (R92): a command word decodes by its
`op` (R85), a chunk by its opcode byte (R81), and the header and the end marker are told from chunks by their place in
the stream (R58), which for a unit given by itself is its length: no chunk has 8 or 14 bytes (R89).
-/

namespace Sys2Proof

/-! ## Decoding a command word (R85 to R88) -/

/-- The command of a command word: total, every word is one of the four rows (R85). -/
def decodeCommand (w : CommandWord) : Instr :=
  if w.extractLsb' 80 2 = 0b01#2 then
    .start (w.extractLsb' 48 32) (w.extractLsb' 16 32) (w.extractLsb' 8 8) (w.extractLsb' 0 8)
  else if w.extractLsb' 80 2 = 0b10#2 then
    .pixel (w.extractLsb' 32 48) (w.extractLsb' 24 8) (w.extractLsb' 16 8) (w.extractLsb' 8 8) (w.extractLsb' 0 8)
  else if w.extractLsb' 80 2 = 0b11#2 then .close (w.extractLsb' 0 80)
  else .reserved (w.extractLsb' 0 80)

/-! ## Decoding stream bytes (R80, R81, R89) -/

/-- Why a byte list is no stream unit. Every reason is the decoder's own: the spec's opcode space has no unassigned
opcode byte (R83). -/
inductive DecodeError where
  /-- no byte at all -/
  | empty
  /-- the bytes end inside the chunk that the opcode byte announces -/
  | truncated (opcode : Byte)
  /-- bytes are left over after one whole unit -/
  | trailing (opcode : Byte)
  deriving DecidableEq, Repr

/-- The length of a chunk, from its opcode byte alone (R89). -/
def chunkLength (b : Byte) : Nat :=
  if b = 0xFE#8 then 4 else if b = 0xFF#8 then 5 else if b.extractLsb' 6 2 = 0b10#2 then 2 else 1

/-- A field of `n` bits at `lo`, less its bias (R80). -/
def biased (b : Byte) (lo n : Nat) (bias : Int) : Int := ((b.extractLsb' lo n).toNat : Int) - bias

/-- The first chunk of a byte list and the bytes after it, in the order of precedence of R81. -/
def decodeChunk : List Byte → Except DecodeError (Instr × List Byte)
  | [] => .error .empty
  | b :: rest =>
    if b = 0xFE#8 then
      match rest with
      | r :: g :: bl :: rest' => .ok (.rgb r g bl, rest')
      | _ => .error (.truncated b)
    else if b = 0xFF#8 then
      match rest with
      | r :: g :: bl :: a :: rest' => .ok (.rgba r g bl a, rest')
      | _ => .error (.truncated b)
    else if b.extractLsb' 6 2 = 0b00#2 then .ok (.index (b.extractLsb' 0 6), rest)
    else if b.extractLsb' 6 2 = 0b01#2 then .ok (.diff (biased b 4 2 2) (biased b 2 2 2) (biased b 0 2 2), rest)
    else if b.extractLsb' 6 2 = 0b10#2 then
      match rest with
      | b2 :: rest' => .ok (.luma (biased b 0 6 32) (biased b2 4 4 8) (biased b2 0 4 8), rest')
      | _ => .error (.truncated b)
    else .ok (.run ((b.extractLsb' 0 6).toNat + 1), rest)

/-- Four bytes read big-endian (R54). -/
def readU32 (b3 b2 b1 b0 : Byte) : U32 := b3 ++ b2 ++ b1 ++ b0

/-- The end marker's eight bytes (R78). -/
def endBytes : List Byte := [0x00, 0x00, 0x00, 0x00, 0x00, 0x00, 0x00, 0x01]

/-- The four magic bytes, ASCII "qoif" (R77, G2). -/
def magicBytes : List Byte := [0x71, 0x6F, 0x69, 0x66]

/-- The header's fields, where `bs` is a header: 14 bytes that begin with the magic (R77). -/
def decodeHeader : List Byte → Option Instr
  | [m0, m1, m2, m3, w3, w2, w1, w0, h3, h2, h1, h0, ch, cs] =>
    if [m0, m1, m2, m3] = magicBytes then some (.header (readU32 w3 w2 w1 w0) (readU32 h3 h2 h1 h0) ch cs) else none
  | _ => none

/-- One stream unit given by itself: the end marker, a header, or exactly one chunk. -/
def decodeUnit (bs : List Byte) : Except DecodeError Instr :=
  if bs = endBytes then .ok .endMarker
  else
    match decodeHeader bs with
    | some i => .ok i
    | none =>
      match decodeChunk bs with
      | .ok (i, []) => .ok i
      | .ok (_, _ :: _) => .error (.trailing (bs.headD 0))
      | .error e => .error e

/-- The decoder, over both opcode spaces. -/
def decode : Encoded → Except DecodeError Instr
  | .command w => .ok (decodeCommand w)
  | .stream bs => decodeUnit bs

/-! ## Encoding: the command words, and PACK (R170 to R179)

A packer answers `none` for an operand outside its range: "a model should treat such a call as a modelling fault, not
compute a value" (R179). -/

/-- The byte of an integer operand that has had its bias added. -/
def byteOf (x : Int) : Byte := BitVec.ofInt 8 x

/-- The four bytes of a u32, most significant first (R54, R176). -/
def u32Bytes (x : U32) : List Byte :=
  [x.extractLsb' 24 8, x.extractLsb' 16 8, x.extractLsb' 8 8, x.extractLsb' 0 8]

/-- PackINDEX (R170): `{0b00, h}`. -/
def packINDEX (h : Slot) : Option (List Byte) := some [0b00#2 ++ h]

/-- PackDIFF (R171). -/
def packDIFF (dr dg db : Int) : Option (List Byte) :=
  if inDiff dr ∧ inDiff dg ∧ inDiff db then
    some [0x40#8 ||| (byteOf (dr + 2) <<< 4) ||| (byteOf (dg + 2) <<< 2) ||| byteOf (db + 2)]
  else none

/-- PackLUMA (R172), byte1 first. -/
def packLUMA (dg drg dbg : Int) : Option (List Byte) :=
  if inLumaG dg ∧ inLumaRB drg ∧ inLumaRB dbg then
    some [0x80#8 ||| byteOf (dg + 32), (byteOf (drg + 8) <<< 4) ||| byteOf (dbg + 8)]
  else none

/-- PackRUN (R173): n = 63 and n = 64 would be the RGB and RGBA tags and are out of range. -/
def packRUN (n : Nat) : Option (List Byte) :=
  if inRun n then some [0xC0#8 ||| byteOf ((n : Int) - 1)] else none

/-- ToBytes, the raw byte view of a pixel (R105). -/
def toBytes (px : Pixel) (ch : Byte) : List Byte :=
  if ch = 3#8 then [px.r, px.g, px.b] else [px.r, px.g, px.b, px.a]

/-- PackRGB (R174). -/
def packRGB (px : Pixel) : Option (List Byte) := some (0xFE#8 :: toBytes px 3)

/-- PackRGBA (R175). -/
def packRGBA (px : Pixel) : Option (List Byte) := some (0xFF#8 :: toBytes px 4)

/-- PackHeader (R176). -/
def packHeader (w h : U32) (ch cs : Byte) : Option (List Byte) :=
  if headerFields ch cs then some (magicBytes ++ u32Bytes w ++ u32Bytes h ++ [ch, cs]) else none

/-- PackEnd (R177). -/
def packEnd : Option (List Byte) := some endBytes

/-- The encoded form of an instruction, `none` where an operand is outside its format. -/
def encode : Instr → Option Encoded
  | .index h => (packINDEX h).map .stream
  | .diff dr dg db => (packDIFF dr dg db).map .stream
  | .luma dg drg dbg => (packLUMA dg drg dbg).map .stream
  | .rgb r g b => (packRGB ⟨r, g, b, 255⟩).map .stream
  | .rgba r g b a => (packRGBA ⟨r, g, b, a⟩).map .stream
  | .run n => (packRUN n).map .stream
  | .header w h ch cs => (packHeader w h ch cs).map .stream
  | .endMarker => packEnd.map .stream
  | .start w h ch cs => some (.command (0b01#2 ++ w ++ h ++ ch ++ cs))
  | .pixel ign r g b a => some (.command (0b10#2 ++ ign ++ r ++ g ++ b ++ a))
  | .close ign => some (.command (0b11#2 ++ ign))
  | .reserved ign => some (.command (0b00#2 ++ ign))

/-! ## The opcode table's own numbering of a row's bits -/

/-- `n` bytes of a number, the least significant first. -/
def bytesLow (n w : Nat) : List Byte := (List.range n).map fun k => BitVec.ofNat 8 (w >>> (8 * k))

/-- `n` bytes of a number, the most significant first. -/
def bytesHigh (n w : Nat) : List Byte := (bytesLow n w).reverse

/-- The row that spec/opcode_table.json numbers as `w` in `nbits` bits, laid out as the hardware has it
(notes/assumptions/6.md): a command word of 82 bits (the table's widths of 81 to 88 bits); the end marker, which the
table writes as one big-endian number of 64 bits; a header, whose magic the table writes as a big-endian u32 and whose
other fields follow it, each big-endian; every other row by bytes, the opcode byte in bits 7:0. -/
def tableRow (nbits w : Nat) : Encoded :=
  if 81 ≤ nbits ∧ nbits ≤ 88 then .command (BitVec.ofNat 82 w)
  else if nbits = 64 then .stream (bytesHigh 8 w)
  else if (nbits = 32 ∨ nbits = 112) ∧ w % 2 ^ 32 = 0x716F6966 then
    .stream (bytesHigh 4 w ++ bytesHigh 4 (w >>> 32) ++ bytesHigh 4 (w >>> 64) ++ bytesLow 2 (w >>> 96))
  else .stream (bytesLow (chunkLength (BitVec.ofNat 8 w)) w)

/-- What the decoder reads from a row of the opcode table. -/
def decodeTableWord (nbits w : Nat) : Option Instr :=
  match decode (tableRow nbits w) with
  | .ok i => some i
  | .error _ => none

end Sys2Proof
end

