-- ==== Sys2Proof/Machine/State.lean ====
section
/-!
DEFINITION. The state of QOIENC (spec/10_state.md rules R20 to R43) as plain data, with what the environment gives the
block (R40: the capacity, the host's transactions, the sink's answers) and what it has shown to the sink (R199).
INVENTORY.md lists every field with its rule and its reset value.
-/

namespace Sys2Proof.Machine

/-- FSM (R21). The code 0b11 is never held (I15), so there is no constructor for it. -/
inductive Fsm where
  | idle
  | encoding
  | error
  deriving DecidableEq, Repr

/-- ERR_CODE's kinds (R31, R210). -/
inductive ErrorCode where
  | none
  | malformed
  | bounds
  | sink
  | protocol
  deriving DecidableEq, Repr

/-- What the sink observes, in the order QOIENC makes it (R199). -/
inductive SinkEvent where
  | block (bytes : List Byte)
  | close
  deriving DecidableEq, Repr

/-- One transaction of the host (R12, R15): a command word on the command port, or the reset input. -/
inductive PortEvent where
  | command (w : CommandWord)
  | reset
  deriving DecidableEq, Repr

/-- The machine. -/
structure State where
  /-- FSM, 2 bits (R21). -/
  fsm : Fsm
  /-- CFG_WIDTH, u32 (R22). -/
  cfgWidth : U32
  /-- CFG_HEIGHT, u32 (R23). -/
  cfgHeight : U32
  /-- CFG_CHANNELS, u8 (R24). -/
  cfgChannels : Byte
  /-- CFG_COLORSPACE, u8 (R25). -/
  cfgColorspace : Byte
  /-- PREV, the previous pixel (R26). -/
  prev : Pixel
  /-- RUN, the run-length accumulator, 6 bits (R27). -/
  run : BitVec 6
  /-- ICACHE[0..63] (R28). -/
  icache : Vector Pixel 64
  /-- PIX_COUNT, u64 (R29). -/
  pixCount : U64
  /-- OUTBUF's bytes 0 to OUTBUF_LEN − 1, in order; OUTBUF_LEN is the list's length (R30). -/
  outbuf : List Byte
  /-- ERR_CODE (R31). -/
  errCode : ErrorCode
  /-- ERR_INFO, u64 (R32). -/
  errInfo : U64
  /-- ERR_SUP, 1 bit (R43). -/
  errSup : Bool
  /-- QOIENC is held inside a command by a SinkWrite that has no answer (R192, R227, R248). -/
  held : Bool
  /-- The parameter `BUF_CAP` (R7, R30). No step writes it. -/
  bufCap : Nat
  /-- The host's transactions still to come, in the order QOIENC takes them (R129, R250). -/
  port : List PortEvent
  /-- One stream unit handed to PACK by itself, empty in hardware: MODEL's own (notes/assumptions/1.md). -/
  packIn : List Byte
  /-- The sink's coming answers, as far as the environment has written them down (R40, R192). -/
  sinkIn : List SinkAnswer
  /-- How many SinkWrites have been made: the index of the next free answer. MODEL's own (notes/assumptions/4.md). -/
  sinkWrites : Nat
  /-- The sink-port events so far, oldest first (R199). -/
  sinkLog : List SinkEvent
  deriving DecidableEq, Repr

/-- OUTBUF_LEN (R30). -/
abbrev State.outbufLen (s : State) : Nat := s.outbuf.length

/-- Why the machine stops. -/
inductive Fault where
  /-- A packer was called with an operand outside its range (R179, I11: "a model should treat such a call as a modelling
  fault"). Raised by the stream rows DIFF, LUMA, RUN and HEADER on ill-formed operands. Safe. -/
  | packerOperand
  /-- A stream unit was to be emitted with no sink session open: no rule makes a byte in IDLE (R21, R196, R198). Raised
  by the eight stream rows while FSM = IDLE. Safe. -/
  | noSession
  /-- A stream unit was to be emitted that QOIENC never emits in this state (R83: "A model of QOIENC must not produce
  them"; R75, R76). Raised by the stream rows DIFF, LUMA, RGB, RGBA and RUN. Safe. -/
  | neverEmitted
  /-- The next transaction is a command and QOIENC is held on a SinkWrite that is not answered (R129, R248, I8: "stuck").
  Raised by step alone; reset still leaves the hold. Safe. -/
  | heldOnSink
  deriving DecidableEq, Repr

/-- Why the machine has no meaning for what it was given. -/
inductive Refusal where
  /-- The instruction has no meaning in this model yet. No arm of exec answers so. Safe. -/
  | notModelled (mnemonic : String)
  /-- The bytes at PACK's input are no stream unit. Raised by step alone, and never in hardware, where that input is
  empty. Safe. -/
  | notAUnit (why : DecodeError)
  deriving DecidableEq, Repr

/-- How a primitive of the pseudocode ends (R11, R216): it goes on to the next statement, it ends the command (error
entry, or a hold on the sink), or it is a modelling fault. -/
inductive Flow where
  | go (s : State)
  | halt (s : State)
  | stop (f : Fault)
  deriving DecidableEq, Repr

/-- The machine right after reset with buffer capacity `cap` (R41, R240). FSM, ERR_CODE, ERR_INFO, ERR_SUP, PIX_COUNT
and OUTBUF_LEN are the spec's values. DESIGN CHOICE (notes/assumptions/2.md): CFG_*, PREV, RUN and ICACHE, which the
spec leaves unspecified, are zero. -/
def State.resetWith (cap : Nat) : State where
  fsm := .idle
  cfgWidth := 0
  cfgHeight := 0
  cfgChannels := 0
  cfgColorspace := 0
  prev := ⟨0, 0, 0, 0⟩
  run := 0
  icache := Vector.replicate 64 ⟨0, 0, 0, 0⟩
  pixCount := 0
  outbuf := []
  errCode := .none
  errInfo := 0
  errSup := false
  held := false
  bufCap := cap
  port := []
  packIn := []
  sinkIn := []
  sinkWrites := 0
  sinkLog := []

/-- The machine right after reset. -/
def State.reset : State := State.resetWith Config.resetBufCap

end Sys2Proof.Machine
end

