-- ==== Sys2Proof/Machine/Flags.lean ====
section
/-!
DEFINITION. What the host reads (spec/10_state.md rules R31 to R34, R38): STATUS, the two level outputs, and the
observation of a run (spec/70_reset_and_hazards.md rule R250). None of them is stored.
-/

namespace Sys2Proof.Machine

/-- FSM's 2-bit code (R21). -/
def Fsm.code : Fsm → BitVec 2
  | .idle => 0b00
  | .encoding => 0b01
  | .error => 0b10

/-- ERR_CODE's u8 value (R31, R210). -/
def ErrorCode.code : ErrorCode → Byte
  | .none => 0
  | .malformed => 1
  | .bounds => 2
  | .sink => 3
  | .protocol => 4

/-- The STATUS word (R33): reserved 31:16, ERR 15:8, reserved 7:3, SUP 2, STATE 1:0. -/
def State.status (s : State) : BitVec 32 :=
  0#16 ++ s.errCode.code ++ 0#5 ++ BitVec.ofBool s.errSup ++ s.fsm.code

/-- The output `idle` (R34). -/
def State.idleOut (s : State) : Bool := s.fsm == .idle

/-- The output `error` (R34). -/
def State.errorOut (s : State) : Bool := s.fsm == .error

/-- The observation of a run (R250): the sink events, and what the host can read at its end (R38). -/
structure Observation where
  sink : List SinkEvent
  status : BitVec 32
  errInfo : U64
  pixCount : U64
  deriving DecidableEq, Repr

/-- What the host and the sink have seen of the machine. -/
def State.observe (s : State) : Observation := ⟨s.sinkLog, s.status, s.errInfo, s.pixCount⟩

end Sys2Proof.Machine
end

