-- ==== Sys2Proof/Machine/Operands.lean ====
section
/-!
DEFINITION. The pure value operations on operands: the pixel of a PIXEL command, equality, the hash, the channel deltas
(spec/40_pixel_hash.md, spec/42_selector.md rules R147 to R149), START's checks (spec/41_commands.md rule R121) and the
host's addressing of its image buffer (spec/20_memory.md rule R65).
-/

namespace Sys2Proof.Machine

/-- PixelOf (R100): alpha is 255 in a 3-channel encode. -/
def pixelOf (ch r g b a : Byte) : Pixel := if ch = 3#8 then ⟨r, g, b, 255⟩ else ⟨r, g, b, a⟩

/-- PixelEq (R101). -/
def pixelEq (p q : Pixel) : Bool := p.r == q.r && p.g == q.g && p.b == q.b && p.a == q.a

/-- The packed 32-bit form of a pixel, `{r, g, b, a}` (R10). -/
def packedPixel (p : Pixel) : BitVec 32 := p.r ++ p.g ++ p.b ++ p.a

/-- The pixel of a packed 32-bit form (R10). -/
def unpackPixel (v : BitVec 32) : Pixel := ⟨v.extractLsb' 24 8, v.extractLsb' 16 8, v.extractLsb' 8 8, v.extractLsb' 0 8⟩

/-- Hash (R102), in unbounded integers before the `mod`. -/
def pixelHash (px : Pixel) : Slot :=
  BitVec.ofNat 6 ((px.r.toNat * 3 + px.g.toNat * 5 + px.b.toNat * 7 + px.a.toNat * 11) % 64)

/-- sext_8 (R9): an 8-bit pattern read as two's complement. -/
def sext8 (v : Byte) : Int := if v.toNat < 128 then (v.toNat : Int) else (v.toNat : Int) - 256

/-- A channel delta (R147): the difference modulo 256, read as a signed byte. -/
def delta (cur prev : Byte) : Int := sext8 (cur - prev)

/-- Validate (R121): the sub-code of START's first failing check. -/
def validate (w h : U32) (ch cs : Byte) : Option U64 :=
  if w = 0 then some 1
  else if h = 0 then some 2
  else if ¬ (ch = 3#8 ∨ ch = 4#8) then some 3
  else if ¬ (cs = 0#8 ∨ cs = 1#8) then some 4
  else none

/-- CFG_WIDTH × CFG_HEIGHT, computed in `int` (R29). -/
def State.total (s : State) : Nat := s.cfgWidth.toNat * s.cfgHeight.toNat

/-- Pixel number `i` of the host's image buffer (R65): its `ch` bytes at offset `i × ch`, in r, g, b[, a] order, as the
fields of a PIXEL command; `none` where the offset is not legal. -/
def pixelAt (buf : List Byte) (ch i : Nat) : Option (Byte × Byte × Byte × Byte) :=
  match ch, buf.drop (i * ch) with
  | 3, r :: g :: b :: _ => some (r, g, b, 255)
  | 4, r :: g :: b :: a :: _ => some (r, g, b, a)
  | _, _ => none

/-- The command sequence of an encode (R131): START, the PIXELs in scan order, CLOSE, with any ignored bits. -/
def encodeCommands (w h : U32) (ch cs : Byte) (pixels : List (BitVec 48 × Byte × Byte × Byte × Byte)) (ignored : BitVec 80) :
    List Instr :=
  .start w h ch cs :: (pixels.map fun (ign, r, g, b, a) => .pixel ign r g b a) ++ [.close ignored]

/-- The pseudo-command IMAGE (R91), its ignored bits 0 (notes/assumptions/18.md). -/
def imageCommands (w h : U32) (ch cs : Byte) (pixels : List (Byte × Byte × Byte × Byte)) : List Instr :=
  encodeCommands w h ch cs (pixels.map fun p => (0, p)) 0

end Sys2Proof.Machine
end

