-- ==== Sys2Proof/Machine/Ops.lean ====
section
/-!
DEFINITION. The named operations over registers, the index cache, the serializer and the sink port: the primitives of
spec/00_scope.md rule R11, the serializer of spec/44_serializer.md, error entry (spec/60_exceptions.md rule R215) and
reset, the only way out of ERROR (spec/70_reset_and_hazards.md rule R240).
-/

namespace Sys2Proof.Machine

/-! ## Register and buffer updates -/

/-- `RUN <- n`. -/
def State.setRun (s : State) (n : BitVec 6) : State := { s with run := n }

/-- `PREV <- px`. -/
def State.setPrev (s : State) (px : Pixel) : State := { s with prev := px }

/-- `PIX_COUNT <- PIX_COUNT + 1` (R124). -/
def State.countPixel (s : State) : State := { s with pixCount := s.pixCount + 1 }

/-- `FSM <- f`. -/
def State.setFsm (s : State) (f : Fsm) : State := { s with fsm := f }

/-- `OUTBUF[OUTBUF_LEN] <- b; OUTBUF_LEN <- OUTBUF_LEN + 1` (R190). -/
def State.pushByte (s : State) (b : Byte) : State := { s with outbuf := s.outbuf ++ [b] }

/-- `OUTBUF_LEN <- 0`. -/
def State.clearOut (s : State) : State := { s with outbuf := [] }

/-- `ERR_SUP <- 1` (R195). -/
def State.setSup (s : State) : State := { s with errSup := true }

/-- QOIENC now waits for a sink answer that does not come (R192). -/
def State.hold (s : State) : State := { s with held := true }

/-- The register writes of error entry (R215). -/
def State.enterError (s : State) (code : ErrorCode) (info : U64) : State :=
  { s with outbuf := [], fsm := .error, errCode := code, errInfo := info }

/-- START's writes (R120, R122): the configuration, InitScanState, and `FSM <- ENCODING`. -/
def State.begin (s : State) (w h : U32) (ch cs : Byte) : State :=
  { s with
    cfgWidth := w, cfgHeight := h, cfgChannels := ch, cfgColorspace := cs,
    prev := ⟨0, 0, 0, 255⟩, run := 0, icache := Vector.replicate 64 ⟨0, 0, 0, 0⟩, pixCount := 0,
    fsm := .encoding }

/-- A block goes out on the sink port, and the answer to it is used up (R192). -/
def State.logBlock (s : State) (bytes : List Byte) : State :=
  { s with sinkLog := s.sinkLog ++ [.block bytes], sinkIn := s.sinkIn.tail, sinkWrites := s.sinkWrites + 1 }

/-- RUN, PREV and ICACHE hold any value (I12), drawn for the block write that failed. -/
def State.forgetScan (s : State) : State :=
  { s with
    run := Config.runAfterSink s.sinkWrites
    prev := unpackPixel (Config.prevAfterSink s.sinkWrites)
    icache := Vector.ofFn fun h => unpackPixel (Config.slotAfterSink s.sinkWrites (BitVec.ofFin h)) }

/-- SinkClose (R194): a transaction with no data and no answer. -/
def State.logClose (s : State) : State := { s with sinkLog := s.sinkLog ++ [.close] }

/-- Reset (R240): every register as `State.resetWith` has it, the hold and the command in progress abandoned, no sink
transaction. The capacity, the host's further transactions and the sink's side stay. -/
def State.afterReset (s : State) : State :=
  { State.resetWith s.bufCap with
    port := s.port, sinkIn := s.sinkIn, sinkWrites := s.sinkWrites, sinkLog := s.sinkLog }

/-! ## The index cache -/

/-- ICacheRead (R51). -/
def icacheRead (h : Slot) (s : State) : Pixel := s.icache[h.toNat]'h.isLt

/-- ICacheWrite (R52). -/
def icacheWrite (h : Slot) (px : Pixel) (s : State) : State := { s with icache := s.icache.set h.toNat px h.isLt }

/-! ## Control flow of a command (R11, R216) -/

/-- The next statement, unless the command has ended. -/
def Flow.bind (x : Flow) (f : State → Flow) : Flow :=
  match x with
  | .go s => f s
  | .halt s => .halt s
  | .stop e => .stop e

/-- The outcome of a whole command: ended early or not, it is a completed transaction (R12). -/
def Flow.outcome (x : Flow) : Host.Outcome State Fault Refusal :=
  match x with
  | .go s => .next s
  | .halt s => .next s
  | .stop e => .fault e

/-- An error that ended the command leaves the scan state at any value (R216, I12); a hold leaves it as it is (R227). -/
def Flow.forgetScanOnError (x : Flow) : Flow :=
  match x with
  | .go s => .go s
  | .halt s => .halt (if s.fsm = .error then s.forgetScan else s)
  | .stop e => .stop e

/-! ## The sink port -/

/-- The sink's reaction to the block being written: the one the environment has written down, else the free draw
(R192, I2). -/
def nextAnswer (s : State) : SinkAnswer :=
  match s.sinkIn with
  | a :: _ => a
  | [] => Config.sinkAnswer s.sinkWrites

/-- One SinkWrite of all of OUTBUF. On an answer OUTBUF_LEN becomes 0 and the command goes on by the answer; without one
QOIENC is held there, OUTBUF still full (R191, R192, R194, R195). -/
def deliver (s : State) (onOk : State → Flow) (onFail : U32 → State → Flow) : Flow :=
  match nextAnswer s with
  | .ok => onOk (s.logBlock s.outbuf).clearOut
  | .fail code => onFail code (s.logBlock s.outbuf).clearOut
  | .hold => .halt (s.logBlock s.outbuf).hold

/-! ## Error entry -/

/-- ErrorExitFlush (R195). -/
def errorExitFlush (s : State) : Flow :=
  if s.outbuf = [] then .go s.logClose
  else deliver s (fun t => .go t.logClose) (fun _ t => .go t.setSup)

/-- `raise Error(code, info)` (R215): the one way into ERROR. The command ends there. -/
def raiseError (code : ErrorCode) (info : U64) (s : State) : Flow :=
  if s.fsm = .encoding ∧ code ≠ .sink then
    (errorExitFlush s).bind fun t => .halt (t.enterError code info)
  else .halt (s.enterError code info)

/-- A failed SinkWrite outside error entry (R193): SINK, with the sink's code unchanged. -/
def raiseSink (code : U32) (s : State) : Flow := raiseError .sink (code.setWidth 64) s

/-! ## The serializer -/

/-- FlushFull (R191). -/
def flushFull (s : State) : Flow := deliver s .go raiseSink

/-- Emit (R190): byte by byte, flushing at the byte that fills OUTBUF. -/
def emit : List Byte → State → Flow
  | [], s => .go s
  | b :: bs, s =>
    if (s.pushByte b).outbufLen = s.bufCap then (flushFull (s.pushByte b)).bind (emit bs)
    else emit bs (s.pushByte b)

/-- Emit of what a packer answers; a packer called outside its operand range is a modelling fault (R179). -/
def emitPacked (bytes : Option (List Byte)) (s : State) : Flow :=
  match bytes with
  | some bs => emit bs s
  | none => .stop .packerOperand

/-- FinalFlushAndClose (R194). -/
def finalFlushAndClose (s : State) : Flow :=
  if s.outbuf = [] then .go s.logClose
  else deliver s (fun t => .go t.logClose) raiseSink

end Sys2Proof.Machine
end

