-- ==== Sys2Proof/Machine/Select.lean ====
section
/-!
DEFINITION. SEL, the chunk-type selector, and the run-length accumulator (spec/42_selector.md rules R140 to R152).
-/

namespace Sys2Proof.Machine

/-- `Emit(PackRUN(n)); RUN <- 0`, the emission of a run (R142, R143, R152). -/
def emitRun (n : Nat) (s : State) : Flow := (emitPacked (packRUN n) s).bind fun t => .go (t.setRun 0)

/-- Run continuation and run cap (R141, R142). -/
def continueRun (s : State) : Flow :=
  if s.run + 1 = 62#6 then emitRun 62 (s.setRun (s.run + 1)) else .go (s.setRun (s.run + 1))

/-- The pending run, if there is one, is emitted (R143; EndOfScan, R152). -/
def endRun (s : State) : Flow := if s.run ≠ 0 then emitRun s.run.toNat s else .go s

/-- The raw fallback (R150). -/
def emitRaw (px : Pixel) (s : State) : Flow :=
  if s.cfgChannels = 3#8 then emitPacked (packRGB px) s else emitPacked (packRGBA px) s

/-- The alpha test, the DIFF test, the LUMA test and the raw fallback (R146 to R150); PREV is still the previous
pixel (R246). -/
def emitDelta (px : Pixel) (s : State) : Flow :=
  if px.a = s.prev.a then
    let dr := delta px.r s.prev.r
    let dg := delta px.g s.prev.g
    let db := delta px.b s.prev.b
    if inDiff dr ∧ inDiff dg ∧ inDiff db then emitPacked (packDIFF dr dg db) s
    else if inLumaG dg ∧ inLumaRB (dr - dg) ∧ inLumaRB (db - dg) then emitPacked (packLUMA dg (dr - dg) (db - dg)) s
    else emitRaw px s
  else emitRaw px s

/-- Index hit or miss (R144, R145): the slot is read before it is written (R246). -/
def emitChunk (px : Pixel) (s : State) : Flow :=
  if pixelEq (icacheRead (pixelHash px) s) px then emitPacked (packINDEX (pixelHash px)) s
  else emitDelta px (icacheWrite (pixelHash px) px s)

/-- EncodePixel (R140). -/
def encodePixel (px : Pixel) (s : State) : Flow :=
  if pixelEq px s.prev then continueRun s
  else ((endRun s).bind (emitChunk px)).bind fun t => .go (t.setPrev px)

end Sys2Proof.Machine
end

