-- ==== Sys2Proof/Machine/Commands.lean ====
section
/-!
DEFINITION. The meanings of the four command rows (spec/41_commands.md rules R120 to R128): START, PIXEL, CLOSE and the
reserved op. In ERROR every command is ignored (R126); the state check comes before every other check (R127, R220).
-/

namespace Sys2Proof.Machine

/-- START once its state check has passed (R120 to R123). -/
def startIdle (w h : U32) (ch cs : Byte) (s : State) : Flow :=
  match validate w h ch cs with
  | some info => raiseError .malformed info s
  | none => emitPacked (packHeader w h ch cs) (s.begin w h ch cs)

/-- START w, h, ch, cs (R120). -/
def execStart (w h : U32) (ch cs : Byte) (s : State) : Host.Outcome State Fault Refusal :=
  match s.fsm with
  | .error => .next s
  | .encoding => (raiseError .protocol 1 s).outcome
  | .idle => (startIdle w h ch cs s).outcome

/-- PIXEL once its state check has passed (R124). After the bounds check only SINK can end it in ERROR (R220). -/
def pixelEncoding (r g b a : Byte) (s : State) : Flow :=
  if s.pixCount.toNat = s.total then raiseError .bounds s.pixCount s
  else (encodePixel (pixelOf s.cfgChannels r g b a) s.countPixel).forgetScanOnError

/-- PIXEL r, g, b, a (R124). -/
def execPixel (_ignored : BitVec 48) (r g b a : Byte) (s : State) : Host.Outcome State Fault Refusal :=
  match s.fsm with
  | .error => .next s
  | .idle => (raiseError .protocol 2 s).outcome
  | .encoding => (pixelEncoding r g b a s).outcome

/-- CLOSE once its state check has passed (R125). -/
def closeEncoding (s : State) : Flow :=
  if s.pixCount.toNat ≠ s.total then raiseError .malformed 5 s
  else (((endRun s).bind (emitPacked packEnd)).bind finalFlushAndClose).bind fun t => .go (t.setFsm .idle)

/-- CLOSE (R125). -/
def execClose (_ignored : BitVec 80) (s : State) : Host.Outcome State Fault Refusal :=
  match s.fsm with
  | .error => .next s
  | .idle => (raiseError .protocol 3 s).outcome
  | .encoding => (closeEncoding s).outcome

/-- The reserved op 0b00 (R128). -/
def execReserved (_ignored : BitVec 80) (s : State) : Host.Outcome State Fault Refusal :=
  match s.fsm with
  | .error => .next s
  | .idle => (raiseError .protocol 0 s).outcome
  | .encoding => (raiseError .protocol 0 s).outcome

end Sys2Proof.Machine
end

