-- ==== Sys2Proof/Machine/Stream.lean ====
section
/-!
DEFINITION. The meanings of the eight stream rows: PACK forms the unit's bytes and SER appends them (spec/43_chunk_encoder.md,
spec/44_serializer.md rule R190). Each is the `Emit(Pack…)` of the pseudocode of START, PIXEL or CLOSE, run by itself in
an open session (notes/assumptions/1.md), but not where the table of spec/30_encoding.md rule R83 excludes it
(notes/assumptions/19.md); no more is asked of a row by itself (notes/assumptions/20.md). PIXEL decides
which chunk (Select.lean), so that what a row does besides its emission (ICACHE, PREV) is in PIXEL's meaning.
-/

namespace Sys2Proof.Machine

/-- The unit `i` in the state `s` stands in no row of the table of encodings that are never emitted (R83,
notes/assumptions/19.md). DESIGN CHOICE (notes/assumptions/20.md): nothing more is asked of a row by itself, so that a HEADER
may carry other fields than the CFG_* registers (R176) and, like every row but RUN, stand at any point of a session.
A RUN is the register RUN's value (R142, R143, R152); by itself it is the capped run (R142) or, after the last pixel, the
run of EndOfScan (R152), because the one that ends at another pixel (R143) is followed by that pixel's chunk in the same
command. -/
def mayEmit (i : Instr) (s : State) : Bool :=
  match i with
  | .index _ => true
  | .diff dr dg db => decide (¬ (dr = 0 ∧ dg = 0 ∧ db = 0))
  | .luma dg drg dbg => decide (¬ (inDiff (drg + dg) ∧ inDiff dg ∧ inDiff (dbg + dg)))
  | .rgb r g b => decide (s.cfgChannels = 3#8 ∧ ¬ (r = s.prev.r ∧ g = s.prev.g ∧ b = s.prev.b))
  | .rgba r g b a => decide (s.cfgChannels = 4#8 ∧ (⟨r, g, b, a⟩ : Pixel) ≠ s.prev)
  | .run n => decide (s.run.toNat = n ∧ (n = 62 ∨ s.pixCount.toNat = s.total))
  | .header _ _ _ _ => true
  | .endMarker => true
  | .start _ _ _ _ => false
  | .pixel _ _ _ _ _ => false
  | .close _ => false
  | .reserved _ => false

/-- The emission `op` of the unit `i`. In IDLE there is no session (R196, R198); in ERROR the block is stopped and no byte
is emitted (R126). An operand outside its packer's range comes to the packer, which has no meaning for it (R179). -/
def inSession (i : Instr) (op : State → Flow) (s : State) : Host.Outcome State Fault Refusal :=
  match s.fsm with
  | .idle => .fault .noSession
  | .encoding => if i.wf && !mayEmit i s then .fault .neverEmitted else (op s).outcome
  | .error => .next s

/-- INDEX h (R144, R170). -/
def execIndex (h : Slot) (s : State) : Host.Outcome State Fault Refusal :=
  inSession (.index h) (emitPacked (packINDEX h)) s

/-- DIFF dr, dg, db (R148, R171). -/
def execDiff (dr dg db : Int) (s : State) : Host.Outcome State Fault Refusal :=
  inSession (.diff dr dg db) (emitPacked (packDIFF dr dg db)) s

/-- LUMA dg, drg, dbg (R149, R172). -/
def execLuma (dg drg dbg : Int) (s : State) : Host.Outcome State Fault Refusal :=
  inSession (.luma dg drg dbg) (emitPacked (packLUMA dg drg dbg)) s

/-- RGB r, g, b (R75, R150, R174). -/
def execRgb (r g b : Byte) (s : State) : Host.Outcome State Fault Refusal :=
  inSession (.rgb r g b) (emitPacked (packRGB ⟨r, g, b, 255⟩)) s

/-- RGBA r, g, b, a (R76, R150, R175). -/
def execRgba (r g b a : Byte) (s : State) : Host.Outcome State Fault Refusal :=
  inSession (.rgba r g b a) (emitPacked (packRGBA ⟨r, g, b, a⟩)) s

/-- RUN n (R142, R143, R152, R173): a run is emitted and RUN becomes 0. -/
def execRun (n : Nat) (s : State) : Host.Outcome State Fault Refusal := inSession (.run n) (emitRun n) s

/-- HEADER w, h, ch, cs (R123, R176), with the row's own fields (notes/assumptions/20.md). -/
def execHeader (w h : U32) (ch cs : Byte) (s : State) : Host.Outcome State Fault Refusal :=
  inSession (.header w h ch cs) (emitPacked (packHeader w h ch cs)) s

/-- END (R125, R177). -/
def execEnd (s : State) : Host.Outcome State Fault Refusal := inSession .endMarker (emitPacked packEnd) s

end Sys2Proof.Machine
end

