-- ==== Sys2Proof/Machine/Dispatch.lean ====
section
/-! DEFINITION. exec: one arm per row of spec/opcode_table.json. -/

namespace Sys2Proof.Machine

def exec (i : Instr) (s : State) : Host.Outcome State Fault Refusal :=
  match i with
  | .index h => Sys2Proof.Machine.execIndex h s
  | .diff dr dg db => Sys2Proof.Machine.execDiff dr dg db s
  | .luma dg drg dbg => Sys2Proof.Machine.execLuma dg drg dbg s
  | .rgb r g b => Sys2Proof.Machine.execRgb r g b s
  | .rgba r g b a => Sys2Proof.Machine.execRgba r g b a s
  | .run n => Sys2Proof.Machine.execRun n s
  | .header w h ch cs => Sys2Proof.Machine.execHeader w h ch cs s
  | .endMarker => Sys2Proof.Machine.execEnd s
  | .start w h ch cs => Sys2Proof.Machine.execStart w h ch cs s
  | .pixel ignored r g b a => Sys2Proof.Machine.execPixel ignored r g b a s
  | .close ignored => Sys2Proof.Machine.execClose ignored s
  | .reserved ignored => Sys2Proof.Machine.execReserved ignored s

end Sys2Proof.Machine
end

