-- ==== Sys2Proof/Machine/Fetch.lean ====
section
/-!
DEFINITION. Where the next transaction comes from. QOIENC has no program counter and fetches no instructions (R36, R63):
it takes the host's transactions in order (R129), one a step (R12). A stream unit at PACK's input (`packIn`, empty in
hardware) comes before them.
-/

namespace Sys2Proof.Machine

/-- What a step has to do. -/
inductive Transaction where
  /-- nothing to execute: the state after this step is `s` (a wait, or a reset) -/
  | settle (s : State)
  /-- execute `i` at `s`, which no longer holds the word that was taken -/
  | run (i : Instr) (s : State)
  /-- the machine stops -/
  | stop (f : Fault)
  /-- there is no meaning for what was given -/
  | refuse (r : Refusal)
  deriving DecidableEq, Repr

/-- The stream unit at PACK's input, taken. -/
def fetchUnit (s : State) : Transaction :=
  match decodeUnit s.packIn with
  | .ok i => .run i { s with packIn := [] }
  | .error e => .refuse (.notAUnit e)

/-- The host's next transaction, taken. Without one QOIENC waits (R227). Reset comes at any time, also during a hold
(R240). A command is not executed while QOIENC is held (R129, R248). -/
def fetchPort (s : State) : Transaction :=
  match s.port with
  | [] => .settle s
  | .reset :: rest => .settle { s with port := rest }.afterReset
  | .command w :: rest => if s.held then .stop .heldOnSink else .run (decodeCommand w) { s with port := rest }

/-- The next transaction. -/
def fetch (s : State) : Transaction := if s.packIn ≠ [] ∧ s.held = false then fetchUnit s else fetchPort s

/-- What R83 asks of the state for the unit `i` to be emitted, made so where it is not: the channel count and another
pixel in PREV for a raw chunk, the pending run and, below the cap, the end of the scan for a RUN. -/
def State.readyFor (s : State) (i : Instr) : State :=
  match i with
  | .index _ => s
  | .diff _ _ _ => s
  | .luma _ _ _ => s
  | .rgb r g b =>
    { s with cfgChannels := 3, prev := if r = s.prev.r ∧ g = s.prev.g ∧ b = s.prev.b then ⟨~~~r, g, b, 255⟩ else s.prev }
  | .rgba r g b a => { s with cfgChannels := 4, prev := if (⟨r, g, b, a⟩ : Pixel) = s.prev then ⟨~~~r, g, b, a⟩ else s.prev }
  | .run n => { s with run := BitVec.ofNat 6 n, pixCount := if n = 62 then s.pixCount else BitVec.ofNat 64 s.total }
  | .header _ _ _ _ => s
  | .endMarker => s
  | .start _ _ _ _ => s
  | .pixel _ _ _ _ _ => s
  | .close _ => s
  | .reserved _ => s

/-- `s` with an encoded instruction as its next transaction (notes/assumptions/5.md): a command word at the head of the
command port; a stream unit at PACK's input, in an open session and ready for it, since a unit is only ever emitted so. -/
def placeEncoded (s : State) (e : Encoded) : State :=
  match e with
  | .command w => { s with port := .command w :: s.port, packIn := [], held := false }
  | .stream bs =>
    let t := { s with packIn := bs, held := false, fsm := if s.fsm = .idle then .encoding else s.fsm }
    match decodeUnit bs with
    | .ok i => t.readyFor i
    | .error _ => t

end Sys2Proof.Machine
end

