-- ==== Sys2Proof/Machine/Step.lean ====
section
/-! DEFINITION. One step: one transaction (R12, R249). -/

namespace Sys2Proof.Machine

/-- The step: the next transaction of Fetch.lean, carried out. -/
def step (s : State) : Host.Outcome State Fault Refusal :=
  match fetch s with
  | .settle t => .next t
  | .run i t => exec i t
  | .stop f => .fault f
  | .refuse r => .refused r

/-- `s` with the opcode-table row numbered `w` in `nbits` bits as its next transaction. -/
def State.withFetchWord (s : State) (nbits w : Nat) : State := placeEncoded s (tableRow nbits w)

end Sys2Proof.Machine
end

