-- ==== Sys2Proof/Safety.lean ====
section
/-!
DEFINITION. The terms that claims are made in: the invariant of the machine, what the serializer has delivered, the
decision table of spec/42_selector.md rule R153 and the stream of a whole encode (spec/41_commands.md rule R131).
The table and the stream are written from those rules, not from the meanings in Machine/.
-/

namespace Sys2Proof.Machine

/-! ## The sink and the serializer -/

/-- The sink's answer to the k-th SinkWrite from `s` on. -/
def answerAt (s : State) (k : Nat) : SinkAnswer := (s.sinkIn[k]?).getD (Config.sinkAnswer (s.sinkWrites + k))

/-- The sink answers `ok` to the next `n` SinkWrites. -/
abbrev accepts (s : State) (n : Nat) : Prop := ∀ k, k < n → answerAt s k = .ok

/-- The whole blocks of `cap` bytes that a byte sequence is cut into: at offsets 0, cap, 2·cap, … (R191). -/
def fullBlocks (cap : Nat) (bytes : List Byte) : List (List Byte) :=
  (List.range (bytes.length / cap)).map fun k => (bytes.drop (k * cap)).take cap

/-- What is left after the whole blocks. -/
def remainder (cap : Nat) (bytes : List Byte) : List Byte := bytes.drop (bytes.length / cap * cap)

/-- The blocks of a whole session's bytes: whole ones, then what is left, if anything (R60, R194). -/
def sessionBlocks (cap : Nat) (bytes : List Byte) : List (List Byte) :=
  fullBlocks cap bytes ++ if remainder cap bytes = [] then [] else [remainder cap bytes]

/-- How many blocks an `Emit` of `bytes` at `s` delivers. -/
abbrev blocksDue (s : State) (bytes : List Byte) : Nat := (s.outbuf ++ bytes).length / s.bufCap

/-- `s` after an `Emit` of `bytes` that the sink accepted: whole blocks delivered, the rest in OUTBUF (R190, R191). -/
def afterEmit (s : State) (bytes : List Byte) : State :=
  { s with
    outbuf := remainder s.bufCap (s.outbuf ++ bytes)
    sinkLog := s.sinkLog ++ (fullBlocks s.bufCap (s.outbuf ++ bytes)).map .block
    sinkIn := s.sinkIn.drop (blocksDue s bytes)
    sinkWrites := s.sinkWrites + blocksDue s bytes }

/-- `s` after the first `k` blocks of an `Emit` of `bytes` were accepted and block number `k` went out as well, whatever
is then in OUTBUF. -/
def afterBlocks (s : State) (bytes : List Byte) (k : Nat) (out : List Byte) : State :=
  { s with
    outbuf := out
    sinkLog := s.sinkLog ++ ((fullBlocks s.bufCap (s.outbuf ++ bytes)).take (k + 1)).map .block
    sinkIn := s.sinkIn.drop (k + 1)
    sinkWrites := s.sinkWrites + (k + 1) }

/-- The bytes of a list of sink events, in order. -/
def deliveredBytes : List SinkEvent → List Byte
  | [] => []
  | .block bytes :: es => bytes ++ deliveredBytes es
  | .close :: es => deliveredBytes es

/-- `s` after an error other than SINK was raised during a session (R195, R215): the partial block, if there is one, and
SinkClose; ERR_SUP where the sink fails that block; held where it does not answer. -/
def afterErrorExit (s : State) (code : ErrorCode) (info : U64) : State :=
  if s.outbuf = [] then
    { s with sinkLog := s.sinkLog ++ [.close], fsm := .error, errCode := code, errInfo := info }
  else
    match answerAt s 0 with
    | .ok =>
      { s with
        sinkLog := s.sinkLog ++ [.block s.outbuf, .close], sinkIn := s.sinkIn.tail, sinkWrites := s.sinkWrites + 1
        outbuf := [], fsm := .error, errCode := code, errInfo := info }
    | .fail _ =>
      { s with
        sinkLog := s.sinkLog ++ [.block s.outbuf], sinkIn := s.sinkIn.tail, sinkWrites := s.sinkWrites + 1
        outbuf := [], fsm := .error, errCode := code, errInfo := info, errSup := true }
    | .hold =>
      { s with
        sinkLog := s.sinkLog ++ [.block s.outbuf], sinkIn := s.sinkIn.tail, sinkWrites := s.sinkWrites + 1
        held := true }

/-! ## The selector's decision table (R153) and the stream of an image (R131) -/

/-- What the table gives for one pixel. -/
structure Decision where
  chunks : List Instr
  prev : Pixel
  run : Nat
  icache : Vector Pixel 64
  deriving DecidableEq, Repr

/-- The pending run's chunk, `[RUN RUN if RUN > 0]`. -/
def pendingRun (run : Nat) : List Instr := if run > 0 then [.run run] else []

/-- The table of R153, row by row. -/
def decisionTable (ch : Byte) (px prev : Pixel) (run : Nat) (icache : Vector Pixel 64) : Decision :=
  let h := pixelHash px
  let dr := delta px.r prev.r
  let dg := delta px.g prev.g
  let db := delta px.b prev.b
  let missed := icache.set h.toNat px h.isLt
  if px = prev ∧ run + 1 < 62 then ⟨[], prev, run + 1, icache⟩
  else if px = prev then ⟨[.run 62], prev, 0, icache⟩
  else if icache[h.toNat]'h.isLt = px then ⟨pendingRun run ++ [.index h], px, 0, icache⟩
  else if px.a = prev.a ∧ inDiff dr ∧ inDiff dg ∧ inDiff db then
    ⟨pendingRun run ++ [.diff dr dg db], px, 0, missed⟩
  else if px.a = prev.a ∧ inLumaG dg ∧ inLumaRB (dr - dg) ∧ inLumaRB (db - dg) then
    ⟨pendingRun run ++ [.luma dg (dr - dg) (db - dg)], px, 0, missed⟩
  else if ch = 3#8 then ⟨pendingRun run ++ [.rgb px.r px.g px.b], px, 0, missed⟩
  else ⟨pendingRun run ++ [.rgba px.r px.g px.b px.a], px, 0, missed⟩

/-- The bytes of one stream unit by its format: R71 to R78, with the biases of R79 added and the fields summed. -/
def unitBytes : Instr → List Byte
  | .index h => [BitVec.ofNat 8 h.toNat]
  | .diff dr dg db => [BitVec.ofInt 8 (64 + 16 * (dr + 2) + 4 * (dg + 2) + (db + 2))]
  | .luma dg drg dbg => [BitVec.ofInt 8 (128 + (dg + 32)), BitVec.ofInt 8 (16 * (drg + 8) + (dbg + 8))]
  | .rgb r g b => [254, r, g, b]
  | .rgba r g b a => [255, r, g, b, a]
  | .run n => [BitVec.ofNat 8 (192 + (n - 1))]
  | .header w h ch cs =>
    [0x71, 0x6F, 0x69, 0x66,
      BitVec.ofNat 8 (w.toNat / 2 ^ 24), BitVec.ofNat 8 (w.toNat / 2 ^ 16), BitVec.ofNat 8 (w.toNat / 2 ^ 8), BitVec.ofNat 8 w.toNat,
      BitVec.ofNat 8 (h.toNat / 2 ^ 24), BitVec.ofNat 8 (h.toNat / 2 ^ 16), BitVec.ofNat 8 (h.toNat / 2 ^ 8), BitVec.ofNat 8 h.toNat,
      ch, cs]
  | .endMarker => [0, 0, 0, 0, 0, 0, 0, 1]
  | .start _ _ _ _ => []
  | .pixel _ _ _ _ _ => []
  | .close _ => []
  | .reserved _ => []

/-- The length of a unit (R89). -/
def unitLength : Instr → Nat
  | .index _ => 1
  | .diff _ _ _ => 1
  | .luma _ _ _ => 2
  | .rgb _ _ _ => 4
  | .rgba _ _ _ _ => 5
  | .run _ => 1
  | .header _ _ _ _ => 14
  | .endMarker => 8
  | .start _ _ _ _ => 0
  | .pixel _ _ _ _ _ => 0
  | .close _ => 0
  | .reserved _ => 0

/-- `i` is of the chunk kind that opcode byte `b` selects, by the table of R81. -/
def opcodeSelects (b : Byte) : Instr → Prop
  | .index h => b.toNat ≤ 0x3F ∧ h.toNat = b.toNat
  | .diff _ _ _ => 0x40 ≤ b.toNat ∧ b.toNat ≤ 0x7F
  | .luma _ _ _ => 0x80 ≤ b.toNat ∧ b.toNat ≤ 0xBF
  | .run n => 0xC0 ≤ b.toNat ∧ b.toNat ≤ 0xFD ∧ n = b.toNat - 0xC0 + 1
  | .rgb _ _ _ => b.toNat = 0xFE
  | .rgba _ _ _ _ => b.toNat = 0xFF
  | .header _ _ _ _ => False
  | .endMarker => False
  | .start _ _ _ _ => False
  | .pixel _ _ _ _ _ => False
  | .close _ => False
  | .reserved _ => False

/-- The bytes of a sequence of units, in order. -/
def streamBytes (units : List Instr) : List Byte := (units.map unitBytes).flatten

/-- The chunks of a scan from a given scan state, EndOfScan included (R131, R152). -/
def scanChunks (ch : Byte) (prev : Pixel) (run : Nat) (icache : Vector Pixel 64) : List Pixel → List Instr
  | [] => pendingRun run
  | px :: rest =>
    let d := decisionTable ch px prev run icache
    d.chunks ++ scanChunks ch d.prev d.run d.icache rest

/-- The units of a whole encode: Header, Body, end marker (R131), from the initial scan state of R122. -/
def imageUnits (w h : U32) (ch cs : Byte) (pixels : List (Byte × Byte × Byte × Byte)) : List Instr :=
  [.header w h ch cs]
    ++ scanChunks ch ⟨0, 0, 0, 255⟩ 0 (Vector.replicate 64 ⟨0, 0, 0, 0⟩)
        (pixels.map fun (r, g, b, a) => pixelOf ch r g b a)
    ++ [.endMarker]

/-- The byte stream of an image (R58, R131). -/
def imageBytes (w h : U32) (ch cs : Byte) (pixels : List (Byte × Byte × Byte × Byte)) : List Byte :=
  streamBytes (imageUnits w h ch cs pixels)

/-- Commands as the host issues them: their words on the command port. -/
def commandWords (commands : List Instr) : List PortEvent :=
  commands.filterMap fun i =>
    match encode i with
    | some (.command w) => some (.command w)
    | _ => none

/-- `n` transactions, stopping at the first fault or refusal: `core.run`, on this model's own types. -/
def steps : Nat → State → Host.Outcome State Fault Refusal
  | 0, s => .next s
  | n + 1, s =>
    match step s with
    | .next t => steps n t
    | .fault f => .fault f
    | .refused r => .refused r

/-! ## The invariant -/

/-- What holds between steps, from reset on. -/
structure State.Inv (s : State) : Prop where
  /-- `BUF_CAP` ≥ 1 (R7). -/
  cap : 1 ≤ s.bufCap
  /-- Only a command of a session can be held on the sink (R192, R198). -/
  held_session : s.held = true → s.fsm = .encoding
  /-- OUTBUF_LEN ≤ BUF_CAP − 1 between transactions (R30, R191). -/
  room : s.held = false → s.outbuf.length < s.bufCap
  /-- OUTBUF_LEN ≤ BUF_CAP always (R30). -/
  fits : s.outbuf.length ≤ s.bufCap
  /-- OUTBUF is empty outside a session (R30, R194, R195, R215). -/
  closed_empty : s.fsm ≠ .encoding → s.outbuf = []
  /-- RUN is 0 to 61 between the commands of an encode (R27, R142). -/
  run_rest : s.fsm = .encoding → s.held = false → s.run.toNat ≤ 61
  /-- RUN is at most 62 (R27). -/
  run_max : s.fsm = .encoding → s.run.toNat ≤ 62
  /-- Outside ERROR no error is recorded (R31, R32, R43). -/
  no_error : s.fsm ≠ .error → s.errCode = .none ∧ s.errInfo = 0 ∧ s.errSup = false
  /-- In ERROR one is (R215). -/
  error_named : s.fsm = .error → s.errCode ≠ .none
  /-- ERR_SUP stands only beside an error other than SINK (R43). -/
  sup_not_sink : s.errSup = true → s.errCode ≠ .sink
  /-- During an encode the configuration is legal (R22 to R25). -/
  cfg_legal : s.fsm = .encoding → headerLegal s.cfgWidth s.cfgHeight s.cfgChannels s.cfgColorspace
  /-- PIX_COUNT is at most CFG_WIDTH × CFG_HEIGHT (R29, R36). -/
  count_bound : s.fsm = .encoding → s.pixCount.toNat ≤ s.total
  /-- In a 3-channel encode PREV's alpha is 255 (R106). -/
  alpha_fixed : s.fsm = .encoding → s.cfgChannels = 3#8 → s.prev.a = 255#8
  /-- A slot holds (0,0,0,0) or a pixel whose hash is its number (R156). -/
  slot_hash : s.fsm = .encoding → ∀ h : Slot, icacheRead h s = ⟨0, 0, 0, 0⟩ ∨ pixelHash (icacheRead h s) = h

end Sys2Proof.Machine
end

