-- ==== Sys2Proof/Certificates/Slice0/Obligations.lean ====
section
/-!
DEFINITION. The statements for the provers, each from the rules of spec/ it names. They hold for every value of the
parameter `BUF_CAP` (the field `bufCap`), of the sink's answers and of the free draws of Config.lean.
-/

open Sys2Proof Sys2Proof.Machine

/-- The formats of R71 to R78 and R86 to R88 and their inverse reading R80 agree, for all twelve rows. -/
def Obligations.EncodeThenDecodeIsIdentity : Prop :=
  ∀ i : Instr, i.WellFormed → ∃ e, encode i = some e ∧ decode e = .ok i

/-- The other direction on the command port (R85 to R88). That ignored bits are kept as operands, so that two words never give one
Instr, is the model's choice (notes/assumptions/15.md): the spec makes all CLOSE words one command (R88, I5). -/
def Obligations.CommandWordDecodesWithoutLoss : Prop :=
  ∀ w : CommandWord, encode (decodeCommand w) = some (.command w)

/-- R81, with the lengths of R89: the ranges of R81 do not overlap, so the kind is the only one. -/
def Obligations.OpcodeByteSelectsOneKind : Prop :=
  ∀ (b : Byte) (rest : List Byte), 4 ≤ rest.length →
    ∃ i, opcodeSelects b i ∧ decodeChunk (b :: rest) = .ok (i, rest.drop (unitLength i - 1))

/-- Sanity: words of 95_test_vectors.md. -/
def Obligations.WrittenWordsDecode : Prop :=
  decodeCommand 0x100000002000000010300#82 = .start 2 1 3 0 ∧
  decodeCommand 0x20000000000000A0A0AFF#82 = .pixel 0 10 10 10 255 ∧
  decodeCommand 0x300000000000000000000#82 = .close 0 ∧
  decodeCommand 0#82 = .reserved 0 ∧
  decodeUnit [0x35] = .ok (.index 53) ∧
  decodeUnit [0x73] = .ok (.diff 1 (-2) 1) ∧
  decodeUnit [0xBF, 0xF0] = .ok (.luma 31 7 (-8)) ∧
  decodeUnit [0xFD] = .ok (.run 62) ∧
  decodeUnit [0xFE, 0x64, 0x00, 0x00] = .ok (.rgb 100 0 0) ∧
  decodeUnit [0xFF, 0x01, 0x02, 0x03, 0x04] = .ok (.rgba 1 2 3 4) ∧
  decodeUnit [0x71, 0x6F, 0x69, 0x66, 0, 0, 0x03, 0x20, 0, 0, 0x02, 0x58, 4, 1] = .ok (.header 800 600 4 1) ∧
  decodeUnit [0, 0, 0, 0, 0, 0, 0, 1] = .ok .endMarker

/-- One transaction a step, in the host's order (R129). -/
def Obligations.StepRunsDecodedCommand : Prop :=
  ∀ (s : State) (w : CommandWord) (rest : List PortEvent),
    s.packIn = [] → s.held = false → s.port = .command w :: rest →
    step s = exec (decodeCommand w) { s with port := rest }

/-- The model's own (notes/assumptions/1.md): how the eight stream rows are run by themselves. -/
def Obligations.StepRunsDecodedUnit : Prop :=
  ∀ (s : State) (i : Instr), s.packIn ≠ [] → s.held = false → decodeUnit s.packIn = .ok i →
    step s = exec i { s with packIn := [] }

/-- R240 with the values R41 states. That packIn is emptied and that port, sinkIn, sinkWrites and bufCap keep what is not QOIENC's
state is the model's reading (notes/assumptions/9.md), and that a unit at PACK's input goes before the reset where there is no hold,
so that the hypothesis leaves that state out, is the model's choice (notes/assumptions/17.md). -/
def Obligations.StepResets : Prop :=
  ∀ (s : State) (rest : List PortEvent), (s.packIn = [] ∨ s.held = true) → s.port = .reset :: rest →
    ∃ t, step s = .next t ∧ t.fsm = .idle ∧ t.errCode = .none ∧ t.errInfo = 0 ∧ t.errSup = false ∧
      t.pixCount = 0 ∧ t.outbuf = [] ∧ t.status = 0 ∧ t.idleOut = true ∧ t.errorOut = false ∧
      t.held = false ∧ t.packIn = [] ∧ t.port = rest ∧
      t.sinkLog = s.sinkLog ∧ t.sinkIn = s.sinkIn ∧ t.sinkWrites = s.sinkWrites ∧ t.bufCap = s.bufCap

/-- R227: it does nothing until a command or reset arrives, and no state is lost while waiting. -/
def Obligations.StepWaitsForTheHost : Prop :=
  ∀ s : State, (s.packIn = [] ∨ s.held = true) → s.port = [] → step s = .next s

/-- R129, R248: the next command is not executed before the sink answers. That the step then stops by name is the model's choice
(notes/assumptions/14.md); I8 calls it stuck. R240: reset leaves the hold. -/
def Obligations.HeldMachineExecutesNoCommand : Prop :=
  ∀ s : State, s.held = true →
    (∀ (w : CommandWord) (rest : List PortEvent), s.port = .command w :: rest → step s = .fault .heldOnSink) ∧
    (∀ t, step s = .next t →
      (∃ rest, s.port = .reset :: rest ∧ t.held = false) ∨ (s.port = [] ∧ t = s ∧ t.held = true))

/-- R120, R122, R123: the completion of START. -/
def Obligations.StartBeginsEncode : Prop :=
  ∀ (s : State) (w h : U32) (ch cs : Byte), s.fsm = .idle → headerLegal w h ch cs → 1 ≤ s.bufCap → s.outbuf = [] →
    accepts s (14 / s.bufCap) →
    exec (.start w h ch cs) s =
      .next (afterEmit
        { s with
          fsm := .encoding, cfgWidth := w, cfgHeight := h, cfgChannels := ch, cfgColorspace := cs,
          prev := ⟨0, 0, 0, 255⟩, run := 0, icache := Vector.replicate 64 ⟨0, 0, 0, 0⟩, pixCount := 0 }
        (unitBytes (.header w h ch cs)))

/-- The table of R121. -/
def Obligations.StartRefusesIllegalFields : Prop :=
  ∀ (s : State) (w h : U32) (ch cs : Byte), s.fsm = .idle →
    (w = 0 → exec (.start w h ch cs) s =
      .next { s with outbuf := [], fsm := .error, errCode := .malformed, errInfo := 1 }) ∧
    (w ≠ 0 → h = 0 → exec (.start w h ch cs) s =
      .next { s with outbuf := [], fsm := .error, errCode := .malformed, errInfo := 2 }) ∧
    (w ≠ 0 → h ≠ 0 → ¬ (ch = 3#8 ∨ ch = 4#8) → exec (.start w h ch cs) s =
      .next { s with outbuf := [], fsm := .error, errCode := .malformed, errInfo := 3 }) ∧
    (w ≠ 0 → h ≠ 0 → (ch = 3#8 ∨ ch = 4#8) → ¬ (cs = 0#8 ∨ cs = 1#8) → exec (.start w h ch cs) s =
      .next { s with outbuf := [], fsm := .error, errCode := .malformed, errInfo := 4 })

/-- R127 and R128; afterErrorExit is R195 and R215, and its case of a block that gets no answer (held, FSM still ENCODING, nothing
recorded) is the model's choice (notes/assumptions/4.md, notes/assumptions/14.md). -/
def Obligations.OutOfStateCommandsRaiseProtocol : Prop :=
  ∀ s : State,
    (s.fsm = .idle →
      (∀ ign r g b a, exec (.pixel ign r g b a) s =
        .next { s with outbuf := [], fsm := .error, errCode := .protocol, errInfo := 2 }) ∧
      (∀ ign, exec (.close ign) s =
        .next { s with outbuf := [], fsm := .error, errCode := .protocol, errInfo := 3 }) ∧
      (∀ ign, exec (.reserved ign) s =
        .next { s with outbuf := [], fsm := .error, errCode := .protocol, errInfo := 0 })) ∧
    (s.fsm = .encoding →
      (∀ w h ch cs, exec (.start w h ch cs) s = .next (afterErrorExit s .protocol 1)) ∧
      (∀ ign, exec (.reserved ign) s = .next (afterErrorExit s .protocol 0))) ∧
    (s.fsm = .error → ∀ ign, exec (.reserved ign) s = .next s)

/-- R126. -/
def Obligations.ErrorIgnoresCommands : Prop :=
  ∀ (s : State) (i : Instr), s.fsm = .error → i.isCommand = true → exec i s = .next s

/-- R195 with R215, for each way of R127, R128, R124 and R125 to raise an error other than SINK in a session. -/
def Obligations.ErrorExitFlushesAndCloses : Prop :=
  ∀ (s : State) (i : Instr) (code : ErrorCode) (info : U64), s.fsm = .encoding →
    ((∃ ign, i = .reserved ign ∧ code = .protocol ∧ info = 0) ∨
      (∃ w h ch cs, i = .start w h ch cs ∧ code = .protocol ∧ info = 1) ∨
      (∃ ign r g b a, i = .pixel ign r g b a ∧ s.pixCount.toNat = s.total ∧ code = .bounds ∧ info = s.pixCount) ∨
      (∃ ign, i = .close ign ∧ s.pixCount.toNat ≠ s.total ∧ code = .malformed ∧ info = 5)) →
    (s.outbuf = [] → ∃ t, exec i s = .next t ∧ t.fsm = .error ∧ t.errCode = code ∧ t.errInfo = info ∧
      t.errSup = s.errSup ∧ t.outbuf = [] ∧ t.run = s.run ∧ t.pixCount = s.pixCount ∧
      t.sinkLog = s.sinkLog ++ [.close]) ∧
    (s.outbuf ≠ [] → answerAt s 0 = .ok → ∃ t, exec i s = .next t ∧ t.fsm = .error ∧ t.errCode = code ∧
      t.errInfo = info ∧ t.errSup = s.errSup ∧ t.outbuf = [] ∧ t.run = s.run ∧ t.pixCount = s.pixCount ∧
      t.sinkLog = s.sinkLog ++ [.block s.outbuf, .close]) ∧
    (s.outbuf ≠ [] → ∀ sinkCode, answerAt s 0 = .fail sinkCode → ∃ t, exec i s = .next t ∧ t.fsm = .error ∧
      t.errCode = code ∧ t.errInfo = info ∧ t.errSup = true ∧ t.outbuf = [] ∧ t.run = s.run ∧
      t.pixCount = s.pixCount ∧ t.sinkLog = s.sinkLog ++ [.block s.outbuf])

/-- R140 against the table of R153, and the formats of R71 to R76: the completion of PIXEL. -/
def Obligations.PixelFollowsDecisionTable : Prop :=
  ∀ (s : State) (ign : BitVec 48) (r g b a : Byte), s.fsm = .encoding → s.pixCount.toNat ≠ s.total →
    s.run.toNat ≤ 61 → s.outbuf.length < s.bufCap →
    let d := decisionTable s.cfgChannels (pixelOf s.cfgChannels r g b a) s.prev s.run.toNat s.icache
    accepts s (blocksDue s (streamBytes d.chunks)) →
    exec (.pixel ign r g b a) s =
      .next (afterEmit
        { s with pixCount := s.pixCount + 1, run := BitVec.ofNat 6 d.run, prev := d.prev, icache := d.icache }
        (streamBytes d.chunks))

/-- R141 and R142. -/
def Obligations.RunPixelOnlyCounts : Prop :=
  ∀ (s : State) (ign : BitVec 48) (r g b a : Byte), s.fsm = .encoding → s.pixCount.toNat ≠ s.total →
    pixelOf s.cfgChannels r g b a = s.prev →
    (s.run.toNat < 61 →
      exec (.pixel ign r g b a) s = .next { s with pixCount := s.pixCount + 1, run := s.run + 1 }) ∧
    (s.run.toNat = 61 → s.outbuf.length < s.bufCap → accepts s (blocksDue s [0xFD]) →
      exec (.pixel ign r g b a) s = .next (afterEmit { s with pixCount := s.pixCount + 1, run := 0 } [0xFD]))

/-- R144, with R143 and R151. -/
def Obligations.IndexHitEmitsSlotAndKeepsCache : Prop :=
  ∀ (s : State) (ign : BitVec 48) (r g b a : Byte), s.fsm = .encoding → s.pixCount.toNat ≠ s.total →
    s.run.toNat ≤ 61 → s.outbuf.length < s.bufCap →
    let px := pixelOf s.cfgChannels r g b a
    let bytes := streamBytes (pendingRun s.run.toNat) ++ [BitVec.ofNat 8 (pixelHash px).toNat]
    px ≠ s.prev → icacheRead (pixelHash px) s = px → accepts s (blocksDue s bytes) →
    exec (.pixel ign r g b a) s =
      .next (afterEmit { s with pixCount := s.pixCount + 1, run := 0, prev := px } bytes)

/-- R145 with R52. -/
def Obligations.IndexMissOverwritesItsSlot : Prop :=
  ∀ (s : State) (ign : BitVec 48) (r g b a : Byte), s.fsm = .encoding → s.pixCount.toNat ≠ s.total →
    s.run.toNat ≤ 61 → s.outbuf.length < s.bufCap → accepts s ((s.outbuf.length + 6) / s.bufCap) →
    let px := pixelOf s.cfgChannels r g b a
    px ≠ s.prev → icacheRead (pixelHash px) s ≠ px →
    ∃ t, exec (.pixel ign r g b a) s = .next t ∧ t.fsm = .encoding ∧ icacheRead (pixelHash px) t = px ∧
      ∀ h, h ≠ pixelHash px → icacheRead h t = icacheRead h s

/-- R157; with 3 channels the alpha never changes (R106, State.Inv.alpha_fixed). -/
def Obligations.AlphaChangeForcesRgba : Prop :=
  ∀ (s : State) (ign : BitVec 48) (r g b a : Byte), s.fsm = .encoding → s.pixCount.toNat ≠ s.total →
    s.cfgChannels = 4 → s.run.toNat ≤ 61 → s.outbuf.length < s.bufCap →
    let px : Pixel := ⟨r, g, b, a⟩
    let bytes := streamBytes (pendingRun s.run.toNat) ++ [0xFF, r, g, b, a]
    a ≠ s.prev.a → icacheRead (pixelHash px) s ≠ px → accepts s (blocksDue s bytes) →
    exec (.pixel ign r g b a) s =
      .next (afterEmit
        { s with
          pixCount := s.pixCount + 1, run := 0, prev := px
          icache := s.icache.set (pixelHash px).toNat px (pixelHash px).isLt }
        bytes)

/-- The table of R83, for one PIXEL and, by the last clause, for PIXELs in a row. -/
def Obligations.PixelNeverEmitsExcludedChunks : Prop :=
  ∀ (s : State) (ign : BitVec 48) (r g b a : Byte), s.Inv → s.fsm = .encoding → s.held = false →
    s.pixCount.toNat ≠ s.total → accepts s ((s.outbuf.length + 6) / s.bufCap) →
    ∃ (t : State) (chunks : List Instr) (new : List SinkEvent), exec (.pixel ign r g b a) s = .next t ∧
      t.sinkLog = s.sinkLog ++ new ∧ deliveredBytes new ++ t.outbuf = s.outbuf ++ streamBytes chunks ∧
      (∀ i ∈ chunks, i.WellFormed ∧ i.isCommand = false) ∧
      (∀ dr dg db, .diff dr dg db ∈ chunks → ¬ (dr = 0 ∧ dg = 0 ∧ db = 0) ∧ t.prev.a = s.prev.a) ∧
      (∀ dg drg dbg, .luma dg drg dbg ∈ chunks →
        ¬ (inDiff (drg + dg) ∧ inDiff dg ∧ inDiff (dbg + dg)) ∧ t.prev.a = s.prev.a) ∧
      (∀ r' g' b', .rgb r' g' b' ∈ chunks → s.cfgChannels = 3#8 ∧ (⟨r', g', b', 255⟩ : Pixel) ≠ s.prev) ∧
      (∀ r' g' b' a', .rgba r' g' b' a' ∈ chunks → s.cfgChannels = 4 ∧ (⟨r', g', b', a'⟩ : Pixel) ≠ s.prev) ∧
      (∀ before n m after, chunks = before ++ [.run n, .run m] ++ after → n = 62) ∧
      (∀ before n, chunks = before ++ [.run n] → n = 62)

/-- The first bullet of R155. -/
def Obligations.PixelEmitsAtMostSixBytes : Prop :=
  ∀ (s : State) (ign : BitVec 48) (r g b a : Byte), s.Inv → s.fsm = .encoding → s.held = false →
    s.pixCount.toNat ≠ s.total → accepts s ((s.outbuf.length + 6) / s.bufCap) →
    ∃ (t : State) (bytes : List Byte) (new : List SinkEvent), exec (.pixel ign r g b a) s = .next t ∧
      t.sinkLog = s.sinkLog ++ new ∧ deliveredBytes new ++ t.outbuf = s.outbuf ++ bytes ∧ bytes.length ≤ 6 ∧
      (pixelOf s.cfgChannels r g b a = s.prev → s.run.toNat = 61 → bytes.length = 1)

/-- R212; afterErrorExit is R195 and R215, and its case of a partial block that gets no answer (held, FSM still ENCODING, no BOUNDS
recorded) is the model's choice (notes/assumptions/4.md, notes/assumptions/14.md). -/
def Obligations.ExtraPixelIsBounds : Prop :=
  ∀ (s : State) (ign : BitVec 48) (r g b a : Byte), s.fsm = .encoding → s.pixCount.toNat = s.total →
    exec (.pixel ign r g b a) s = .next (afterErrorExit s .bounds s.pixCount)

/-- R125, R152, R177 and R194: the completion of CLOSE, for every RUN that the register may hold (R27). -/
def Obligations.CloseEndsEncode : Prop :=
  ∀ (s : State) (ign : BitVec 80), s.fsm = .encoding → s.pixCount.toNat = s.total →
    s.run.toNat ≤ 62 → s.outbuf.length < s.bufCap →
    let bytes := streamBytes (pendingRun s.run.toNat ++ [.endMarker])
    let t := afterEmit { s with run := 0 } bytes
    accepts s (((s.outbuf ++ bytes).length + s.bufCap - 1) / s.bufCap) →
    exec (.close ign) s =
      .next (if t.outbuf = [] then { t with sinkLog := t.sinkLog ++ [.close], fsm := .idle }
        else
          { t with
            outbuf := [], sinkIn := t.sinkIn.tail, sinkWrites := t.sinkWrites + 1
            sinkLog := t.sinkLog ++ [.block t.outbuf, .close], fsm := .idle })

/-- R125, R211 sub-code 5; afterErrorExit is R195 and R215, and its case of a partial block that gets no answer (held, FSM still
ENCODING, no MALFORMED recorded) is the model's choice (notes/assumptions/4.md, notes/assumptions/14.md). -/
def Obligations.ShortCloseIsMalformed : Prop :=
  ∀ (s : State) (ign : BitVec 80), s.fsm = .encoding → s.pixCount.toNat ≠ s.total →
    exec (.close ign) s = .next (afterErrorExit s .malformed 5)

/-- R193 for the blocks of EndOfScan and of the end marker (R191), and R194's failing answer. RUN is as it was at the point of the
error (R215): R152 clears it after the chunk's Emit. -/
def Obligations.CloseBlockFailureIsSink : Prop :=
  ∀ (s : State) (ign : BitVec 80) (k : Nat) (code : U32), s.fsm = .encoding → s.pixCount.toNat = s.total →
    s.run.toNat ≤ 62 → s.outbuf.length < s.bufCap →
    let blocks := sessionBlocks s.bufCap (s.outbuf ++ streamBytes (pendingRun s.run.toNat ++ [.endMarker]))
    k < blocks.length → accepts s k → answerAt s k = .fail code →
    exec (.close ign) s =
      .next
        { s with
          run := if k < blocksDue s (streamBytes (pendingRun s.run.toNat)) then s.run else 0
          outbuf := [], fsm := .error, errCode := .sink, errInfo := code.setWidth 64
          sinkLog := s.sinkLog ++ (blocks.take (k + 1)).map .block
          sinkIn := s.sinkIn.drop (k + 1), sinkWrites := s.sinkWrites + (k + 1) }

/-- INDEX as PACK and SER carry it out (R71): its completion and frame. That the row runs by
itself, at any point of a session, as an Emit that changes nothing else, is the model's choice (notes/assumptions/1.md,
notes/assumptions/20.md). -/
def Obligations.IndexRowEmitsItsByte : Prop :=
  ∀ (s : State) (h : Slot), s.fsm = .encoding → s.outbuf.length < s.bufCap →
    accepts s (blocksDue s [BitVec.ofNat 8 h.toNat]) →
    exec (.index h) s = .next (afterEmit s [BitVec.ofNat 8 h.toNat])

/-- DIFF as PACK and SER carry it out (R72): its completion and frame. That the row runs by
itself, at any point of a session, as an Emit that changes nothing else, is the model's choice (notes/assumptions/1.md,
notes/assumptions/20.md). The deltas that R83 leaves out stop by name (notes/assumptions/19.md,
UnitsStopOutsideTheirDomain). -/
def Obligations.DiffRowEmitsItsByte : Prop :=
  ∀ (s : State) (dr dg db : Int), inDiff dr → inDiff dg → inDiff db → ¬ (dr = 0 ∧ dg = 0 ∧ db = 0) →
    s.fsm = .encoding → s.outbuf.length < s.bufCap →
    accepts s (blocksDue s [BitVec.ofInt 8 (64 + 16 * (dr + 2) + 4 * (dg + 2) + (db + 2))]) →
    exec (.diff dr dg db) s = .next (afterEmit s [BitVec.ofInt 8 (64 + 16 * (dr + 2) + 4 * (dg + 2) + (db + 2))])

/-- LUMA as PACK and SER carry it out (R73): its completion and frame. That the row runs by
itself, at any point of a session, as an Emit that changes nothing else, is the model's choice (notes/assumptions/1.md,
notes/assumptions/20.md). The deltas that R83 leaves out stop by name (notes/assumptions/19.md,
UnitsStopOutsideTheirDomain). -/
def Obligations.LumaRowEmitsItsTwoBytes : Prop :=
  ∀ (s : State) (dg drg dbg : Int), inLumaG dg → inLumaRB drg → inLumaRB dbg →
    ¬ (inDiff (drg + dg) ∧ inDiff dg ∧ inDiff (dbg + dg)) → s.fsm = .encoding → s.outbuf.length < s.bufCap →
    accepts s (blocksDue s [BitVec.ofInt 8 (128 + (dg + 32)), BitVec.ofInt 8 (16 * (drg + 8) + (dbg + 8))]) →
    exec (.luma dg drg dbg) s = .next (afterEmit s [BitVec.ofInt 8 (128 + (dg + 32)), BitVec.ofInt 8 (16 * (drg + 8) + (dbg + 8))])

/-- RGB and RGBA as PACK and SER carry them out, where R75, R76 and R83 let them be emitted: their completion and frame. That the
rows run by themselves, at any point of a session, is the model's choice (notes/assumptions/1.md, notes/assumptions/20.md);
elsewhere they stop by name (notes/assumptions/19.md). -/
def Obligations.RawRowsEmitTagAndChannels : Prop :=
  ∀ (s : State) (r g b a : Byte), s.fsm = .encoding → s.outbuf.length < s.bufCap →
    (s.cfgChannels = 3 → ¬ (r = s.prev.r ∧ g = s.prev.g ∧ b = s.prev.b) → accepts s (blocksDue s [0xFE, r, g, b]) →
      exec (.rgb r g b) s = .next (afterEmit s [0xFE, r, g, b])) ∧
    (s.cfgChannels = 4 → (⟨r, g, b, a⟩ : Pixel) ≠ s.prev → accepts s (blocksDue s [0xFF, r, g, b, a]) →
      exec (.rgba r g b a) s = .next (afterEmit s [0xFF, r, g, b, a]))

/-- RUN as SEL, PACK and SER carry it out: its completion and frame. That the row runs by itself and clears RUN is the model's choice
(notes/assumptions/1.md), as is the condition under which it may be emitted by itself (notes/assumptions/19.md). -/
def Obligations.RunRowEmitsItsByteAndClearsRun : Prop :=
  ∀ (s : State) (n : Nat), 1 ≤ n → n ≤ 62 → s.run.toNat = n → (n = 62 ∨ s.pixCount.toNat = s.total) →
    s.fsm = .encoding → s.outbuf.length < s.bufCap → accepts s (blocksDue s [BitVec.ofNat 8 (192 + (n - 1))]) →
    exec (.run n) s = .next (afterEmit { s with run := 0 } [BitVec.ofNat 8 (192 + (n - 1))])

/-- HEADER as PACK and SER carry it out (R176): its completion and frame. That the row
runs by itself, as an Emit that changes nothing else, is the model's choice (notes/assumptions/1.md), as is
that it may carry other fields than the CFG_* registers and stand anywhere in a session (notes/assumptions/20.md). -/
def Obligations.HeaderRowEmitsFourteenBytes : Prop :=
  ∀ (s : State) (w h : U32) (ch cs : Byte), headerFields ch cs → s.fsm = .encoding →
    s.outbuf.length < s.bufCap →
    let bytes : List Byte :=
      [0x71, 0x6F, 0x69, 0x66,
        BitVec.ofNat 8 (w.toNat / 2 ^ 24), BitVec.ofNat 8 (w.toNat / 2 ^ 16), BitVec.ofNat 8 (w.toNat / 2 ^ 8),
        BitVec.ofNat 8 w.toNat,
        BitVec.ofNat 8 (h.toNat / 2 ^ 24), BitVec.ofNat 8 (h.toNat / 2 ^ 16), BitVec.ofNat 8 (h.toNat / 2 ^ 8),
        BitVec.ofNat 8 h.toNat, ch, cs]
    accepts s (blocksDue s bytes) → exec (.header w h ch cs) s = .next (afterEmit s bytes)

/-- END as PACK and SER carry it out (R78): its completion and frame. That the row runs by itself, as the marker alone, is the model's
choice (notes/assumptions/1.md), as is that it may stand anywhere in a session (notes/assumptions/20.md). -/
def Obligations.EndRowEmitsTheMarker : Prop :=
  ∀ s : State, s.fsm = .encoding → s.outbuf.length < s.bufCap →
    accepts s (blocksDue s [0, 0, 0, 0, 0, 0, 0, 1]) →
    exec .endMarker s = .next (afterEmit s [0, 0, 0, 0, 0, 0, 0, 1])

/-- R179: a model should treat such a call as a modelling fault. R83: a model must not produce these; that the row then stops, and
when a RUN may stand by itself, is the model's choice (notes/assumptions/19.md), as are the IDLE and ERROR clauses
(notes/assumptions/1.md). -/
def Obligations.UnitsStopOutsideTheirDomain : Prop :=
  ∀ s : State,
    (s.fsm = .encoding →
      (∀ i : Instr, i.isCommand = false → i.wf = false → exec i s = .fault .packerOperand) ∧
      exec (.diff 0 0 0) s = .fault .neverEmitted ∧
      (∀ dg drg dbg, inDiff (drg + dg) → inDiff dg → inDiff (dbg + dg) → exec (.luma dg drg dbg) s = .fault .neverEmitted) ∧
      (∀ r g b, s.cfgChannels ≠ 3 ∨ (r = s.prev.r ∧ g = s.prev.g ∧ b = s.prev.b) →
        exec (.rgb r g b) s = .fault .neverEmitted) ∧
      (∀ r g b a, s.cfgChannels ≠ 4 ∨ (⟨r, g, b, a⟩ : Pixel) = s.prev → exec (.rgba r g b a) s = .fault .neverEmitted) ∧
      (∀ n, 1 ≤ n → n ≤ 62 → ¬ (s.run.toNat = n ∧ (n = 62 ∨ s.pixCount.toNat = s.total)) →
        exec (.run n) s = .fault .neverEmitted)) ∧
    (∀ i : Instr, i.isCommand = false →
      (s.fsm = .idle → exec i s = .fault .noSession) ∧ (s.fsm = .error → exec i s = .next s))

/-- R190, R191, R197 without the cutting functions of Safety.lean.
That a stream row runs by itself is the model's choice (notes/assumptions/1.md, notes/assumptions/19.md). -/
def Obligations.EmittedStreamIsCutIntoBlocks : Prop :=
  ∀ (s : State) (i : Instr), i.isCommand = false → i.WellFormed → mayEmit i s = true → s.fsm = .encoding →
    s.outbuf.length < s.bufCap → accepts s (blocksDue s (unitBytes i)) →
    ∃ (t : State) (blocks : List (List Byte)), exec i s = .next t ∧ t.sinkLog = s.sinkLog ++ blocks.map .block ∧
      (∀ b ∈ blocks, b.length = s.bufCap) ∧ t.outbuf.length < s.bufCap ∧
      blocks.flatten ++ t.outbuf = s.outbuf ++ unitBytes i

/-- R193, R213. That a stream row runs by itself, and that the row RUN leaves RUN uncleared after a failed block, is the model's choice
(notes/assumptions/1.md, notes/assumptions/19.md). -/
def Obligations.UnitBlockFailureIsSink : Prop :=
  ∀ (s : State) (i : Instr) (k : Nat) (code : U32), i.isCommand = false → i.WellFormed → mayEmit i s = true →
    s.fsm = .encoding → s.outbuf.length < s.bufCap → k < blocksDue s (unitBytes i) → accepts s k → answerAt s k = .fail code →
    exec i s =
      .next
        { s with
          outbuf := [], fsm := .error, errCode := .sink, errInfo := code.setWidth 64
          sinkLog := s.sinkLog ++ ((fullBlocks s.bufCap (s.outbuf ++ unitBytes i)).take (k + 1)).map .block
          sinkIn := s.sinkIn.drop (k + 1), sinkWrites := s.sinkWrites + (k + 1) }

/-- R192: QOIENC holds until the sink answers and makes no other progress. That a stream row runs by itself (notes/assumptions/1.md,
notes/assumptions/19.md), and that the step ends held with the block on the port and still in OUTBUF (notes/assumptions/4.md,
notes/assumptions/14.md), are the model's choices. -/
def Obligations.UnitHeldOnUnansweredBlock : Prop :=
  ∀ (s : State) (i : Instr) (k : Nat), i.isCommand = false → i.WellFormed → mayEmit i s = true →
    s.fsm = .encoding → s.outbuf.length < s.bufCap → k < blocksDue s (unitBytes i) → accepts s k → answerAt s k = .hold →
    exec i s =
      .next
        { s with
          held := true
          outbuf := ((s.outbuf ++ unitBytes i).drop (k * s.bufCap)).take s.bufCap
          sinkLog := s.sinkLog ++ ((fullBlocks s.bufCap (s.outbuf ++ unitBytes i)).take (k + 1)).map .block
          sinkIn := s.sinkIn.drop (k + 1), sinkWrites := s.sinkWrites + (k + 1) }

/-- R192 for all twelve rows: QOIENC holds until the sink answers and makes no other progress meanwhile; no state is
lost (R227). That such an instruction answers a held next state, the block logged and still in OUTBUF, is the model's choice
(notes/assumptions/14.md; notes/assumptions/1.md for the stream rows). -/
def Obligations.HeldCommandWaitsAtItsBlock : Prop :=
  ∀ (s t : State) (i : Instr), s.Inv → s.held = false → exec i s = .next t → t.held = true →
    t.fsm = .encoding ∧ t.errCode = .none ∧ 1 ≤ t.outbuf.length ∧ t.outbuf.length ≤ s.bufCap ∧
      ∃ before, t.sinkLog = s.sinkLog ++ before ++ [.block t.outbuf]

/-- R213, R216: SINK during a PIXEL. -/
def Obligations.PixelBlockFailureIsSink : Prop :=
  ∀ (s : State) (ign : BitVec 48) (r g b a : Byte) (k : Nat) (code : U32), s.fsm = .encoding →
    s.pixCount.toNat ≠ s.total → s.run.toNat ≤ 61 → s.outbuf.length < s.bufCap →
    let d := decisionTable s.cfgChannels (pixelOf s.cfgChannels r g b a) s.prev s.run.toNat s.icache
    let bytes := streamBytes d.chunks
    k < blocksDue s bytes → accepts s k → answerAt s k = .fail code →
    ∃ t, exec (.pixel ign r g b a) s = .next t ∧ t.fsm = .error ∧ t.errCode = .sink ∧
      t.errInfo = code.setWidth 64 ∧ t.errSup = s.errSup ∧ t.outbuf = [] ∧ t.held = s.held ∧
      t.pixCount = s.pixCount + 1 ∧ t.cfgWidth = s.cfgWidth ∧ t.cfgHeight = s.cfgHeight ∧
      t.cfgChannels = s.cfgChannels ∧ t.cfgColorspace = s.cfgColorspace ∧
      t.sinkLog = s.sinkLog ++ ((fullBlocks s.bufCap (s.outbuf ++ bytes)).take (k + 1)).map .block

/-- R120: SINK if a block flush caused by the header fails, which needs BUF_CAP ≤ 14. -/
def Obligations.StartBlockFailureIsSink : Prop :=
  ∀ (s : State) (w h : U32) (ch cs : Byte) (k : Nat) (code : U32), s.fsm = .idle → headerLegal w h ch cs →
    1 ≤ s.bufCap → s.outbuf = [] → k < 14 / s.bufCap → accepts s k → answerAt s k = .fail code →
    exec (.start w h ch cs) s =
      .next
        { s with
          cfgWidth := w, cfgHeight := h, cfgChannels := ch, cfgColorspace := cs
          prev := ⟨0, 0, 0, 255⟩, run := 0, icache := Vector.replicate 64 ⟨0, 0, 0, 0⟩, pixCount := 0
          outbuf := [], fsm := .error, errCode := .sink, errInfo := code.setWidth 64
          sinkLog := s.sinkLog ++
            ((fullBlocks s.bufCap (unitBytes (.header w h ch cs))).take (k + 1)).map .block
          sinkIn := s.sinkIn.drop (k + 1), sinkWrites := s.sinkWrites + (k + 1) }

/-- The whole-machine bounds of R21 to R32, R43, R106 and R156, over every transaction and every sink answer. -/
def Obligations.StepKeepsInvariant : Prop :=
  ∀ s t : State, s.Inv → step s = .next t → t.Inv

/-- R41. -/
def Obligations.ResetStateMeetsInvariant : Prop :=
  State.reset.Inv ∧ ∀ cap : Nat, 1 ≤ cap → (State.resetWith cap).Inv

/-- R12, and R179: SEL never calls a packer out of range. A command held on the sink is not complete (R248): that its step answers a
held next state is the model's choice (notes/assumptions/14.md). -/
def Obligations.StepAnswersANextState : Prop :=
  ∀ s : State, s.Inv → s.held = false → s.packIn = [] → ∃ t, step s = .next t

/-- R218 with R219: no second error. -/
def Obligations.ErrorIsLeftOnlyByReset : Prop :=
  ∀ s t : State, s.fsm = .error → step s = .next t →
    (∃ rest, s.port = .reset :: rest ∧ t.fsm = .idle) ∨
    (t.fsm = .error ∧ t.errCode = s.errCode ∧ t.errInfo = s.errInfo ∧ t.errSup = s.errSup ∧
      t.pixCount = s.pixCount ∧ t.outbuf = s.outbuf ∧ t.sinkLog = s.sinkLog)

/-- R21's transitions, reset apart (StepResets). -/
def Obligations.FsmMovesOnlyAsListed : Prop :=
  ∀ (s t : State) (i : Instr), s.Inv → exec i s = .next t →
    (s.fsm = .idle → t.fsm = .encoding →
      ∃ w h ch cs, i = .start w h ch cs ∧ headerLegal w h ch cs) ∧
    (s.fsm = .encoding → t.fsm = .idle → (∃ ign, i = .close ign) ∧ s.pixCount.toNat = s.total) ∧
    (s.fsm = .error → t.fsm = .error) ∧
    (s.fsm ≠ .error → t.fsm = .error → t.errCode ≠ .none)

/-- R196, R198: errors raised in IDLE happen with no session open and cause no sink transaction. -/
def Obligations.SinkIsSilentOutsideASession : Prop :=
  ∀ (s t : State) (i : Instr), s.fsm ≠ .encoding → exec i s = .next t →
    (∃ w h ch cs, i = .start w h ch cs ∧ headerLegal w h ch cs ∧ s.fsm = .idle) ∨
    (t.sinkLog = s.sinkLog ∧ t.sinkIn = s.sinkIn ∧ t.sinkWrites = s.sinkWrites)

/-- R60, R66. -/
def Obligations.SinkEventsAreAppendedInBlocks : Prop :=
  ∀ s t : State, s.Inv → step s = .next t →
    ∃ new, t.sinkLog = s.sinkLog ++ new ∧ ∀ bytes, .block bytes ∈ new → 1 ≤ bytes.length ∧ bytes.length ≤ s.bufCap

/-- R22 to R25: no command but START, and an illegal value is never stored. -/
def Obligations.OnlyStartWritesConfiguration : Prop :=
  ∀ (s t : State) (i : Instr), exec i s = .next t →
    t.bufCap = s.bufCap ∧
    (∀ w h ch cs, i = .start w h ch cs → headerLegal w h ch cs → s.fsm = .idle →
      t.cfgWidth = w ∧ t.cfgHeight = h ∧ t.cfgChannels = ch ∧ t.cfgColorspace = cs) ∧
    ((¬ ∃ w h ch cs, i = .start w h ch cs ∧ headerLegal w h ch cs ∧ s.fsm = .idle) →
      t.cfgWidth = s.cfgWidth ∧ t.cfgHeight = s.cfgHeight ∧ t.cfgChannels = s.cfgChannels ∧
        t.cfgColorspace = s.cfgColorspace)

/-- R29, R36. -/
def Obligations.PixCountAdvancesByOnePerPixel : Prop :=
  ∀ (s t : State) (i : Instr), s.Inv → exec i s = .next t →
    (∀ w h ch cs, i = .start w h ch cs → headerLegal w h ch cs → s.fsm = .idle → t.pixCount = 0) ∧
    (∀ ign r g b a, i = .pixel ign r g b a → s.fsm = .encoding → s.pixCount.toNat ≠ s.total →
      t.pixCount.toNat = s.pixCount.toNat + 1 ∧ t.pixCount.toNat ≤ s.total) ∧
    ((¬ ∃ w h ch cs, i = .start w h ch cs ∧ headerLegal w h ch cs ∧ s.fsm = .idle) →
      (¬ ∃ ign r g b a, i = .pixel ign r g b a ∧ s.fsm = .encoding ∧ s.pixCount.toNat ≠ s.total) →
      t.pixCount = s.pixCount)

/-- R52, R53: no other command touches ICACHE except START. After a SINK error in a PIXEL the cache holds any value (R216, I12), the
free value of notes/assumptions/11.md. -/
def Obligations.OnlyPixelWritesOneSlot : Prop :=
  ∀ (s t : State) (i : Instr), (∀ w h ch cs, i ≠ .start w h ch cs) → exec i s = .next t →
    t.icache = s.icache ∨
    ∃ ign r g b a, i = .pixel ign r g b a ∧ s.fsm = .encoding ∧
      ((t.fsm = .error ∧ t.errCode = .sink) ∨
        t.icache = s.icache.set (pixelHash (pixelOf s.cfgChannels r g b a)).toNat (pixelOf s.cfgChannels r g b a)
          (pixelHash (pixelOf s.cfgChannels r g b a)).isLt)

/-- R42: no rule reads an unspecified register before a successful START wrote it; so no claim rests on notes/assumptions/2.md. -/
def Obligations.UnspecifiedRegistersAreNeverRead : Prop :=
  ∀ (s t : State) (i : Instr), i.isCommand = true → s.fsm ≠ .encoding →
    t = { s with
      cfgWidth := t.cfgWidth, cfgHeight := t.cfgHeight, cfgChannels := t.cfgChannels, cfgColorspace := t.cfgColorspace
      prev := t.prev, run := t.run, icache := t.icache } →
    ∃ s' t', exec i s = .next s' ∧ exec i t = .next t' ∧ s'.observe = t'.observe ∧ s'.fsm = t'.fsm ∧
      s'.outbuf = t'.outbuf ∧ s'.held = t'.held ∧ s'.errSup = t'.errSup ∧ (s'.fsm = .encoding → s' = t')

/-- R87, R88, R100, I5. -/
def Obligations.IgnoredBitsHaveNoEffect : Prop :=
  ∀ (s : State) (v w : CommandWord),
    (v.extractLsb' 80 2 = 0b10#2 → w.extractLsb' 80 2 = 0b10#2 →
      (v.extractLsb' 0 32 = w.extractLsb' 0 32 ∨
        (s.cfgChannels = 3#8 ∧ v.extractLsb' 8 24 = w.extractLsb' 8 24)) →
      exec (decodeCommand v) s = exec (decodeCommand w) s) ∧
    (v.extractLsb' 80 2 = 0b11#2 → w.extractLsb' 80 2 = 0b11#2 →
      exec (decodeCommand v) s = exec (decodeCommand w) s) ∧
    (v.extractLsb' 80 2 = 0b00#2 → w.extractLsb' 80 2 = 0b00#2 →
      exec (decodeCommand v) s = exec (decodeCommand w) s)

/-- The table of R33 with the codes of R21 and R31, and the two level outputs of R34. -/
def Obligations.StatusWordLayout : Prop :=
  ∀ s : State,
    s.status.extractLsb' 0 2 = (match s.fsm with | .idle => 0 | .encoding => 1 | .error => 2) ∧
    s.status.extractLsb' 2 1 = (if s.errSup then 1 else 0) ∧
    s.status.extractLsb' 3 5 = 0 ∧
    s.status.extractLsb' 8 8 =
      (match s.errCode with | .none => 0 | .malformed => 1 | .bounds => 2 | .sink => 3 | .protocol => 4) ∧
    s.status.extractLsb' 16 16 = 0 ∧
    (s.idleOut = true ↔ s.fsm = .idle) ∧ (s.errorOut = true ↔ s.fsm = .error)

/-- R102. -/
def Obligations.HashIsTheWeightedSumModulo64 : Prop :=
  (∀ px : Pixel,
    (pixelHash px).toNat = (px.r.toNat * 3 + px.g.toNat * 5 + px.b.toNat * 7 + px.a.toNat * 11) % 64) ∧
  pixelHash ⟨0, 0, 0, 0⟩ = 0 ∧ pixelHash ⟨0, 0, 0, 255⟩ = 53 ∧ pixelHash ⟨255, 255, 255, 255⟩ = 38 ∧ pixelHash ⟨10, 10, 10, 255⟩ = 11

/-- R103. -/
def Obligations.HashNeedsOnlySixBits : Prop :=
  ∀ px : Pixel,
    pixelHash px = 3 * px.r.setWidth 6 + 5 * px.g.setWidth 6 + 7 * px.b.setWidth 6 + 11 * px.a.setWidth 6 ∧
    ∀ n : Nat, 6 ≤ n →
      pixelHash px =
        (3 * px.r.setWidth n + 5 * px.g.setWidth n + 7 * px.b.setWidth n + 11 * px.a.setWidth n : BitVec n).setWidth 6

/-- R100. -/
def Obligations.PixelOfForcesAlphaInThreeChannels : Prop :=
  ∀ ch r g b a : Byte,
    (ch = 3#8 → pixelOf ch r g b a = ⟨r, g, b, 255⟩) ∧ (ch ≠ 3#8 → pixelOf ch r g b a = ⟨r, g, b, a⟩)

/-- R147, R9. -/
def Obligations.DeltaIsTheWrappedDifference : Prop :=
  (∀ cur prev : Byte,
    -128 ≤ delta cur prev ∧ delta cur prev ≤ 127 ∧ ((cur.toNat : Int) - prev.toNat - delta cur prev) % 256 = 0) ∧
  delta 0 255 = 1 ∧ delta 255 0 = -1 ∧ delta 128 0 = -128 ∧ delta 0 128 = -128 ∧ delta 128 1 = 127

/-- R149, D18. -/
def Obligations.LumaTestIsWidthIndependent : Prop :=
  ∀ cr pr cg pg : Byte,
    let dr := delta cr pr
    let dg := delta cg pg
    let wrapped := (BitVec.ofInt 8 (dr - dg)).toInt
    inLumaG dg → (inLumaRB (dr - dg) ↔ inLumaRB wrapped) ∧ (inLumaRB (dr - dg) → dr - dg = wrapped)

/-- R106. -/
def Obligations.ThreeChannelHashHasConstantAlphaTerm : Prop :=
  ∀ r g b a : Byte,
    (pixelHash (pixelOf 3 r g b a)).toNat = (3 * r.toNat + 5 * g.toNat + 7 * b.toNat + 53) % 64

/-- R131 with R58 and R197, for every value of the ignored bits (R87, R88). -/
def Obligations.WholeEncodeDeliversTheStream : Prop :=
  ∀ (s : State) (w h : U32) (ch cs : Byte) (pixels : List (BitVec 48 × Byte × Byte × Byte × Byte)) (ign : BitVec 80)
    (rest : List PortEvent),
    s.Inv → s.fsm = .idle → s.packIn = [] → headerLegal w h ch cs → pixels.length = w.toNat * h.toNat →
    s.port = commandWords (encodeCommands w h ch cs pixels ign) ++ rest →
    let bytes := imageBytes w h ch cs (pixels.map Prod.snd)
    accepts s ((bytes.length + s.bufCap - 1) / s.bufCap) →
    ∃ (t : State) (blocks : List (List Byte)),
      steps (pixels.length + 2) s = .next t ∧
      t.fsm = .idle ∧ t.status = 0 ∧ t.errInfo = 0 ∧ t.pixCount.toNat = pixels.length ∧ t.outbuf = [] ∧ t.port = rest ∧
      t.sinkLog = s.sinkLog ++ blocks.map .block ++ [.close] ∧
      blocks.flatten = bytes ∧
      (∀ b ∈ blocks.dropLast, b.length = s.bufCap) ∧ (∀ b ∈ blocks, 1 ≤ b.length ∧ b.length ≤ s.bufCap)

/-- R132: block boundaries can differ only if BUF_CAP differs. The ignored bits are of any value (R87, R88). -/
def Obligations.EncodesAreIdempotent : Prop :=
  ∀ (s₁ s₂ : State) (w h : U32) (ch cs : Byte) (pixels₁ pixels₂ : List (BitVec 48 × Byte × Byte × Byte × Byte))
    (ign₁ ign₂ : BitVec 80),
    s₁.Inv → s₂.Inv → s₁.fsm = .idle → s₂.fsm = .idle → s₁.packIn = [] → s₂.packIn = [] →
    headerLegal w h ch cs → pixels₁.length = w.toNat * h.toNat →
    (pixels₁.map fun (_, r, g, b, a) => pixelOf ch r g b a) = (pixels₂.map fun (_, r, g, b, a) => pixelOf ch r g b a) →
    s₁.port = commandWords (encodeCommands w h ch cs pixels₁ ign₁) →
    s₂.port = commandWords (encodeCommands w h ch cs pixels₂ ign₂) →
    accepts s₁ (((imageBytes w h ch cs (pixels₁.map Prod.snd)).length + s₁.bufCap - 1) / s₁.bufCap) →
    accepts s₂ (((imageBytes w h ch cs (pixels₂.map Prod.snd)).length + s₂.bufCap - 1) / s₂.bufCap) →
    ∃ (t₁ t₂ : State) (new₁ new₂ : List SinkEvent),
      steps (pixels₁.length + 2) s₁ = .next t₁ ∧ steps (pixels₂.length + 2) s₂ = .next t₂ ∧
      t₁.sinkLog = s₁.sinkLog ++ new₁ ++ [.close] ∧ t₂.sinkLog = s₂.sinkLog ++ new₂ ++ [.close] ∧
      deliveredBytes new₁ = deliveredBytes new₂ ∧ (s₁.bufCap = s₂.bufCap → new₁ = new₂)
end

