-- ==== Sys2Proof/Laws/State.lean ====
section
/-!
SUPPORT. One lemma per field and per named state update, true by rfl, so that no proof unfolds a record update.
-/

namespace Sys2Proof.Machine

/-! ### setRun -/

@[simp] theorem State.setRun_fsm (s : State) (n : BitVec 6) : (s.setRun n).fsm = s.fsm := rfl
@[simp] theorem State.setRun_cfgWidth (s : State) (n : BitVec 6) : (s.setRun n).cfgWidth = s.cfgWidth := rfl
@[simp] theorem State.setRun_cfgHeight (s : State) (n : BitVec 6) : (s.setRun n).cfgHeight = s.cfgHeight := rfl
@[simp] theorem State.setRun_cfgChannels (s : State) (n : BitVec 6) : (s.setRun n).cfgChannels = s.cfgChannels := rfl
@[simp] theorem State.setRun_cfgColorspace (s : State) (n : BitVec 6) : (s.setRun n).cfgColorspace = s.cfgColorspace := rfl
@[simp] theorem State.setRun_prev (s : State) (n : BitVec 6) : (s.setRun n).prev = s.prev := rfl
@[simp] theorem State.setRun_run (s : State) (n : BitVec 6) : (s.setRun n).run = n := rfl
@[simp] theorem State.setRun_icache (s : State) (n : BitVec 6) : (s.setRun n).icache = s.icache := rfl
@[simp] theorem State.setRun_pixCount (s : State) (n : BitVec 6) : (s.setRun n).pixCount = s.pixCount := rfl
@[simp] theorem State.setRun_outbuf (s : State) (n : BitVec 6) : (s.setRun n).outbuf = s.outbuf := rfl
@[simp] theorem State.setRun_errCode (s : State) (n : BitVec 6) : (s.setRun n).errCode = s.errCode := rfl
@[simp] theorem State.setRun_errInfo (s : State) (n : BitVec 6) : (s.setRun n).errInfo = s.errInfo := rfl
@[simp] theorem State.setRun_errSup (s : State) (n : BitVec 6) : (s.setRun n).errSup = s.errSup := rfl
@[simp] theorem State.setRun_held (s : State) (n : BitVec 6) : (s.setRun n).held = s.held := rfl
@[simp] theorem State.setRun_bufCap (s : State) (n : BitVec 6) : (s.setRun n).bufCap = s.bufCap := rfl
@[simp] theorem State.setRun_port (s : State) (n : BitVec 6) : (s.setRun n).port = s.port := rfl
@[simp] theorem State.setRun_packIn (s : State) (n : BitVec 6) : (s.setRun n).packIn = s.packIn := rfl
@[simp] theorem State.setRun_sinkIn (s : State) (n : BitVec 6) : (s.setRun n).sinkIn = s.sinkIn := rfl
@[simp] theorem State.setRun_sinkWrites (s : State) (n : BitVec 6) : (s.setRun n).sinkWrites = s.sinkWrites := rfl
@[simp] theorem State.setRun_sinkLog (s : State) (n : BitVec 6) : (s.setRun n).sinkLog = s.sinkLog := rfl

/-! ### setPrev -/

@[simp] theorem State.setPrev_fsm (s : State) (px : Pixel) : (s.setPrev px).fsm = s.fsm := rfl
@[simp] theorem State.setPrev_cfgWidth (s : State) (px : Pixel) : (s.setPrev px).cfgWidth = s.cfgWidth := rfl
@[simp] theorem State.setPrev_cfgHeight (s : State) (px : Pixel) : (s.setPrev px).cfgHeight = s.cfgHeight := rfl
@[simp] theorem State.setPrev_cfgChannels (s : State) (px : Pixel) : (s.setPrev px).cfgChannels = s.cfgChannels := rfl
@[simp] theorem State.setPrev_cfgColorspace (s : State) (px : Pixel) : (s.setPrev px).cfgColorspace = s.cfgColorspace := rfl
@[simp] theorem State.setPrev_prev (s : State) (px : Pixel) : (s.setPrev px).prev = px := rfl
@[simp] theorem State.setPrev_run (s : State) (px : Pixel) : (s.setPrev px).run = s.run := rfl
@[simp] theorem State.setPrev_icache (s : State) (px : Pixel) : (s.setPrev px).icache = s.icache := rfl
@[simp] theorem State.setPrev_pixCount (s : State) (px : Pixel) : (s.setPrev px).pixCount = s.pixCount := rfl
@[simp] theorem State.setPrev_outbuf (s : State) (px : Pixel) : (s.setPrev px).outbuf = s.outbuf := rfl
@[simp] theorem State.setPrev_errCode (s : State) (px : Pixel) : (s.setPrev px).errCode = s.errCode := rfl
@[simp] theorem State.setPrev_errInfo (s : State) (px : Pixel) : (s.setPrev px).errInfo = s.errInfo := rfl
@[simp] theorem State.setPrev_errSup (s : State) (px : Pixel) : (s.setPrev px).errSup = s.errSup := rfl
@[simp] theorem State.setPrev_held (s : State) (px : Pixel) : (s.setPrev px).held = s.held := rfl
@[simp] theorem State.setPrev_bufCap (s : State) (px : Pixel) : (s.setPrev px).bufCap = s.bufCap := rfl
@[simp] theorem State.setPrev_port (s : State) (px : Pixel) : (s.setPrev px).port = s.port := rfl
@[simp] theorem State.setPrev_packIn (s : State) (px : Pixel) : (s.setPrev px).packIn = s.packIn := rfl
@[simp] theorem State.setPrev_sinkIn (s : State) (px : Pixel) : (s.setPrev px).sinkIn = s.sinkIn := rfl
@[simp] theorem State.setPrev_sinkWrites (s : State) (px : Pixel) : (s.setPrev px).sinkWrites = s.sinkWrites := rfl
@[simp] theorem State.setPrev_sinkLog (s : State) (px : Pixel) : (s.setPrev px).sinkLog = s.sinkLog := rfl

/-! ### countPixel -/

@[simp] theorem State.countPixel_fsm (s : State) : (s.countPixel).fsm = s.fsm := rfl
@[simp] theorem State.countPixel_cfgWidth (s : State) : (s.countPixel).cfgWidth = s.cfgWidth := rfl
@[simp] theorem State.countPixel_cfgHeight (s : State) : (s.countPixel).cfgHeight = s.cfgHeight := rfl
@[simp] theorem State.countPixel_cfgChannels (s : State) : (s.countPixel).cfgChannels = s.cfgChannels := rfl
@[simp] theorem State.countPixel_cfgColorspace (s : State) : (s.countPixel).cfgColorspace = s.cfgColorspace := rfl
@[simp] theorem State.countPixel_prev (s : State) : (s.countPixel).prev = s.prev := rfl
@[simp] theorem State.countPixel_run (s : State) : (s.countPixel).run = s.run := rfl
@[simp] theorem State.countPixel_icache (s : State) : (s.countPixel).icache = s.icache := rfl
@[simp] theorem State.countPixel_pixCount (s : State) : (s.countPixel).pixCount = s.pixCount + 1 := rfl
@[simp] theorem State.countPixel_outbuf (s : State) : (s.countPixel).outbuf = s.outbuf := rfl
@[simp] theorem State.countPixel_errCode (s : State) : (s.countPixel).errCode = s.errCode := rfl
@[simp] theorem State.countPixel_errInfo (s : State) : (s.countPixel).errInfo = s.errInfo := rfl
@[simp] theorem State.countPixel_errSup (s : State) : (s.countPixel).errSup = s.errSup := rfl
@[simp] theorem State.countPixel_held (s : State) : (s.countPixel).held = s.held := rfl
@[simp] theorem State.countPixel_bufCap (s : State) : (s.countPixel).bufCap = s.bufCap := rfl
@[simp] theorem State.countPixel_port (s : State) : (s.countPixel).port = s.port := rfl
@[simp] theorem State.countPixel_packIn (s : State) : (s.countPixel).packIn = s.packIn := rfl
@[simp] theorem State.countPixel_sinkIn (s : State) : (s.countPixel).sinkIn = s.sinkIn := rfl
@[simp] theorem State.countPixel_sinkWrites (s : State) : (s.countPixel).sinkWrites = s.sinkWrites := rfl
@[simp] theorem State.countPixel_sinkLog (s : State) : (s.countPixel).sinkLog = s.sinkLog := rfl

/-! ### setFsm -/

@[simp] theorem State.setFsm_fsm (s : State) (f : Fsm) : (s.setFsm f).fsm = f := rfl
@[simp] theorem State.setFsm_cfgWidth (s : State) (f : Fsm) : (s.setFsm f).cfgWidth = s.cfgWidth := rfl
@[simp] theorem State.setFsm_cfgHeight (s : State) (f : Fsm) : (s.setFsm f).cfgHeight = s.cfgHeight := rfl
@[simp] theorem State.setFsm_cfgChannels (s : State) (f : Fsm) : (s.setFsm f).cfgChannels = s.cfgChannels := rfl
@[simp] theorem State.setFsm_cfgColorspace (s : State) (f : Fsm) : (s.setFsm f).cfgColorspace = s.cfgColorspace := rfl
@[simp] theorem State.setFsm_prev (s : State) (f : Fsm) : (s.setFsm f).prev = s.prev := rfl
@[simp] theorem State.setFsm_run (s : State) (f : Fsm) : (s.setFsm f).run = s.run := rfl
@[simp] theorem State.setFsm_icache (s : State) (f : Fsm) : (s.setFsm f).icache = s.icache := rfl
@[simp] theorem State.setFsm_pixCount (s : State) (f : Fsm) : (s.setFsm f).pixCount = s.pixCount := rfl
@[simp] theorem State.setFsm_outbuf (s : State) (f : Fsm) : (s.setFsm f).outbuf = s.outbuf := rfl
@[simp] theorem State.setFsm_errCode (s : State) (f : Fsm) : (s.setFsm f).errCode = s.errCode := rfl
@[simp] theorem State.setFsm_errInfo (s : State) (f : Fsm) : (s.setFsm f).errInfo = s.errInfo := rfl
@[simp] theorem State.setFsm_errSup (s : State) (f : Fsm) : (s.setFsm f).errSup = s.errSup := rfl
@[simp] theorem State.setFsm_held (s : State) (f : Fsm) : (s.setFsm f).held = s.held := rfl
@[simp] theorem State.setFsm_bufCap (s : State) (f : Fsm) : (s.setFsm f).bufCap = s.bufCap := rfl
@[simp] theorem State.setFsm_port (s : State) (f : Fsm) : (s.setFsm f).port = s.port := rfl
@[simp] theorem State.setFsm_packIn (s : State) (f : Fsm) : (s.setFsm f).packIn = s.packIn := rfl
@[simp] theorem State.setFsm_sinkIn (s : State) (f : Fsm) : (s.setFsm f).sinkIn = s.sinkIn := rfl
@[simp] theorem State.setFsm_sinkWrites (s : State) (f : Fsm) : (s.setFsm f).sinkWrites = s.sinkWrites := rfl
@[simp] theorem State.setFsm_sinkLog (s : State) (f : Fsm) : (s.setFsm f).sinkLog = s.sinkLog := rfl

/-! ### pushByte -/

@[simp] theorem State.pushByte_fsm (s : State) (b : Byte) : (s.pushByte b).fsm = s.fsm := rfl
@[simp] theorem State.pushByte_cfgWidth (s : State) (b : Byte) : (s.pushByte b).cfgWidth = s.cfgWidth := rfl
@[simp] theorem State.pushByte_cfgHeight (s : State) (b : Byte) : (s.pushByte b).cfgHeight = s.cfgHeight := rfl
@[simp] theorem State.pushByte_cfgChannels (s : State) (b : Byte) : (s.pushByte b).cfgChannels = s.cfgChannels := rfl
@[simp] theorem State.pushByte_cfgColorspace (s : State) (b : Byte) : (s.pushByte b).cfgColorspace = s.cfgColorspace := rfl
@[simp] theorem State.pushByte_prev (s : State) (b : Byte) : (s.pushByte b).prev = s.prev := rfl
@[simp] theorem State.pushByte_run (s : State) (b : Byte) : (s.pushByte b).run = s.run := rfl
@[simp] theorem State.pushByte_icache (s : State) (b : Byte) : (s.pushByte b).icache = s.icache := rfl
@[simp] theorem State.pushByte_pixCount (s : State) (b : Byte) : (s.pushByte b).pixCount = s.pixCount := rfl
@[simp] theorem State.pushByte_outbuf (s : State) (b : Byte) : (s.pushByte b).outbuf = s.outbuf ++ [b] := rfl
@[simp] theorem State.pushByte_errCode (s : State) (b : Byte) : (s.pushByte b).errCode = s.errCode := rfl
@[simp] theorem State.pushByte_errInfo (s : State) (b : Byte) : (s.pushByte b).errInfo = s.errInfo := rfl
@[simp] theorem State.pushByte_errSup (s : State) (b : Byte) : (s.pushByte b).errSup = s.errSup := rfl
@[simp] theorem State.pushByte_held (s : State) (b : Byte) : (s.pushByte b).held = s.held := rfl
@[simp] theorem State.pushByte_bufCap (s : State) (b : Byte) : (s.pushByte b).bufCap = s.bufCap := rfl
@[simp] theorem State.pushByte_port (s : State) (b : Byte) : (s.pushByte b).port = s.port := rfl
@[simp] theorem State.pushByte_packIn (s : State) (b : Byte) : (s.pushByte b).packIn = s.packIn := rfl
@[simp] theorem State.pushByte_sinkIn (s : State) (b : Byte) : (s.pushByte b).sinkIn = s.sinkIn := rfl
@[simp] theorem State.pushByte_sinkWrites (s : State) (b : Byte) : (s.pushByte b).sinkWrites = s.sinkWrites := rfl
@[simp] theorem State.pushByte_sinkLog (s : State) (b : Byte) : (s.pushByte b).sinkLog = s.sinkLog := rfl

/-! ### clearOut -/

@[simp] theorem State.clearOut_fsm (s : State) : (s.clearOut).fsm = s.fsm := rfl
@[simp] theorem State.clearOut_cfgWidth (s : State) : (s.clearOut).cfgWidth = s.cfgWidth := rfl
@[simp] theorem State.clearOut_cfgHeight (s : State) : (s.clearOut).cfgHeight = s.cfgHeight := rfl
@[simp] theorem State.clearOut_cfgChannels (s : State) : (s.clearOut).cfgChannels = s.cfgChannels := rfl
@[simp] theorem State.clearOut_cfgColorspace (s : State) : (s.clearOut).cfgColorspace = s.cfgColorspace := rfl
@[simp] theorem State.clearOut_prev (s : State) : (s.clearOut).prev = s.prev := rfl
@[simp] theorem State.clearOut_run (s : State) : (s.clearOut).run = s.run := rfl
@[simp] theorem State.clearOut_icache (s : State) : (s.clearOut).icache = s.icache := rfl
@[simp] theorem State.clearOut_pixCount (s : State) : (s.clearOut).pixCount = s.pixCount := rfl
@[simp] theorem State.clearOut_outbuf (s : State) : (s.clearOut).outbuf = [] := rfl
@[simp] theorem State.clearOut_errCode (s : State) : (s.clearOut).errCode = s.errCode := rfl
@[simp] theorem State.clearOut_errInfo (s : State) : (s.clearOut).errInfo = s.errInfo := rfl
@[simp] theorem State.clearOut_errSup (s : State) : (s.clearOut).errSup = s.errSup := rfl
@[simp] theorem State.clearOut_held (s : State) : (s.clearOut).held = s.held := rfl
@[simp] theorem State.clearOut_bufCap (s : State) : (s.clearOut).bufCap = s.bufCap := rfl
@[simp] theorem State.clearOut_port (s : State) : (s.clearOut).port = s.port := rfl
@[simp] theorem State.clearOut_packIn (s : State) : (s.clearOut).packIn = s.packIn := rfl
@[simp] theorem State.clearOut_sinkIn (s : State) : (s.clearOut).sinkIn = s.sinkIn := rfl
@[simp] theorem State.clearOut_sinkWrites (s : State) : (s.clearOut).sinkWrites = s.sinkWrites := rfl
@[simp] theorem State.clearOut_sinkLog (s : State) : (s.clearOut).sinkLog = s.sinkLog := rfl

/-! ### setSup -/

@[simp] theorem State.setSup_fsm (s : State) : (s.setSup).fsm = s.fsm := rfl
@[simp] theorem State.setSup_cfgWidth (s : State) : (s.setSup).cfgWidth = s.cfgWidth := rfl
@[simp] theorem State.setSup_cfgHeight (s : State) : (s.setSup).cfgHeight = s.cfgHeight := rfl
@[simp] theorem State.setSup_cfgChannels (s : State) : (s.setSup).cfgChannels = s.cfgChannels := rfl
@[simp] theorem State.setSup_cfgColorspace (s : State) : (s.setSup).cfgColorspace = s.cfgColorspace := rfl
@[simp] theorem State.setSup_prev (s : State) : (s.setSup).prev = s.prev := rfl
@[simp] theorem State.setSup_run (s : State) : (s.setSup).run = s.run := rfl
@[simp] theorem State.setSup_icache (s : State) : (s.setSup).icache = s.icache := rfl
@[simp] theorem State.setSup_pixCount (s : State) : (s.setSup).pixCount = s.pixCount := rfl
@[simp] theorem State.setSup_outbuf (s : State) : (s.setSup).outbuf = s.outbuf := rfl
@[simp] theorem State.setSup_errCode (s : State) : (s.setSup).errCode = s.errCode := rfl
@[simp] theorem State.setSup_errInfo (s : State) : (s.setSup).errInfo = s.errInfo := rfl
@[simp] theorem State.setSup_errSup (s : State) : (s.setSup).errSup = true := rfl
@[simp] theorem State.setSup_held (s : State) : (s.setSup).held = s.held := rfl
@[simp] theorem State.setSup_bufCap (s : State) : (s.setSup).bufCap = s.bufCap := rfl
@[simp] theorem State.setSup_port (s : State) : (s.setSup).port = s.port := rfl
@[simp] theorem State.setSup_packIn (s : State) : (s.setSup).packIn = s.packIn := rfl
@[simp] theorem State.setSup_sinkIn (s : State) : (s.setSup).sinkIn = s.sinkIn := rfl
@[simp] theorem State.setSup_sinkWrites (s : State) : (s.setSup).sinkWrites = s.sinkWrites := rfl
@[simp] theorem State.setSup_sinkLog (s : State) : (s.setSup).sinkLog = s.sinkLog := rfl

/-! ### hold -/

@[simp] theorem State.hold_fsm (s : State) : (s.hold).fsm = s.fsm := rfl
@[simp] theorem State.hold_cfgWidth (s : State) : (s.hold).cfgWidth = s.cfgWidth := rfl
@[simp] theorem State.hold_cfgHeight (s : State) : (s.hold).cfgHeight = s.cfgHeight := rfl
@[simp] theorem State.hold_cfgChannels (s : State) : (s.hold).cfgChannels = s.cfgChannels := rfl
@[simp] theorem State.hold_cfgColorspace (s : State) : (s.hold).cfgColorspace = s.cfgColorspace := rfl
@[simp] theorem State.hold_prev (s : State) : (s.hold).prev = s.prev := rfl
@[simp] theorem State.hold_run (s : State) : (s.hold).run = s.run := rfl
@[simp] theorem State.hold_icache (s : State) : (s.hold).icache = s.icache := rfl
@[simp] theorem State.hold_pixCount (s : State) : (s.hold).pixCount = s.pixCount := rfl
@[simp] theorem State.hold_outbuf (s : State) : (s.hold).outbuf = s.outbuf := rfl
@[simp] theorem State.hold_errCode (s : State) : (s.hold).errCode = s.errCode := rfl
@[simp] theorem State.hold_errInfo (s : State) : (s.hold).errInfo = s.errInfo := rfl
@[simp] theorem State.hold_errSup (s : State) : (s.hold).errSup = s.errSup := rfl
@[simp] theorem State.hold_held (s : State) : (s.hold).held = true := rfl
@[simp] theorem State.hold_bufCap (s : State) : (s.hold).bufCap = s.bufCap := rfl
@[simp] theorem State.hold_port (s : State) : (s.hold).port = s.port := rfl
@[simp] theorem State.hold_packIn (s : State) : (s.hold).packIn = s.packIn := rfl
@[simp] theorem State.hold_sinkIn (s : State) : (s.hold).sinkIn = s.sinkIn := rfl
@[simp] theorem State.hold_sinkWrites (s : State) : (s.hold).sinkWrites = s.sinkWrites := rfl
@[simp] theorem State.hold_sinkLog (s : State) : (s.hold).sinkLog = s.sinkLog := rfl

/-! ### enterError -/

@[simp] theorem State.enterError_fsm (s : State) (code : ErrorCode) (info : U64) : (s.enterError code info).fsm = .error := rfl
@[simp] theorem State.enterError_cfgWidth (s : State) (code : ErrorCode) (info : U64) : (s.enterError code info).cfgWidth = s.cfgWidth := rfl
@[simp] theorem State.enterError_cfgHeight (s : State) (code : ErrorCode) (info : U64) : (s.enterError code info).cfgHeight = s.cfgHeight := rfl
@[simp] theorem State.enterError_cfgChannels (s : State) (code : ErrorCode) (info : U64) : (s.enterError code info).cfgChannels = s.cfgChannels := rfl
@[simp] theorem State.enterError_cfgColorspace (s : State) (code : ErrorCode) (info : U64) : (s.enterError code info).cfgColorspace = s.cfgColorspace := rfl
@[simp] theorem State.enterError_prev (s : State) (code : ErrorCode) (info : U64) : (s.enterError code info).prev = s.prev := rfl
@[simp] theorem State.enterError_run (s : State) (code : ErrorCode) (info : U64) : (s.enterError code info).run = s.run := rfl
@[simp] theorem State.enterError_icache (s : State) (code : ErrorCode) (info : U64) : (s.enterError code info).icache = s.icache := rfl
@[simp] theorem State.enterError_pixCount (s : State) (code : ErrorCode) (info : U64) : (s.enterError code info).pixCount = s.pixCount := rfl
@[simp] theorem State.enterError_outbuf (s : State) (code : ErrorCode) (info : U64) : (s.enterError code info).outbuf = [] := rfl
@[simp] theorem State.enterError_errCode (s : State) (code : ErrorCode) (info : U64) : (s.enterError code info).errCode = code := rfl
@[simp] theorem State.enterError_errInfo (s : State) (code : ErrorCode) (info : U64) : (s.enterError code info).errInfo = info := rfl
@[simp] theorem State.enterError_errSup (s : State) (code : ErrorCode) (info : U64) : (s.enterError code info).errSup = s.errSup := rfl
@[simp] theorem State.enterError_held (s : State) (code : ErrorCode) (info : U64) : (s.enterError code info).held = s.held := rfl
@[simp] theorem State.enterError_bufCap (s : State) (code : ErrorCode) (info : U64) : (s.enterError code info).bufCap = s.bufCap := rfl
@[simp] theorem State.enterError_port (s : State) (code : ErrorCode) (info : U64) : (s.enterError code info).port = s.port := rfl
@[simp] theorem State.enterError_packIn (s : State) (code : ErrorCode) (info : U64) : (s.enterError code info).packIn = s.packIn := rfl
@[simp] theorem State.enterError_sinkIn (s : State) (code : ErrorCode) (info : U64) : (s.enterError code info).sinkIn = s.sinkIn := rfl
@[simp] theorem State.enterError_sinkWrites (s : State) (code : ErrorCode) (info : U64) : (s.enterError code info).sinkWrites = s.sinkWrites := rfl
@[simp] theorem State.enterError_sinkLog (s : State) (code : ErrorCode) (info : U64) : (s.enterError code info).sinkLog = s.sinkLog := rfl

/-! ### begin -/

@[simp] theorem State.begin_fsm (s : State) (w h : U32) (ch cs : Byte) : (s.begin w h ch cs).fsm = .encoding := rfl
@[simp] theorem State.begin_cfgWidth (s : State) (w h : U32) (ch cs : Byte) : (s.begin w h ch cs).cfgWidth = w := rfl
@[simp] theorem State.begin_cfgHeight (s : State) (w h : U32) (ch cs : Byte) : (s.begin w h ch cs).cfgHeight = h := rfl
@[simp] theorem State.begin_cfgChannels (s : State) (w h : U32) (ch cs : Byte) : (s.begin w h ch cs).cfgChannels = ch := rfl
@[simp] theorem State.begin_cfgColorspace (s : State) (w h : U32) (ch cs : Byte) : (s.begin w h ch cs).cfgColorspace = cs := rfl
@[simp] theorem State.begin_prev (s : State) (w h : U32) (ch cs : Byte) : (s.begin w h ch cs).prev = ⟨0, 0, 0, 255⟩ := rfl
@[simp] theorem State.begin_run (s : State) (w h : U32) (ch cs : Byte) : (s.begin w h ch cs).run = 0 := rfl
@[simp] theorem State.begin_icache (s : State) (w h : U32) (ch cs : Byte) : (s.begin w h ch cs).icache = Vector.replicate 64 ⟨0, 0, 0, 0⟩ := rfl
@[simp] theorem State.begin_pixCount (s : State) (w h : U32) (ch cs : Byte) : (s.begin w h ch cs).pixCount = 0 := rfl
@[simp] theorem State.begin_outbuf (s : State) (w h : U32) (ch cs : Byte) : (s.begin w h ch cs).outbuf = s.outbuf := rfl
@[simp] theorem State.begin_errCode (s : State) (w h : U32) (ch cs : Byte) : (s.begin w h ch cs).errCode = s.errCode := rfl
@[simp] theorem State.begin_errInfo (s : State) (w h : U32) (ch cs : Byte) : (s.begin w h ch cs).errInfo = s.errInfo := rfl
@[simp] theorem State.begin_errSup (s : State) (w h : U32) (ch cs : Byte) : (s.begin w h ch cs).errSup = s.errSup := rfl
@[simp] theorem State.begin_held (s : State) (w h : U32) (ch cs : Byte) : (s.begin w h ch cs).held = s.held := rfl
@[simp] theorem State.begin_bufCap (s : State) (w h : U32) (ch cs : Byte) : (s.begin w h ch cs).bufCap = s.bufCap := rfl
@[simp] theorem State.begin_port (s : State) (w h : U32) (ch cs : Byte) : (s.begin w h ch cs).port = s.port := rfl
@[simp] theorem State.begin_packIn (s : State) (w h : U32) (ch cs : Byte) : (s.begin w h ch cs).packIn = s.packIn := rfl
@[simp] theorem State.begin_sinkIn (s : State) (w h : U32) (ch cs : Byte) : (s.begin w h ch cs).sinkIn = s.sinkIn := rfl
@[simp] theorem State.begin_sinkWrites (s : State) (w h : U32) (ch cs : Byte) : (s.begin w h ch cs).sinkWrites = s.sinkWrites := rfl
@[simp] theorem State.begin_sinkLog (s : State) (w h : U32) (ch cs : Byte) : (s.begin w h ch cs).sinkLog = s.sinkLog := rfl

/-! ### logBlock -/

@[simp] theorem State.logBlock_fsm (s : State) (bytes : List Byte) : (s.logBlock bytes).fsm = s.fsm := rfl
@[simp] theorem State.logBlock_cfgWidth (s : State) (bytes : List Byte) : (s.logBlock bytes).cfgWidth = s.cfgWidth := rfl
@[simp] theorem State.logBlock_cfgHeight (s : State) (bytes : List Byte) : (s.logBlock bytes).cfgHeight = s.cfgHeight := rfl
@[simp] theorem State.logBlock_cfgChannels (s : State) (bytes : List Byte) : (s.logBlock bytes).cfgChannels = s.cfgChannels := rfl
@[simp] theorem State.logBlock_cfgColorspace (s : State) (bytes : List Byte) : (s.logBlock bytes).cfgColorspace = s.cfgColorspace := rfl
@[simp] theorem State.logBlock_prev (s : State) (bytes : List Byte) : (s.logBlock bytes).prev = s.prev := rfl
@[simp] theorem State.logBlock_run (s : State) (bytes : List Byte) : (s.logBlock bytes).run = s.run := rfl
@[simp] theorem State.logBlock_icache (s : State) (bytes : List Byte) : (s.logBlock bytes).icache = s.icache := rfl
@[simp] theorem State.logBlock_pixCount (s : State) (bytes : List Byte) : (s.logBlock bytes).pixCount = s.pixCount := rfl
@[simp] theorem State.logBlock_outbuf (s : State) (bytes : List Byte) : (s.logBlock bytes).outbuf = s.outbuf := rfl
@[simp] theorem State.logBlock_errCode (s : State) (bytes : List Byte) : (s.logBlock bytes).errCode = s.errCode := rfl
@[simp] theorem State.logBlock_errInfo (s : State) (bytes : List Byte) : (s.logBlock bytes).errInfo = s.errInfo := rfl
@[simp] theorem State.logBlock_errSup (s : State) (bytes : List Byte) : (s.logBlock bytes).errSup = s.errSup := rfl
@[simp] theorem State.logBlock_held (s : State) (bytes : List Byte) : (s.logBlock bytes).held = s.held := rfl
@[simp] theorem State.logBlock_bufCap (s : State) (bytes : List Byte) : (s.logBlock bytes).bufCap = s.bufCap := rfl
@[simp] theorem State.logBlock_port (s : State) (bytes : List Byte) : (s.logBlock bytes).port = s.port := rfl
@[simp] theorem State.logBlock_packIn (s : State) (bytes : List Byte) : (s.logBlock bytes).packIn = s.packIn := rfl
@[simp] theorem State.logBlock_sinkIn (s : State) (bytes : List Byte) : (s.logBlock bytes).sinkIn = s.sinkIn.tail := rfl
@[simp] theorem State.logBlock_sinkWrites (s : State) (bytes : List Byte) : (s.logBlock bytes).sinkWrites = s.sinkWrites + 1 := rfl
@[simp] theorem State.logBlock_sinkLog (s : State) (bytes : List Byte) : (s.logBlock bytes).sinkLog = s.sinkLog ++ [.block bytes] := rfl

/-! ### logClose -/

@[simp] theorem State.logClose_fsm (s : State) : (s.logClose).fsm = s.fsm := rfl
@[simp] theorem State.logClose_cfgWidth (s : State) : (s.logClose).cfgWidth = s.cfgWidth := rfl
@[simp] theorem State.logClose_cfgHeight (s : State) : (s.logClose).cfgHeight = s.cfgHeight := rfl
@[simp] theorem State.logClose_cfgChannels (s : State) : (s.logClose).cfgChannels = s.cfgChannels := rfl
@[simp] theorem State.logClose_cfgColorspace (s : State) : (s.logClose).cfgColorspace = s.cfgColorspace := rfl
@[simp] theorem State.logClose_prev (s : State) : (s.logClose).prev = s.prev := rfl
@[simp] theorem State.logClose_run (s : State) : (s.logClose).run = s.run := rfl
@[simp] theorem State.logClose_icache (s : State) : (s.logClose).icache = s.icache := rfl
@[simp] theorem State.logClose_pixCount (s : State) : (s.logClose).pixCount = s.pixCount := rfl
@[simp] theorem State.logClose_outbuf (s : State) : (s.logClose).outbuf = s.outbuf := rfl
@[simp] theorem State.logClose_errCode (s : State) : (s.logClose).errCode = s.errCode := rfl
@[simp] theorem State.logClose_errInfo (s : State) : (s.logClose).errInfo = s.errInfo := rfl
@[simp] theorem State.logClose_errSup (s : State) : (s.logClose).errSup = s.errSup := rfl
@[simp] theorem State.logClose_held (s : State) : (s.logClose).held = s.held := rfl
@[simp] theorem State.logClose_bufCap (s : State) : (s.logClose).bufCap = s.bufCap := rfl
@[simp] theorem State.logClose_port (s : State) : (s.logClose).port = s.port := rfl
@[simp] theorem State.logClose_packIn (s : State) : (s.logClose).packIn = s.packIn := rfl
@[simp] theorem State.logClose_sinkIn (s : State) : (s.logClose).sinkIn = s.sinkIn := rfl
@[simp] theorem State.logClose_sinkWrites (s : State) : (s.logClose).sinkWrites = s.sinkWrites := rfl
@[simp] theorem State.logClose_sinkLog (s : State) : (s.logClose).sinkLog = s.sinkLog ++ [.close] := rfl

/-! ### icacheWrite -/

@[simp] theorem icacheWrite_fsm (h : Slot) (px : Pixel) (s : State) : (icacheWrite h px s).fsm = s.fsm := rfl
@[simp] theorem icacheWrite_cfgWidth (h : Slot) (px : Pixel) (s : State) : (icacheWrite h px s).cfgWidth = s.cfgWidth := rfl
@[simp] theorem icacheWrite_cfgHeight (h : Slot) (px : Pixel) (s : State) : (icacheWrite h px s).cfgHeight = s.cfgHeight := rfl
@[simp] theorem icacheWrite_cfgChannels (h : Slot) (px : Pixel) (s : State) : (icacheWrite h px s).cfgChannels = s.cfgChannels := rfl
@[simp] theorem icacheWrite_cfgColorspace (h : Slot) (px : Pixel) (s : State) : (icacheWrite h px s).cfgColorspace = s.cfgColorspace := rfl
@[simp] theorem icacheWrite_prev (h : Slot) (px : Pixel) (s : State) : (icacheWrite h px s).prev = s.prev := rfl
@[simp] theorem icacheWrite_run (h : Slot) (px : Pixel) (s : State) : (icacheWrite h px s).run = s.run := rfl
@[simp] theorem icacheWrite_icache (h : Slot) (px : Pixel) (s : State) : (icacheWrite h px s).icache = s.icache.set h.toNat px h.isLt := rfl
@[simp] theorem icacheWrite_pixCount (h : Slot) (px : Pixel) (s : State) : (icacheWrite h px s).pixCount = s.pixCount := rfl
@[simp] theorem icacheWrite_outbuf (h : Slot) (px : Pixel) (s : State) : (icacheWrite h px s).outbuf = s.outbuf := rfl
@[simp] theorem icacheWrite_errCode (h : Slot) (px : Pixel) (s : State) : (icacheWrite h px s).errCode = s.errCode := rfl
@[simp] theorem icacheWrite_errInfo (h : Slot) (px : Pixel) (s : State) : (icacheWrite h px s).errInfo = s.errInfo := rfl
@[simp] theorem icacheWrite_errSup (h : Slot) (px : Pixel) (s : State) : (icacheWrite h px s).errSup = s.errSup := rfl
@[simp] theorem icacheWrite_held (h : Slot) (px : Pixel) (s : State) : (icacheWrite h px s).held = s.held := rfl
@[simp] theorem icacheWrite_bufCap (h : Slot) (px : Pixel) (s : State) : (icacheWrite h px s).bufCap = s.bufCap := rfl
@[simp] theorem icacheWrite_port (h : Slot) (px : Pixel) (s : State) : (icacheWrite h px s).port = s.port := rfl
@[simp] theorem icacheWrite_packIn (h : Slot) (px : Pixel) (s : State) : (icacheWrite h px s).packIn = s.packIn := rfl
@[simp] theorem icacheWrite_sinkIn (h : Slot) (px : Pixel) (s : State) : (icacheWrite h px s).sinkIn = s.sinkIn := rfl
@[simp] theorem icacheWrite_sinkWrites (h : Slot) (px : Pixel) (s : State) : (icacheWrite h px s).sinkWrites = s.sinkWrites := rfl
@[simp] theorem icacheWrite_sinkLog (h : Slot) (px : Pixel) (s : State) : (icacheWrite h px s).sinkLog = s.sinkLog := rfl

/-! ### forgetScan -/

@[simp] theorem State.forgetScan_fsm (s : State) : s.forgetScan.fsm = s.fsm := rfl
@[simp] theorem State.forgetScan_cfgWidth (s : State) : s.forgetScan.cfgWidth = s.cfgWidth := rfl
@[simp] theorem State.forgetScan_cfgHeight (s : State) : s.forgetScan.cfgHeight = s.cfgHeight := rfl
@[simp] theorem State.forgetScan_cfgChannels (s : State) : s.forgetScan.cfgChannels = s.cfgChannels := rfl
@[simp] theorem State.forgetScan_cfgColorspace (s : State) : s.forgetScan.cfgColorspace = s.cfgColorspace := rfl
@[simp] theorem State.forgetScan_prev (s : State) : s.forgetScan.prev = unpackPixel (Config.prevAfterSink s.sinkWrites) := rfl
@[simp] theorem State.forgetScan_run (s : State) : s.forgetScan.run = Config.runAfterSink s.sinkWrites := rfl
@[simp] theorem State.forgetScan_icache (s : State) : s.forgetScan.icache = (Vector.ofFn fun h => unpackPixel (Config.slotAfterSink s.sinkWrites (BitVec.ofFin h))) := rfl
@[simp] theorem State.forgetScan_pixCount (s : State) : s.forgetScan.pixCount = s.pixCount := rfl
@[simp] theorem State.forgetScan_outbuf (s : State) : s.forgetScan.outbuf = s.outbuf := rfl
@[simp] theorem State.forgetScan_errCode (s : State) : s.forgetScan.errCode = s.errCode := rfl
@[simp] theorem State.forgetScan_errInfo (s : State) : s.forgetScan.errInfo = s.errInfo := rfl
@[simp] theorem State.forgetScan_errSup (s : State) : s.forgetScan.errSup = s.errSup := rfl
@[simp] theorem State.forgetScan_held (s : State) : s.forgetScan.held = s.held := rfl
@[simp] theorem State.forgetScan_bufCap (s : State) : s.forgetScan.bufCap = s.bufCap := rfl
@[simp] theorem State.forgetScan_port (s : State) : s.forgetScan.port = s.port := rfl
@[simp] theorem State.forgetScan_packIn (s : State) : s.forgetScan.packIn = s.packIn := rfl
@[simp] theorem State.forgetScan_sinkIn (s : State) : s.forgetScan.sinkIn = s.sinkIn := rfl
@[simp] theorem State.forgetScan_sinkWrites (s : State) : s.forgetScan.sinkWrites = s.sinkWrites := rfl
@[simp] theorem State.forgetScan_sinkLog (s : State) : s.forgetScan.sinkLog = s.sinkLog := rfl

/-! ### afterReset -/

@[simp] theorem State.afterReset_fsm (s : State) : s.afterReset.fsm = .idle := rfl
@[simp] theorem State.afterReset_cfgWidth (s : State) : s.afterReset.cfgWidth = 0 := rfl
@[simp] theorem State.afterReset_cfgHeight (s : State) : s.afterReset.cfgHeight = 0 := rfl
@[simp] theorem State.afterReset_cfgChannels (s : State) : s.afterReset.cfgChannels = 0 := rfl
@[simp] theorem State.afterReset_cfgColorspace (s : State) : s.afterReset.cfgColorspace = 0 := rfl
@[simp] theorem State.afterReset_prev (s : State) : s.afterReset.prev = ⟨0, 0, 0, 0⟩ := rfl
@[simp] theorem State.afterReset_run (s : State) : s.afterReset.run = 0 := rfl
@[simp] theorem State.afterReset_icache (s : State) : s.afterReset.icache = Vector.replicate 64 ⟨0, 0, 0, 0⟩ := rfl
@[simp] theorem State.afterReset_pixCount (s : State) : s.afterReset.pixCount = 0 := rfl
@[simp] theorem State.afterReset_outbuf (s : State) : s.afterReset.outbuf = [] := rfl
@[simp] theorem State.afterReset_errCode (s : State) : s.afterReset.errCode = .none := rfl
@[simp] theorem State.afterReset_errInfo (s : State) : s.afterReset.errInfo = 0 := rfl
@[simp] theorem State.afterReset_errSup (s : State) : s.afterReset.errSup = false := rfl
@[simp] theorem State.afterReset_held (s : State) : s.afterReset.held = false := rfl
@[simp] theorem State.afterReset_bufCap (s : State) : s.afterReset.bufCap = s.bufCap := rfl
@[simp] theorem State.afterReset_port (s : State) : s.afterReset.port = s.port := rfl
@[simp] theorem State.afterReset_packIn (s : State) : s.afterReset.packIn = [] := rfl
@[simp] theorem State.afterReset_sinkIn (s : State) : s.afterReset.sinkIn = s.sinkIn := rfl
@[simp] theorem State.afterReset_sinkWrites (s : State) : s.afterReset.sinkWrites = s.sinkWrites := rfl
@[simp] theorem State.afterReset_sinkLog (s : State) : s.afterReset.sinkLog = s.sinkLog := rfl

/-! ### afterEmit -/

@[simp] theorem afterEmit_fsm (s : State) (bytes : List Byte) : (afterEmit s bytes).fsm = s.fsm := rfl
@[simp] theorem afterEmit_cfgWidth (s : State) (bytes : List Byte) : (afterEmit s bytes).cfgWidth = s.cfgWidth := rfl
@[simp] theorem afterEmit_cfgHeight (s : State) (bytes : List Byte) : (afterEmit s bytes).cfgHeight = s.cfgHeight := rfl
@[simp] theorem afterEmit_cfgChannels (s : State) (bytes : List Byte) : (afterEmit s bytes).cfgChannels = s.cfgChannels := rfl
@[simp] theorem afterEmit_cfgColorspace (s : State) (bytes : List Byte) : (afterEmit s bytes).cfgColorspace = s.cfgColorspace := rfl
@[simp] theorem afterEmit_prev (s : State) (bytes : List Byte) : (afterEmit s bytes).prev = s.prev := rfl
@[simp] theorem afterEmit_run (s : State) (bytes : List Byte) : (afterEmit s bytes).run = s.run := rfl
@[simp] theorem afterEmit_icache (s : State) (bytes : List Byte) : (afterEmit s bytes).icache = s.icache := rfl
@[simp] theorem afterEmit_pixCount (s : State) (bytes : List Byte) : (afterEmit s bytes).pixCount = s.pixCount := rfl
@[simp] theorem afterEmit_errCode (s : State) (bytes : List Byte) : (afterEmit s bytes).errCode = s.errCode := rfl
@[simp] theorem afterEmit_errInfo (s : State) (bytes : List Byte) : (afterEmit s bytes).errInfo = s.errInfo := rfl
@[simp] theorem afterEmit_errSup (s : State) (bytes : List Byte) : (afterEmit s bytes).errSup = s.errSup := rfl
@[simp] theorem afterEmit_held (s : State) (bytes : List Byte) : (afterEmit s bytes).held = s.held := rfl
@[simp] theorem afterEmit_bufCap (s : State) (bytes : List Byte) : (afterEmit s bytes).bufCap = s.bufCap := rfl
@[simp] theorem afterEmit_port (s : State) (bytes : List Byte) : (afterEmit s bytes).port = s.port := rfl
@[simp] theorem afterEmit_packIn (s : State) (bytes : List Byte) : (afterEmit s bytes).packIn = s.packIn := rfl

/-! ### ICacheRead after ICacheWrite (R51, R52) -/

theorem icacheRead_icacheWrite_same (h : Slot) (px : Pixel) (s : State) : icacheRead h (icacheWrite h px s) = px := by
  simp [icacheRead]

theorem icacheRead_icacheWrite_ne (h h' : Slot) (px : Pixel) (s : State) (hne : h ≠ h') :
    icacheRead h' (icacheWrite h px s) = icacheRead h' s := by
  have : h.toNat ≠ h'.toNat := fun e => hne (BitVec.eq_of_toNat_eq e)
  simp [icacheRead, Vector.getElem_set_ne _ _ this]

/-- PixelEq is equality (R101). -/
@[simp] theorem pixelEq_iff (p q : Pixel) : pixelEq p q = true ↔ p = q := by
  cases p; cases q; simp [pixelEq, and_assoc]

@[simp] theorem pixelEq_false_iff (p q : Pixel) : pixelEq p q = false ↔ p ≠ q := by
  rw [← Bool.not_eq_true, pixelEq_iff]

/-! ### Flow -/

@[simp] theorem Flow.bind_go (s : State) (f : State → Flow) : (Flow.go s).bind f = f s := rfl
@[simp] theorem Flow.bind_halt (s : State) (f : State → Flow) : (Flow.halt s).bind f = .halt s := rfl
@[simp] theorem Flow.bind_stop (e : Fault) (f : State → Flow) : (Flow.stop e).bind f = .stop e := rfl
@[simp] theorem Flow.forgetScanOnError_go (s : State) : (Flow.go s).forgetScanOnError = .go s := rfl
@[simp] theorem Flow.forgetScanOnError_stop (e : Fault) : (Flow.stop e).forgetScanOnError = .stop e := rfl
@[simp] theorem Flow.forgetScanOnError_halt (s : State) :
    (Flow.halt s).forgetScanOnError = .halt (if s.fsm = .error then s.forgetScan else s) := rfl
@[simp] theorem Flow.outcome_go (s : State) : (Flow.go s).outcome = .next s := rfl
@[simp] theorem Flow.outcome_halt (s : State) : (Flow.halt s).outcome = .next s := rfl
@[simp] theorem Flow.outcome_stop (e : Fault) : (Flow.stop e).outcome = .fault e := rfl

/-- A command answers a next state exactly when its statements went through or ended it early. -/
theorem Flow.outcome_next (x : Flow) (t : State) : x.outcome = .next t ↔ x = .go t ∨ x = .halt t := by
  cases x <;> simp [Flow.outcome]

/-- What a sequence of two statements goes on to. -/
theorem Flow.bind_eq_go (x : Flow) (f : State → Flow) (t : State) : x.bind f = .go t ↔ ∃ s, x = .go s ∧ f s = .go t := by
  cases x <;> simp [Flow.bind]

/-- Where a sequence of two statements ends the command. -/
theorem Flow.bind_eq_halt (x : Flow) (f : State → Flow) (t : State) :
    x.bind f = .halt t ↔ x = .halt t ∨ ∃ s, x = .go s ∧ f s = .halt t := by
  cases x <;> simp [Flow.bind]

end Sys2Proof.Machine
end

