-- ==== Sys2Proof/Laws/Pack.lean ====
section
/-!
SUPPORT. What the packers answer (spec/43_chunk_encoder.md): within its range every packer answers exactly the bytes of the
format (`unitBytes`), outside it none.
-/

namespace Sys2Proof.Machine

theorem packINDEX_eq (h : Slot) : packINDEX h = some (unitBytes (.index h)) := by
  have : ∀ h : Slot, 0b00#2 ++ h = BitVec.ofNat 8 h.toNat := by decide
  exact congrArg (fun b => some [b]) (this h)

theorem packDIFF_eq {dr dg db : Int} (hr : inDiff dr) (hg : inDiff dg) (hb : inDiff db) :
    packDIFF dr dg db = some (unitBytes (.diff dr dg db)) := by
  rw [packDIFF, if_pos ⟨hr, hg, hb⟩]
  obtain ⟨hr1, hr2⟩ := hr
  obtain ⟨hg1, hg2⟩ := hg
  obtain ⟨hb1, hb2⟩ := hb
  interval_cases dr <;> interval_cases dg <;> interval_cases db <;> rfl

theorem packLUMA_eq {dg drg dbg : Int} (hg : inLumaG dg) (hr : inLumaRB drg) (hb : inLumaRB dbg) :
    packLUMA dg drg dbg = some (unitBytes (.luma dg drg dbg)) := by
  rw [packLUMA, if_pos ⟨hg, hr, hb⟩]
  have h1 : 0x80#8 ||| byteOf (dg + 32) = BitVec.ofInt 8 (128 + (dg + 32)) := by
    obtain ⟨h1, h2⟩ := hg
    interval_cases dg <;> rfl
  have h2 : (byteOf (drg + 8) <<< 4) ||| byteOf (dbg + 8) = BitVec.ofInt 8 (16 * (drg + 8) + (dbg + 8)) := by
    obtain ⟨hr1, hr2⟩ := hr
    obtain ⟨hb1, hb2⟩ := hb
    interval_cases drg <;> interval_cases dbg <;> rfl
  rw [h1, h2]; rfl

theorem packRUN_eq {n : Nat} (h : inRun n) : packRUN n = some (unitBytes (.run n)) := by
  rw [packRUN, if_pos h]
  obtain ⟨h1, h2⟩ := h
  simp only [Config.runMax] at h2
  interval_cases n <;> rfl

theorem packRGB_eq (r g b a : Byte) : packRGB ⟨r, g, b, a⟩ = some (unitBytes (.rgb r g b)) := rfl

theorem packRGBA_eq (r g b a : Byte) : packRGBA ⟨r, g, b, a⟩ = some (unitBytes (.rgba r g b a)) := rfl

theorem u32Bytes_eq (x : U32) :
    u32Bytes x =
      [BitVec.ofNat 8 (x.toNat / 2 ^ 24), BitVec.ofNat 8 (x.toNat / 2 ^ 16), BitVec.ofNat 8 (x.toNat / 2 ^ 8), BitVec.ofNat 8 x.toNat] := by
  simp only [u32Bytes, List.cons.injEq, and_true]
  refine ⟨?_, ?_, ?_, ?_⟩ <;> apply BitVec.eq_of_toNat_eq <;> simp [Nat.shiftRight_eq_div_pow]

theorem packHeader_eq {w h : U32} {ch cs : Byte} (hl : headerFields ch cs) :
    packHeader w h ch cs = some (unitBytes (.header w h ch cs)) := by
  rw [packHeader, if_pos hl, u32Bytes_eq, u32Bytes_eq]; rfl

theorem packEnd_eq : packEnd = some (unitBytes .endMarker) := rfl

/-- The encoder of a stream row gives the bytes of its format. -/
theorem encode_unit {i : Instr} (hi : i.isCommand = false) (hwf : i.WellFormed) : encode i = some (.stream (unitBytes i)) := by
  cases i <;> simp only [Instr.isCommand, Instr.WellFormed, Instr.wf, decide_eq_true_eq, reduceCtorEq] at hi hwf
  case index h => rw [encode, packINDEX_eq]; rfl
  case diff => rw [encode, packDIFF_eq hwf.1 hwf.2.1 hwf.2.2]; rfl
  case luma => rw [encode, packLUMA_eq hwf.1 hwf.2.1 hwf.2.2]; rfl
  case rgb => rfl
  case rgba => rfl
  case run => rw [encode, packRUN_eq hwf]; rfl
  case header => rw [encode, packHeader_eq hwf]; rfl
  case endMarker => rfl

end Sys2Proof.Machine
end

