-- ==== Sys2Proof/Laws/Serializer.lean ====
section
/-!
SUPPORT. What the serializer can do, said once (spec/44_serializer.md rules R190 to R197): how a byte sequence is cut into
blocks, and the three ends of an `Emit`: accepted, failed at a block, held at a block.
-/

namespace Sys2Proof.Machine

/-! ## Cutting a byte sequence into blocks -/

theorem fullBlocks_of_lt {cap : Nat} {l : List Byte} (h : l.length < cap) : fullBlocks cap l = [] := by
  simp [fullBlocks, Nat.div_eq_of_lt h]

theorem remainder_of_lt {cap : Nat} {l : List Byte} (h : l.length < cap) : remainder cap l = l := by
  simp [remainder, Nat.div_eq_of_lt h]

theorem fullBlocks_append {cap : Nat} {x : List Byte} (y : List Byte) (hcap : 1 ≤ cap) (hx : x.length = cap) :
    fullBlocks cap (x ++ y) = x :: fullBlocks cap y := by
  have hdiv : (x ++ y).length / cap = y.length / cap + 1 := by
    rw [List.length_append, hx, Nat.add_div_left _ (by omega)]
  unfold fullBlocks
  rw [hdiv, List.range_succ_eq_map, List.map_cons, List.map_map]
  congr 1
  · simp [← hx]
  · apply List.map_congr_left
    intro k _
    simp only [Function.comp, Nat.succ_eq_add_one]
    congr 1
    rw [Nat.succ_mul, Nat.add_comm, ← List.drop_drop]
    congr 1
    simp [← hx]

theorem remainder_append {cap : Nat} {x : List Byte} (y : List Byte) (hcap : 1 ≤ cap) (hx : x.length = cap) :
    remainder cap (x ++ y) = remainder cap y := by
  have hdiv : (x ++ y).length / cap = y.length / cap + 1 := by
    rw [List.length_append, hx, Nat.add_div_left _ (by omega)]
  unfold remainder
  rw [hdiv, Nat.succ_mul, Nat.add_comm, ← List.drop_drop]
  congr 1
  simp [← hx]

@[simp] theorem length_fullBlocks (cap : Nat) (l : List Byte) : (fullBlocks cap l).length = l.length / cap := by
  simp [fullBlocks]

/-- Every whole block has exactly `cap` bytes (R60). -/
theorem length_of_mem_fullBlocks {cap : Nat} {l b : List Byte} (h : b ∈ fullBlocks cap l) : b.length = cap := by
  simp only [fullBlocks, List.mem_map, List.mem_range] at h
  obtain ⟨k, hk, rfl⟩ := h
  have : (k + 1) * cap ≤ l.length := le_trans (Nat.mul_le_mul_right _ hk) (Nat.div_mul_le_self _ _)
  simp only [List.length_take, List.length_drop]
  have : k * cap + cap ≤ l.length := by linarith [Nat.succ_mul k cap]
  omega

/-- The remainder is shorter than a block (R191). -/
theorem length_remainder_lt {cap : Nat} (l : List Byte) (hcap : 1 ≤ cap) : (remainder cap l).length < cap := by
  have h := Nat.mod_lt l.length hcap
  have := Nat.div_add_mod l.length cap
  simp only [remainder, List.length_drop, Nat.mul_comm _ cap]
  omega

/-- The blocks and the remainder are the whole sequence, in order (R197). -/
theorem flatten_fullBlocks_append_remainder (cap : Nat) (hcap : 1 ≤ cap) (l : List Byte) :
    (fullBlocks cap l).flatten ++ remainder cap l = l := by
  induction h : l.length using Nat.strong_induction_on generalizing l with
  | _ n ih =>
    by_cases hlt : l.length < cap
    · simp [fullBlocks_of_lt hlt, remainder_of_lt hlt]
    · have hx : (l.take cap).length = cap := by simp; omega
      have hl : l.take cap ++ l.drop cap = l := List.take_append_drop cap l
      have hrest := ih (l.drop cap).length (by simp; omega) (l.drop cap) rfl
      rw [← hl, fullBlocks_append _ hcap hx, remainder_append _ hcap hx, List.flatten_cons, List.append_assoc, hrest]

/-! ## The sink's answers -/

theorem nextAnswer_eq (s : State) : nextAnswer s = answerAt s 0 := by
  cases h : s.sinkIn <;> simp [nextAnswer, answerAt, h]

theorem answerAt_logBlock (s : State) (bytes : List Byte) (k : Nat) :
    answerAt (s.logBlock bytes) k = answerAt s (k + 1) := by
  cases h : s.sinkIn <;> simp [answerAt, h, Nat.add_assoc, Nat.add_comm 1 k]

/-! ## Emit -/

theorem afterEmit_of_lt (s : State) (bytes : List Byte) (h : (s.outbuf ++ bytes).length < s.bufCap) :
    afterEmit s bytes = { s with outbuf := s.outbuf ++ bytes } := by
  have hdue : blocksDue s bytes = 0 := Nat.div_eq_of_lt h
  simp only [afterEmit, hdue, fullBlocks_of_lt h, remainder_of_lt h]
  simp

theorem afterEmit_pushByte (s : State) (b : Byte) (bs : List Byte) : afterEmit (s.pushByte b) bs = afterEmit s (b :: bs) := by
  simp [afterEmit, blocksDue, State.pushByte]

theorem afterBlocks_pushByte (s : State) (b : Byte) (bs : List Byte) (k : Nat) (out : List Byte) :
    afterBlocks (s.pushByte b) bs k out = afterBlocks s (b :: bs) k out := by
  simp [afterBlocks, State.pushByte]

/-- The state after the block that byte `b` fills has been accepted. -/
def flushed (s : State) (b : Byte) : State := ((s.pushByte b).logBlock (s.outbuf ++ [b])).clearOut

theorem flushed_fields (s : State) (b : Byte) :
    (flushed s b).bufCap = s.bufCap ∧ (flushed s b).outbuf = [] ∧ ∀ k, answerAt (flushed s b) k = answerAt s (k + 1) :=
  ⟨rfl, rfl, fun k => answerAt_logBlock (s.pushByte b) (s.outbuf ++ [b]) k⟩

theorem blocksDue_flushed (s : State) (b : Byte) (bs : List Byte) (hcap : 1 ≤ s.bufCap)
    (hfull : s.outbuf.length + 1 = s.bufCap) : blocksDue s (b :: bs) = blocksDue (flushed s b) bs + 1 := by
  have : (s.outbuf ++ b :: bs).length = s.bufCap + bs.length := by simp; omega
  simp [blocksDue, flushed, this, Nat.add_div_left _ (show 0 < s.bufCap by omega), -List.length_append]

theorem fullBlocks_cons (s : State) (b : Byte) (bs : List Byte) (hcap : 1 ≤ s.bufCap)
    (hfull : s.outbuf.length + 1 = s.bufCap) :
    fullBlocks s.bufCap (s.outbuf ++ b :: bs) = (s.outbuf ++ [b]) :: fullBlocks s.bufCap bs ∧
    remainder s.bufCap (s.outbuf ++ b :: bs) = remainder s.bufCap bs := by
  have hx : (s.outbuf ++ [b]).length = s.bufCap := by simp; omega
  have he : s.outbuf ++ b :: bs = (s.outbuf ++ [b]) ++ bs := by simp
  rw [he]
  exact ⟨fullBlocks_append bs hcap hx, remainder_append bs hcap hx⟩

theorem afterEmit_flushed (s : State) (b : Byte) (bs : List Byte) (hcap : 1 ≤ s.bufCap)
    (hfull : s.outbuf.length + 1 = s.bufCap) : afterEmit (flushed s b) bs = afterEmit s (b :: bs) := by
  obtain ⟨h1, h2⟩ := fullBlocks_cons s b bs hcap hfull
  have h3 := blocksDue_flushed s b bs hcap hfull
  simp only [afterEmit]
  rw [h1, h2, h3]
  generalize blocksDue (flushed s b) bs = n
  simp [flushed, State.clearOut, State.logBlock, State.pushByte, Nat.add_comm n 1, Nat.add_assoc]

theorem afterBlocks_flushed (s : State) (b : Byte) (bs : List Byte) (k : Nat) (out : List Byte) (hcap : 1 ≤ s.bufCap)
    (hfull : s.outbuf.length + 1 = s.bufCap) :
    afterBlocks (flushed s b) bs k out = afterBlocks s (b :: bs) (k + 1) out := by
  obtain ⟨h1, -⟩ := fullBlocks_cons s b bs hcap hfull
  simp only [afterBlocks]
  rw [h1]
  simp [flushed, State.clearOut, State.logBlock, State.pushByte, Nat.add_comm (k + 1) 1, Nat.add_assoc]
  rw [Nat.add_comm 1 (k + 1), List.take_succ_cons]

/-- Emit one byte at a time (R190). -/
theorem emit_cons (s : State) (b : Byte) (bs : List Byte) :
    emit (b :: bs) s =
      if s.outbuf.length + 1 = s.bufCap then
        match answerAt s 0 with
        | .ok => emit bs (flushed s b)
        | .fail code => .halt ((flushed s b).enterError .sink (code.setWidth 64))
        | .hold => .halt ((s.pushByte b).logBlock (s.outbuf ++ [b])).hold
      else emit bs (s.pushByte b) := by
  have h : answerAt (s.pushByte b) 0 = answerAt s 0 := rfl
  simp only [emit, State.outbufLen, State.pushByte_outbuf, List.length_append, List.length_singleton]
  split
  · simp only [flushFull, deliver, nextAnswer_eq, h, State.pushByte_outbuf]
    cases answerAt s 0 <;> simp [raiseSink, raiseError, flushed]
  · rfl

/-- An `Emit` that the sink accepts (R190, R191). -/
theorem emit_accepted (bytes : List Byte) (s : State) (hcap : 1 ≤ s.bufCap) (hroom : s.outbuf.length < s.bufCap)
    (hacc : accepts s (blocksDue s bytes)) : emit bytes s = .go (afterEmit s bytes) := by
  induction bytes generalizing s with
  | nil => rw [afterEmit_of_lt s [] (by simpa using hroom)]; simp [emit]
  | cons b bs ih =>
    rw [emit_cons]
    split
    next hfull =>
      have hdue := blocksDue_flushed s b bs hcap hfull
      obtain ⟨hc, ho, ha⟩ := flushed_fields s b
      rw [hacc 0 (by omega)]
      show emit bs (flushed s b) = _
      rw [ih (flushed s b) (by omega) (by rw [ho, hc]; exact hcap)
        (fun k hk => (ha k).trans (hacc (k + 1) (by omega))), afterEmit_flushed s b bs hcap hfull]
    next hfull =>
      rw [ih (s.pushByte b) hcap (by simp; omega) ?_, afterEmit_pushByte]
      have : blocksDue (s.pushByte b) bs = blocksDue s (b :: bs) := by simp [blocksDue]
      exact fun k hk => hacc k (this ▸ hk)

/-- An `Emit` whose block number `k` the sink fails (R193): SINK, and nothing after that block. -/
theorem emit_failed (bytes : List Byte) (s : State) (k : Nat) (code : U32) (hcap : 1 ≤ s.bufCap)
    (hroom : s.outbuf.length < s.bufCap) (hk : k < blocksDue s bytes) (hacc : accepts s k)
    (hfail : answerAt s k = .fail code) :
    emit bytes s = .halt ((afterBlocks s bytes k []).enterError .sink (code.setWidth 64)) := by
  induction bytes generalizing s k with
  | nil => simp [blocksDue, Nat.div_eq_of_lt hroom] at hk
  | cons b bs ih =>
    rw [emit_cons]
    split
    next hfull =>
      have hdue := blocksDue_flushed s b bs hcap hfull
      obtain ⟨hc, ho, ha⟩ := flushed_fields s b
      cases k with
      | zero =>
        rw [hfail]
        obtain ⟨h1, -⟩ := fullBlocks_cons s b bs hcap hfull
        simp only [afterBlocks, h1]
        simp [flushed, State.enterError, State.clearOut, State.logBlock, State.pushByte]
      | succ k =>
        rw [hacc 0 (by omega)]
        show emit bs (flushed s b) = _
        rw [ih (flushed s b) k (by omega) (by rw [ho, hc]; exact hcap) (by omega)
          (fun j hj => (ha j).trans (hacc (j + 1) (by omega))) ((ha k).trans hfail),
          afterBlocks_flushed s b bs k _ hcap hfull]
    next hfull =>
      rw [ih (s.pushByte b) k hcap (by simp; omega) ?_ hacc hfail, afterBlocks_pushByte]
      simpa [blocksDue, Nat.add_assoc, Nat.add_comm 1] using hk

/-- An `Emit` held on its block number `k` (R192): the block is on the sink port and in OUTBUF. -/
theorem emit_held (bytes : List Byte) (s : State) (k : Nat) (hcap : 1 ≤ s.bufCap)
    (hroom : s.outbuf.length < s.bufCap) (hk : k < blocksDue s bytes) (hacc : accepts s k)
    (hheld : answerAt s k = .hold) :
    emit bytes s =
      .halt (afterBlocks s bytes k ((fullBlocks s.bufCap (s.outbuf ++ bytes)).getD k [])).hold := by
  induction bytes generalizing s k with
  | nil => simp [blocksDue, Nat.div_eq_of_lt hroom] at hk
  | cons b bs ih =>
    rw [emit_cons]
    split
    next hfull =>
      have hdue := blocksDue_flushed s b bs hcap hfull
      obtain ⟨hc, ho, ha⟩ := flushed_fields s b
      obtain ⟨h1, -⟩ := fullBlocks_cons s b bs hcap hfull
      cases k with
      | zero =>
        rw [hheld]
        simp only [afterBlocks, h1]
        simp [State.hold, State.logBlock, State.pushByte]
      | succ k =>
        rw [hacc 0 (by omega)]
        show emit bs (flushed s b) = _
        rw [ih (flushed s b) k (by omega) (by rw [ho, hc]; exact hcap) (by omega)
          (fun j hj => (ha j).trans (hacc (j + 1) (by omega))) ((ha k).trans hheld),
          afterBlocks_flushed s b bs k _ hcap hfull, h1]
        simp [hc, ho]
    next hfull =>
      rw [ih (s.pushByte b) k hcap (by simp; omega) ?_ hacc hheld, afterBlocks_pushByte]
      · simp
      · simpa [blocksDue, Nat.add_assoc, Nat.add_comm 1] using hk

/-- Every `Emit` ends in one of the three ways, at the first block that is not accepted. -/
theorem accepts_or_first (s : State) (n : Nat) :
    accepts s n ∨ ∃ k, k < n ∧ accepts s k ∧ ((∃ code, answerAt s k = .fail code) ∨ answerAt s k = .hold) := by
  induction n with
  | zero => exact .inl fun k hk => absurd hk (Nat.not_lt_zero k)
  | succ n ih =>
    obtain h | ⟨k, hk, ha, he⟩ := ih
    · cases hn : answerAt s n with
      | ok => exact .inl fun k hk => (Nat.lt_succ_iff_lt_or_eq.mp hk).elim (h k) (fun e => e ▸ hn)
      | fail code => exact .inr ⟨n, Nat.lt_succ_self n, h, .inl ⟨code, hn⟩⟩
      | hold => exact .inr ⟨n, Nat.lt_succ_self n, h, .inr hn⟩
    · exact .inr ⟨k, Nat.lt_succ_of_lt hk, ha, he⟩

/-- Every `Emit` ends accepted, failed at a block, or held at one. -/
theorem emit_cases (bytes : List Byte) (s : State) (hcap : 1 ≤ s.bufCap) (hroom : s.outbuf.length < s.bufCap) :
    (accepts s (blocksDue s bytes) ∧ emit bytes s = .go (afterEmit s bytes)) ∨
    ∃ k, k < blocksDue s bytes ∧ accepts s k ∧
      ((∃ code, answerAt s k = .fail code ∧
          emit bytes s = .halt ((afterBlocks s bytes k []).enterError .sink (code.setWidth 64))) ∨
        (answerAt s k = .hold ∧
          emit bytes s = .halt (afterBlocks s bytes k ((fullBlocks s.bufCap (s.outbuf ++ bytes)).getD k [])).hold)) := by
  obtain h | ⟨k, hk, ha, ⟨code, he⟩ | he⟩ := accepts_or_first s (blocksDue s bytes)
  · exact .inl ⟨h, emit_accepted _ _ hcap hroom h⟩
  · exact .inr ⟨k, hk, ha, .inl ⟨code, he, emit_failed _ _ _ _ hcap hroom hk ha he⟩⟩
  · exact .inr ⟨k, hk, ha, .inr ⟨he, emit_held _ _ _ hcap hroom hk ha he⟩⟩

/-! ## Several Emits of one command -/

theorem blocksDue_append (s : State) (a b : List Byte) (hcap : 1 ≤ s.bufCap) :
    blocksDue s (a ++ b) = blocksDue s a + blocksDue (afterEmit s a) b := by
  have hlen : (remainder s.bufCap (s.outbuf ++ a)).length = (s.outbuf ++ a).length % s.bufCap := by
    have := Nat.div_add_mod (s.outbuf ++ a).length s.bufCap
    simp only [remainder, List.length_drop, Nat.mul_comm _ s.bufCap]
    omega
  show (s.outbuf ++ (a ++ b)).length / s.bufCap =
    (s.outbuf ++ a).length / s.bufCap + (remainder s.bufCap (s.outbuf ++ a) ++ b).length / s.bufCap
  rw [← List.append_assoc, List.length_append, List.length_append (as := remainder _ _), hlen]
  conv_lhs => rw [← Nat.div_add_mod (s.outbuf ++ a).length s.bufCap, Nat.add_assoc, Nat.mul_add_div (by omega)]

theorem answerAt_afterEmit (s : State) (bytes : List Byte) (k : Nat) :
    answerAt (afterEmit s bytes) k = answerAt s (blocksDue s bytes + k) := by
  simp [answerAt, afterEmit, Nat.add_assoc]

theorem accepts_append (s : State) (a b : List Byte) (hcap : 1 ≤ s.bufCap) (h : accepts s (blocksDue s (a ++ b))) :
    accepts s (blocksDue s a) ∧ accepts (afterEmit s a) (blocksDue (afterEmit s a) b) := by
  rw [blocksDue_append s a b hcap] at h
  exact ⟨fun k hk => h k (by omega), fun k hk => (answerAt_afterEmit s a k).trans (h _ (by omega))⟩

theorem fullBlocks_remainder_append (cap : Nat) (hcap : 1 ≤ cap) (l m : List Byte) :
    fullBlocks cap (l ++ m) = fullBlocks cap l ++ fullBlocks cap (remainder cap l ++ m) ∧
    remainder cap (l ++ m) = remainder cap (remainder cap l ++ m) := by
  induction h : l.length using Nat.strong_induction_on generalizing l with
  | _ n ih =>
    by_cases hlt : l.length < cap
    · simp [fullBlocks_of_lt hlt, remainder_of_lt hlt]
    · have hx : (l.take cap).length = cap := by simp; omega
      have hl : l.take cap ++ l.drop cap = l := List.take_append_drop cap l
      obtain ⟨h1, h2⟩ := ih (l.drop cap).length (by simp; omega) (l.drop cap) rfl
      rw [← hl, List.append_assoc, fullBlocks_append _ hcap hx, fullBlocks_append _ hcap hx, remainder_append _ hcap hx,
        remainder_append _ hcap hx, h1, h2, List.cons_append]
      exact ⟨rfl, rfl⟩

/-- Two accepted Emits are one of the bytes together. -/
theorem afterEmit_append (s : State) (a b : List Byte) (hcap : 1 ≤ s.bufCap) :
    afterEmit (afterEmit s a) b = afterEmit s (a ++ b) := by
  have hdue := blocksDue_append s a b hcap
  obtain ⟨h1, h2⟩ := fullBlocks_remainder_append s.bufCap hcap (s.outbuf ++ a) b
  unfold afterEmit at hdue ⊢
  simp only [← List.append_assoc] at h1 h2 ⊢
  simp only [hdue, h1, h2, List.map_append, List.drop_drop, ← List.append_assoc, Nat.add_assoc]

theorem length_outbuf_afterEmit (s : State) (bytes : List Byte) (hcap : 1 ≤ s.bufCap) :
    (afterEmit s bytes).outbuf.length < s.bufCap := length_remainder_lt _ hcap

end Sys2Proof.Machine
end

