-- ==== Sys2Proof/Laws/Operations.lean ====
section
/-!
SUPPORT. One lemma per shared operation above the serializer: error entry (R215), the stream rows, the emission of a run
(R142, R143, R152), the selector (R140, as the decision table R153), the final flush (R194).
-/

namespace Sys2Proof.Machine

/-! ## START's checks (R121) -/

theorem validate_legal {w h : U32} {ch cs : Byte} (hl : headerLegal w h ch cs) : validate w h ch cs = none := by
  obtain ⟨h1, h2, h3, h4⟩ := hl
  rw [validate, if_neg h1, if_neg h2, if_neg (not_not.mpr h3), if_neg (not_not.mpr h4)]

/-- START's checks pass exactly on the legal fields. -/
theorem validate_eq_none_iff (w h : U32) (ch cs : Byte) : validate w h ch cs = none ↔ headerLegal w h ch cs := by
  refine ⟨fun hv => ?_, validate_legal⟩
  unfold validate at hv
  split at hv
  · cases hv
  split at hv
  · cases hv
  split at hv
  · cases hv
  split at hv
  · cases hv
  next h1 h2 h3 h4 => exact ⟨h1, h2, not_not.mp h3, not_not.mp h4⟩

/-! ## Error entry -/

/-- An error outside a session, and every SINK error: only the registers of error entry change (R215). -/
theorem raiseError_silent (code : ErrorCode) (info : U64) (s : State) (h : s.fsm ≠ .encoding ∨ code = .sink) :
    raiseError code info s = .halt (s.enterError code info) := by
  rw [raiseError, if_neg (by rintro ⟨h1, h2⟩; exact h.elim (· h1) h2)]

/-- An error other than SINK in a session (R195, R215). -/
theorem raiseError_session (code : ErrorCode) (info : U64) (s : State) (hs : s.fsm = .encoding) (hc : code ≠ .sink) :
    raiseError code info s = .halt (afterErrorExit s code info) := by
  rw [raiseError, if_pos ⟨hs, hc⟩, errorExitFlush, afterErrorExit]
  split
  next h => simp [State.enterError, State.logClose, h]
  next h =>
    rw [deliver, nextAnswer_eq]
    cases answerAt s 0 <;>
      simp [State.enterError, State.logClose, State.logBlock, State.clearOut, State.setSup, State.hold]

/-! ## The final flush -/

/-- FinalFlushAndClose of an accepted or empty partial block (R194). -/
theorem finalFlushAndClose_accepted (s : State) (h : s.outbuf ≠ [] → answerAt s 0 = .ok) :
    finalFlushAndClose s =
      .go (if s.outbuf = [] then s.logClose else ((s.logBlock s.outbuf).clearOut).logClose) := by
  rw [finalFlushAndClose]
  split
  · rfl
  next hne => rw [deliver, nextAnswer_eq, h hne]

/-- FinalFlushAndClose of a partial block that the sink fails (R193, R194). -/
theorem finalFlushAndClose_failed (s : State) (code : U32) (hne : s.outbuf ≠ []) (h : answerAt s 0 = .fail code) :
    finalFlushAndClose s = .halt (((s.logBlock s.outbuf).clearOut).enterError .sink (code.setWidth 64)) := by
  rw [finalFlushAndClose, if_neg hne, deliver, nextAnswer_eq, h]
  exact raiseError_silent _ _ _ (.inr rfl)

/-- FinalFlushAndClose of a partial block that is not answered (R192). -/
theorem finalFlushAndClose_held (s : State) (hne : s.outbuf ≠ []) (h : answerAt s 0 = .hold) :
    finalFlushAndClose s = .halt (s.logBlock s.outbuf).hold := by
  rw [finalFlushAndClose, if_neg hne, deliver, nextAnswer_eq, h]

/-! ## The stream rows -/

/-- What a stream row does after its emission: RUN clears RUN (R142, R143, R152), the others nothing. -/
def afterUnit : Instr → State → State
  | .run _, s => s.setRun 0
  | _, s => s

/-- In a session a unit that may be emitted is its emission (R83). -/
theorem inSession_mayEmit {i : Instr} {s : State} (op : State → Flow) (hs : s.fsm = .encoding) (hm : mayEmit i s = true) :
    inSession i op s = (op s).outcome := by simp [inSession, hs, hm]

/-- A well-formed unit that is never emitted in the state stops by name (R83). -/
theorem inSession_neverEmitted {i : Instr} {s : State} (op : State → Flow) (hs : s.fsm = .encoding) (hwf : i.wf = true)
    (hm : mayEmit i s = false) : inSession i op s = .fault .neverEmitted := by simp [inSession, hs, hwf, hm]

/-- An ill-formed unit comes to its packer. -/
theorem inSession_illFormed {i : Instr} {s : State} (op : State → Flow) (hs : s.fsm = .encoding) (hwf : i.wf = false) :
    inSession i op s = (op s).outcome := by simp [inSession, hs, hwf]

/-- CFG_WIDTH × CFG_HEIGHT fits PIX_COUNT (R29). -/
theorem total_lt (s : State) : s.total < 2 ^ 64 := by
  have h1 : s.cfgWidth.toNat ≤ 2 ^ 32 - 1 := by have := s.cfgWidth.isLt; omega
  have h2 : s.cfgHeight.toNat ≤ 2 ^ 32 - 1 := by have := s.cfgHeight.isLt; omega
  exact lt_of_le_of_lt (Nat.mul_le_mul h1 h2) (by norm_num)

/-- The state that `withFetchWord` makes ready for a raw chunk or a RUN lets it be emitted. -/
theorem mayEmit_readyFor (s : State) :
    (∀ r g b, mayEmit (.rgb r g b) (s.readyFor (.rgb r g b)) = true) ∧
    (∀ r g b a, mayEmit (.rgba r g b a) (s.readyFor (.rgba r g b a)) = true) ∧
    (∀ n, n ≤ 62 → mayEmit (.run n) (s.readyFor (.run n)) = true) := by
  have hnot : ∀ v : Byte, v ≠ ~~~v := by decide
  refine ⟨fun r g b => ?_, fun r g b a => ?_, fun n hn => ?_⟩
  · by_cases h : r = s.prev.r ∧ g = s.prev.g ∧ b = s.prev.b
    · simp [mayEmit, State.readyFor, ← h.1, ← h.2.1, ← h.2.2, hnot]
    · exact decide_eq_true ⟨rfl, by rwa [State.readyFor, if_neg h]⟩
  · by_cases h : (⟨r, g, b, a⟩ : Pixel) = s.prev
    · simp [mayEmit, State.readyFor, ← h, hnot]
    · simp [mayEmit, State.readyFor, h]
  · by_cases h : n = 62
    · simp [mayEmit, State.readyFor, h]
    · have := total_lt s
      simp only [mayEmit, State.readyFor, if_neg h, BitVec.toNat_ofNat, State.total, decide_eq_true_eq]
      exact ⟨Nat.mod_eq_of_lt (by omega), .inr (Nat.mod_eq_of_lt this)⟩

/-- A stream row in a session is the Emit of its format's bytes, where the unit may be emitted. -/
theorem exec_unit {i : Instr} {s : State} (hi : i.isCommand = false) (hwf : i.WellFormed) (hs : s.fsm = .encoding)
    (hm : mayEmit i s = true) : exec i s = ((emit (unitBytes i) s).bind fun t => .go (afterUnit i t)).outcome := by
  have hgo : ∀ x : Flow, (x.bind fun t => .go t) = x := fun x => by cases x <;> rfl
  cases i <;> simp only [Instr.isCommand, Instr.WellFormed, Instr.wf, decide_eq_true_eq, reduceCtorEq] at hi hwf
  case index => simp [exec, execIndex, inSession_mayEmit _ hs hm, packINDEX_eq, emitPacked, afterUnit, hgo]
  case diff => simp [exec, execDiff, inSession_mayEmit _ hs hm, packDIFF_eq hwf.1 hwf.2.1 hwf.2.2, emitPacked, afterUnit, hgo]
  case luma => simp [exec, execLuma, inSession_mayEmit _ hs hm, packLUMA_eq hwf.1 hwf.2.1 hwf.2.2, emitPacked, afterUnit, hgo]
  case rgb => simp [exec, execRgb, inSession_mayEmit _ hs hm, packRGB_eq, emitPacked, afterUnit, hgo]
  case rgba => simp [exec, execRgba, inSession_mayEmit _ hs hm, packRGBA_eq, emitPacked, afterUnit, hgo]
  case run => simp [exec, execRun, inSession_mayEmit _ hs hm, emitRun, packRUN_eq hwf, emitPacked, afterUnit]
  case header => simp [exec, execHeader, inSession_mayEmit _ hs hm, packHeader_eq hwf, emitPacked, afterUnit, hgo]
  case endMarker => simp [exec, execEnd, inSession_mayEmit _ hs hm, packEnd_eq, emitPacked, afterUnit, hgo]

/-- A stream row that the sink accepts. -/
theorem exec_unit_accepted {i : Instr} {s : State} (hi : i.isCommand = false) (hwf : i.WellFormed)
    (hs : s.fsm = .encoding) (hm : mayEmit i s = true) (hroom : s.outbuf.length < s.bufCap)
    (hacc : accepts s (blocksDue s (unitBytes i))) : exec i s = .next (afterUnit i (afterEmit s (unitBytes i))) := by
  rw [exec_unit hi hwf hs hm, emit_accepted _ _ (by omega) hroom hacc]; rfl

/-! ## The emission of a run -/

theorem emitRun_eq {n : Nat} (h : inRun n) (s : State) :
    emitRun n s = (emit (unitBytes (.run n)) s).bind fun t => .go (t.setRun 0) := by
  rw [emitRun, packRUN_eq h]; rfl

theorem emitRun_accepted {n : Nat} (h : inRun n) (s : State) (hroom : s.outbuf.length < s.bufCap)
    (hacc : accepts s (blocksDue s (unitBytes (.run n)))) :
    emitRun n s = .go (afterEmit (s.setRun 0) (unitBytes (.run n))) := by
  rw [emitRun_eq h, emit_accepted _ _ (by omega) hroom hacc]; rfl

theorem pendingRun_zero : pendingRun 0 = [] := rfl

theorem streamBytes_nil : streamBytes [] = [] := rfl

theorem streamBytes_append (l m : List Instr) : streamBytes (l ++ m) = streamBytes l ++ streamBytes m := by
  simp [streamBytes]

theorem streamBytes_singleton (i : Instr) : streamBytes [i] = unitBytes i := by simp [streamBytes]

/-- The pending run as an Emit (R143, R152): an empty one where RUN = 0. -/
theorem endRun_eq (s : State) (hrun : s.run.toNat ≤ 62) :
    endRun s = (emit (streamBytes (pendingRun s.run.toNat)) s).bind fun t => .go (t.setRun 0) := by
  rw [endRun]
  split
  next h =>
    have hpos : 0 < s.run.toNat := by
      rcases Nat.eq_zero_or_pos s.run.toNat with h0 | h0
      · exact absurd (BitVec.eq_of_toNat_eq h0) h
      · exact h0
    rw [emitRun_eq ⟨hpos, hrun⟩, pendingRun, if_pos hpos, streamBytes_singleton]
  next h =>
    have h0 : s.run = 0 := by simpa using h
    have hp : pendingRun s.run.toNat = [] := by rw [h0]; rfl
    rw [hp, streamBytes_nil, emit, Flow.bind_go, State.setRun, ← h0]

theorem endRun_accepted (s : State) (hrun : s.run.toNat ≤ 62) (hroom : s.outbuf.length < s.bufCap)
    (hacc : accepts s (blocksDue s (streamBytes (pendingRun s.run.toNat)))) :
    endRun s = .go (afterEmit (s.setRun 0) (streamBytes (pendingRun s.run.toNat))) := by
  rw [endRun_eq s hrun, emit_accepted _ _ (by omega) hroom hacc]; rfl

/-! ## The selector -/

/-- The chunk that the selector chooses for an index miss (rows 4 to 7 of R153). -/
def missChunk (ch : Byte) (px prev : Pixel) : Instr :=
  if px.a = prev.a ∧ inDiff (delta px.r prev.r) ∧ inDiff (delta px.g prev.g) ∧ inDiff (delta px.b prev.b) then
    .diff (delta px.r prev.r) (delta px.g prev.g) (delta px.b prev.b)
  else if px.a = prev.a ∧ inLumaG (delta px.g prev.g) ∧ inLumaRB (delta px.r prev.r - delta px.g prev.g) ∧
      inLumaRB (delta px.b prev.b - delta px.g prev.g) then
    .luma (delta px.g prev.g) (delta px.r prev.r - delta px.g prev.g) (delta px.b prev.b - delta px.g prev.g)
  else if ch = 3#8 then .rgb px.r px.g px.b
  else .rgba px.r px.g px.b px.a

/-- The chunk that the selector chooses for a pixel that differs from PREV (rows 3 to 7 of R153). -/
def chosenChunk (ch : Byte) (px prev slot : Pixel) : Instr :=
  if slot = px then .index (pixelHash px) else missChunk ch px prev

/-- The cache after a pixel that differs from PREV: a miss is written to its slot (R144, R145). -/
def cacheAfter (px : Pixel) (s : State) : State := if icacheRead (pixelHash px) s = px then s else icacheWrite (pixelHash px) px s

theorem missChunk_isUnit (ch : Byte) (px prev : Pixel) :
    (missChunk ch px prev).isCommand = false ∧ (missChunk ch px prev).WellFormed := by
  unfold missChunk
  split
  next h => exact ⟨rfl, by simp only [Instr.WellFormed, Instr.wf, decide_eq_true_eq]; exact h.2⟩
  split
  next h => exact ⟨rfl, by simp only [Instr.WellFormed, Instr.wf, decide_eq_true_eq]; exact h.2⟩
  split <;> exact ⟨rfl, rfl⟩

theorem chosenChunk_isUnit (ch : Byte) (px prev slot : Pixel) :
    (chosenChunk ch px prev slot).isCommand = false ∧ (chosenChunk ch px prev slot).WellFormed := by
  unfold chosenChunk
  split
  · exact ⟨rfl, rfl⟩
  · exact missChunk_isUnit ch px prev

/-- SEL's steps for an index miss (R146 to R150). -/
theorem emitDelta_eq (px : Pixel) (s : State) :
    emitDelta px s = emit (unitBytes (missChunk s.cfgChannels px s.prev)) s := by
  unfold emitDelta emitRaw missChunk
  have hraw : (if s.cfgChannels = 3#8 then emitPacked (packRGB px) s else emitPacked (packRGBA px) s) =
      emit (unitBytes (if s.cfgChannels = 3#8 then .rgb px.r px.g px.b else .rgba px.r px.g px.b px.a)) s := by
    split <;> rfl
  by_cases ha : px.a = s.prev.a
  · by_cases hd : inDiff (delta px.r s.prev.r) ∧ inDiff (delta px.g s.prev.g) ∧ inDiff (delta px.b s.prev.b)
    · simp only [eq_true ha, eq_true hd, true_and, if_true, packDIFF_eq hd.1 hd.2.1 hd.2.2]; rfl
    by_cases hl : inLumaG (delta px.g s.prev.g) ∧ inLumaRB (delta px.r s.prev.r - delta px.g s.prev.g) ∧
        inLumaRB (delta px.b s.prev.b - delta px.g s.prev.g)
    · simp only [eq_true ha, eq_false hd, eq_true hl, true_and, if_true, if_false, packLUMA_eq hl.1 hl.2.1 hl.2.2]; rfl
    · simp only [eq_true ha, eq_false hd, eq_false hl, true_and, if_true, if_false, hraw]
  · simp only [eq_false ha, false_and, if_false, hraw]

/-- SEL's steps for a pixel that differs from PREV, as one Emit after the cache write (R144 to R150, R246). -/
theorem emitChunk_eq (px : Pixel) (s : State) :
    emitChunk px s =
      emit (unitBytes (chosenChunk s.cfgChannels px s.prev (icacheRead (pixelHash px) s))) (cacheAfter px s) := by
  unfold emitChunk chosenChunk cacheAfter
  by_cases hhit : icacheRead (pixelHash px) s = px
  · rw [if_pos ((pixelEq_iff _ _).mpr hhit), if_pos hhit, if_pos hhit, packINDEX_eq]; rfl
  · rw [if_neg (mt (pixelEq_iff _ _).mp hhit), if_neg hhit, if_neg hhit, emitDelta_eq]; rfl

/-- The decision table in the selector's own terms. -/
theorem decisionTable_ne {ch : Byte} {px prev : Pixel} {run : Nat} {ic : Vector Pixel 64} (hne : px ≠ prev) :
    decisionTable ch px prev run ic =
      { chunks := pendingRun run ++ [chosenChunk ch px prev (ic[(pixelHash px).toNat]'(pixelHash px).isLt)]
        prev := px
        run := 0
        icache :=
          if ic[(pixelHash px).toNat]'(pixelHash px).isLt = px then ic
          else ic.set (pixelHash px).toNat px (pixelHash px).isLt } := by
  simp only [decisionTable, chosenChunk, missChunk, hne, false_and, if_false]
  split
  · rfl
  split
  · rfl
  split
  · rfl
  split <;> rfl

/-- EncodePixel of a pixel that differs from PREV: two Emits, the cache write between them, PREV last. -/
theorem encodePixel_ne {px : Pixel} {s : State} (hne : px ≠ s.prev) :
    encodePixel px s = ((endRun s).bind (emitChunk px)).bind fun t => .go (t.setPrev px) := by
  have : pixelEq px s.prev = false := by simpa using hne
  simp [encodePixel, this]

/-- EncodePixel of a pixel equal to PREV. -/
theorem encodePixel_run {px : Pixel} {s : State} (he : px = s.prev) : encodePixel px s = continueRun s := by
  have : pixelEq px s.prev = true := by simpa using he
  simp [encodePixel, this]

end Sys2Proof.Machine
end

