-- ==== Sys2Proof/Laws/PerInstr.lean ====
section
/-!
SUPPORT. The family `Encodable`, per instruction: a well-formed command has a command word, a well-formed stream unit has
the number of bytes that spec/30_encoding.md rule R89 gives its kind.
-/

namespace Sys2Proof.Laws.Encodable

open Sys2Proof.Machine

/-- Every well-formed instruction has its encoded form, on the port of its kind (R89, R92). -/
def Statement (i : Instr) : Prop :=
  i.WellFormed →
    (i.isCommand = true → ∃ w, encode i = some (.command w)) ∧
    (i.isCommand = false → ∃ bytes, encode i = some (.stream bytes) ∧ bytes.length = unitLength i ∧ 1 ≤ bytes.length)

theorem of_command {i : Instr} (hi : i.isCommand = true) (he : ∃ w, encode i = some (.command w)) : Statement i :=
  fun _ => ⟨fun _ => he, fun h => absurd (hi.symm.trans h) (by decide)⟩

theorem of_unit {i : Instr} (hi : i.isCommand = false) (hl : (unitBytes i).length = unitLength i) (hp : 1 ≤ unitLength i) :
    Statement i :=
  fun hwf => ⟨fun h => absurd (hi.symm.trans h) (by decide), fun _ => ⟨_, encode_unit hi hwf, hl, hl ▸ hp⟩⟩

theorem index (h : Slot) : Statement (.index h) := of_unit rfl rfl (Nat.le_refl 1)
theorem diff (dr dg db : Int) : Statement (.diff dr dg db) := of_unit rfl rfl (Nat.le_refl 1)
theorem luma (dg drg dbg : Int) : Statement (.luma dg drg dbg) := of_unit rfl rfl (by decide : 1 ≤ 2)
theorem rgb (r g b : Byte) : Statement (.rgb r g b) := of_unit rfl rfl (by decide : 1 ≤ 4)
theorem rgba (r g b a : Byte) : Statement (.rgba r g b a) := of_unit rfl rfl (by decide : 1 ≤ 5)
theorem run (n : Nat) : Statement (.run n) := of_unit rfl rfl (Nat.le_refl 1)
theorem header (w h : U32) (ch cs : Byte) : Statement (.header w h ch cs) := of_unit rfl rfl (by decide : 1 ≤ 14)
theorem endMarker : Statement .endMarker := of_unit rfl rfl (by decide : 1 ≤ 8)
theorem start (w h : U32) (ch cs : Byte) : Statement (.start w h ch cs) := of_command rfl ⟨_, rfl⟩
theorem pixel (ignored : BitVec 48) (r g b a : Byte) : Statement (.pixel ignored r g b a) := of_command rfl ⟨_, rfl⟩
theorem close (ignored : BitVec 80) : Statement (.close ignored) := of_command rfl ⟨_, rfl⟩
theorem reserved (ignored : BitVec 80) : Statement (.reserved ignored) := of_command rfl ⟨_, rfl⟩

end Sys2Proof.Laws.Encodable
end

