-- ==== Sys2Proof/Laws/Steps.lean ====
section
/-!
SUPPORT. What one step can do (spec/00_scope.md rule R12, spec/41_commands.md rule R129), and several steps in a row.
-/

namespace Sys2Proof.Machine

/-- Every step that ends in a next state is a wait, a reset, a command of the command port, or a stream unit of PACK's
input. -/
theorem step_cases {s t : State} (h : step s = .next t) :
    (t = s ∧ s.port = [] ∧ (s.packIn = [] ∨ s.held = true)) ∨
    (∃ rest, s.port = .reset :: rest ∧ (s.packIn = [] ∨ s.held = true) ∧ t = { s with port := rest }.afterReset) ∨
    (∃ w rest, s.port = .command w :: rest ∧ s.packIn = [] ∧ s.held = false ∧
      exec (decodeCommand w) { s with port := rest } = .next t) ∨
    (∃ i, s.packIn ≠ [] ∧ s.held = false ∧ decodeUnit s.packIn = .ok i ∧ exec i { s with packIn := [] } = .next t) := by
  unfold step fetch at h
  by_cases hp : s.packIn ≠ [] ∧ s.held = false
  · rw [if_pos hp, fetchUnit] at h
    cases hd : decodeUnit s.packIn with
    | error e => simp [hd] at h
    | ok i => exact .inr (.inr (.inr ⟨i, hp.1, hp.2, rfl, by simpa [hd] using h⟩))
  · have hp' : s.packIn = [] ∨ s.held = true := by
      cases hh : s.held
      · exact .inl (not_not.mp fun hne => hp ⟨hne, hh⟩)
      · exact .inr rfl
    rw [if_neg hp, fetchPort] at h
    cases hq : s.port with
    | nil => exact .inl ⟨by simpa [hq] using h.symm, rfl, hp'⟩
    | cons e rest =>
      cases e with
      | reset => exact .inr (.inl ⟨rest, rfl, hp', by simpa [hq] using h.symm⟩)
      | command w =>
        cases hh : s.held
        · exact .inr (.inr (.inl ⟨w, rest, rfl, hp'.resolve_right (by simp [hh]), rfl, by simpa [hq, hh] using h⟩))
        · simp [hq, hh] at h

theorem run_succ_next (M : Host.Core) {s t : M.State} (n : Nat) (h : M.step s = .next t) : M.run (n + 1) s = M.run n t := by
  rw [Host.Core.run, h]

theorem run_succ_fault (M : Host.Core) {s : M.State} {f : M.Fault} (n : Nat) (h : M.step s = .fault f) :
    M.run (n + 1) s = .fault f := by
  rw [Host.Core.run, h]

theorem run_succ_refused (M : Host.Core) {s : M.State} {r : M.Refusal} (n : Nat) (h : M.step s = .refused r) :
    M.run (n + 1) s = .refused r := by
  rw [Host.Core.run, h]

/-- The host's `core.run` is `steps`. -/
theorem core_run_eq_steps (n : Nat) (s : State) : Sys2Proof.core.run n s = steps n s := by
  induction n generalizing s with
  | zero => rfl
  | succ n ih =>
    cases hs : step s with
    | next t => rw [steps, hs]; exact (run_succ_next Sys2Proof.core n hs).trans (ih t)
    | fault f => rw [steps, hs]; exact run_succ_fault Sys2Proof.core n hs
    | refused r => rw [steps, hs]; exact run_succ_refused Sys2Proof.core n hs

theorem steps_one {s t : State} (h : step s = .next t) : steps 1 s = .next t := by simp [steps, h]

/-- Steps in two parts. -/
theorem steps_add {n : Nat} {s t : State} (m : Nat) (h : steps n s = .next t) : steps (n + m) s = steps m t := by
  induction n generalizing s with
  | zero =>
    have : s = t := by simpa [steps] using h
    rw [this, Nat.zero_add]
  | succ n ih =>
    rw [Nat.succ_add, steps]
    rw [steps] at h
    cases hs : step s with
    | next s' => rw [hs] at h; exact ih h
    | fault f => rw [hs] at h; cases h
    | refused r => rw [hs] at h; cases h

end Sys2Proof.Machine
end

