-- ==== Sys2Proof/Tests/Slice0.lean ====
section
/-!
SUPPORT. Tests of the model: the expected values are those of spec/95_test_vectors.md (the part is named beside each), and
a witness for each obligation that has hypotheses.
-/

namespace Sys2Proof.Tests

open Sys2Proof.Machine

/-! ## Helpers -/

/-- A 9 × 9 encode that has just begun: `fresh` in the words of 95_test_vectors.md, the header already delivered. -/
def fresh (ch : Byte) (cap : Nat) : State :=
  { State.resetWith cap with
    fsm := .encoding, cfgWidth := 9, cfgHeight := 9, cfgChannels := ch, cfgColorspace := 0
    prev := ⟨0, 0, 0, 255⟩, sinkIn := [.ok, .ok, .ok, .ok] }

/-- The state an outcome goes on with. -/
def after (o : Host.Outcome State Fault Refusal) : Option State :=
  match o with
  | .next s => some s
  | .fault _ => none
  | .refused _ => none

/-- The fault an outcome stops with. -/
def faultOf (o : Host.Outcome State Fault Refusal) : Option Fault :=
  match o with
  | .next _ => none
  | .fault f => some f
  | .refused _ => none

/-- The bytes that a PIXEL leaves in OUTBUF. -/
def pixelBytes (r g b a : Byte) (s : State) : Option (List Byte) := (after (exec (.pixel 0 r g b a) s)).map State.outbuf

/-- An outcome's observation, as L2.10 lists it: sink events, STATUS, ERR_INFO, PIX_COUNT. -/
def seen (o : Host.Outcome State Fault Refusal) : Option Observation := (after o).map State.observe

/-! ## Well-formedness: an ill-formed term for each check -/

theorem test_wf_refuses_diff_r : (Instr.diff 2 0 0).wf = false := by decide
theorem test_wf_refuses_diff_g : (Instr.diff 0 (-3) 0).wf = false := by decide
theorem test_wf_refuses_diff_b : (Instr.diff 0 0 2).wf = false := by decide
theorem test_wf_refuses_luma_g : (Instr.luma 32 0 0).wf = false := by decide
theorem test_wf_refuses_luma_rg : (Instr.luma 0 8 0).wf = false := by decide
theorem test_wf_refuses_luma_bg : (Instr.luma 0 0 (-9)).wf = false := by decide
theorem test_wf_refuses_run_0 : (Instr.run 0).wf = false := by decide
theorem test_wf_refuses_run_63 : (Instr.run 63).wf = false := by decide
theorem test_wf_refuses_header_channels : (Instr.header 1 1 5 0).wf = false := by decide
theorem test_wf_refuses_header_colorspace : (Instr.header 1 1 3 2).wf = false := by decide

/-! ## Decoding, from words of the spec's encodings (L2.8, P1; the fields of PIXEL and START of L2.2, L1.1) -/

theorem test_decode_index : decodeTableWord 8 0x35 = some (.index 53) := by decide
theorem test_decode_diff : decodeTableWord 8 0x73 = some (.diff 1 (-2) 1) := by rfl
theorem test_decode_luma : decodeTableWord 16 0xF0BF = some (.luma 31 7 (-8)) := by rfl
theorem test_decode_rgb : decodeTableWord 32 0x000064FE = some (.rgb 100 0 0) := by decide
theorem test_decode_rgba : decodeTableWord 40 0x04030201FF = some (.rgba 1 2 3 4) := by decide
theorem test_decode_run : decodeTableWord 8 0xFD = some (.run 62) := by decide
theorem test_decode_header : decodeTableWord 112 0x01040000025800000320716F6966 = some (.header 800 600 4 1) := by decide
theorem test_decode_end : decodeTableWord 64 1 = some .endMarker := by decide
theorem test_decode_start : decodeTableWord 88 0x100000002000000010300 = some (.start 2 1 3 0) := by decide
theorem test_decode_pixel : decodeTableWord 88 0x20000000000000A0A0AFF = some (.pixel 0 10 10 10 255) := by decide
theorem test_decode_close : decodeTableWord 88 0x300000000000000000000 = some (.close 0) := by decide
theorem test_decode_reserved : decodeTableWord 88 0 = some (.reserved 0) := by decide

/-! ## Encoding: the packers of L2.8 at their ends -/

theorem test_encode_luma_min : encode (.luma (-32) (-8) (-8)) = some (.stream [0x80, 0x00]) := by decide
theorem test_encode_refuses_run_63 : encode (.run 63) = none := by decide

/-! ## The pixel operations (L2.1, L2.2, L2.3) -/

theorem test_hash_white : pixelHash ⟨255, 255, 255, 255⟩ = 38 := by decide
theorem test_hash_mixed : pixelHash ⟨202, 12, 29, 128⟩ = 37 := by decide
theorem test_pixelOf_rgb : pixelOf 3 1 2 3 4 = ⟨1, 2, 3, 255⟩ := by decide
theorem test_packedPixel : packedPixel ⟨1, 2, 3, 4⟩ = 0x01020304 := by decide
theorem test_delta_wraps : delta 0 255 = 1 ∧ delta 128 0 = -128 ∧ delta 0 223 = 33 ∧ delta 223 0 = -33 := by decide

/-! ## START (P1, L2.9 with BUF_CAP 5, L2.10) -/

theorem test_start_header_bytes :
    (after (exec (.start 2 1 3 0) (State.resetWith 16))).map (fun t => (t.fsm, t.outbuf)) =
      some (.encoding, [0x71, 0x6F, 0x69, 0x66, 0, 0, 0, 2, 0, 0, 0, 1, 3, 0]) := by decide

theorem test_start_blocks_of_five :
    (after (exec (.start 2 1 3 0) { State.resetWith 5 with sinkIn := [.ok, .ok] })).map (fun t => (t.sinkLog, t.outbuf)) =
      some ([.block [0x71, 0x6F, 0x69, 0x66, 0], .block [0, 0, 2, 0, 0]], [0, 1, 3, 0]) := by decide

theorem test_start_width_checked_first :
    seen (exec (.start 0 0 5 9) (State.resetWith 4096)) = some ⟨[], 0x102, 1, 0⟩ := by decide

theorem test_start_sink_failure :
    seen (exec (.start 2 1 3 0) { State.resetWith 14 with sinkIn := [.fail 7] }) =
      some ⟨[.block [0x71, 0x6F, 0x69, 0x66, 0, 0, 0, 2, 0, 0, 0, 1, 3, 0]], 0x302, 7, 0⟩ := by decide

/-! ## PIXEL, one pixel from fresh and after others (L1.4, L2.4, L2.5, L1.5, L2.7) -/

theorem test_pixel_diff : pixelBytes 1 254 1 255 (fresh 3 4096) = some [0x73] := by decide
theorem test_pixel_one_beyond_diff : pixelBytes 1 253 1 255 (fresh 3 4096) = some [0x9D, 0xCC] := by decide
theorem test_pixel_luma : pixelBytes 38 31 23 255 (fresh 3 4096) = some [0xBF, 0xF0] := by decide
theorem test_pixel_one_beyond_luma : pixelBytes 38 31 22 255 (fresh 3 4096) = some [0xFE, 0x26, 0x1F, 0x16] := by decide
theorem test_pixel_rgba_for_four_channels : pixelBytes 100 0 0 255 (fresh 4 4096) = some [0xFF, 0x64, 0, 0, 0xFF] := by decide
theorem test_pixel_index_on_fresh_cache : pixelBytes 0 0 0 0 (fresh 4 4096) = some [0x00] := by decide

theorem test_pixel_miss_writes_its_slot :
    (after (exec (.pixel 0 9 9 9 255) (fresh 3 4096))).map (fun t => (icacheRead 60 t, t.prev, t.pixCount)) =
      some (⟨9, 9, 9, 255⟩, ⟨9, 9, 9, 255⟩, 1) := by decide

/-- L2.6: the run at the cap. -/
theorem test_pixel_run_cap :
    (after (exec (.pixel 0 0 0 0 255) { fresh 3 4096 with run := 61 })).map (fun t => (t.outbuf, t.run)) =
      some ([0xFD], 0) := by decide

/-- L2.6: RUN 3, then DIFF 1, 0, 0. -/
theorem test_pixel_ends_a_run :
    (after (exec (.pixel 0 6 5 5 255) { fresh 3 4096 with run := 3, prev := ⟨5, 5, 5, 255⟩ })).map (fun t => (t.outbuf, t.run)) =
      some ([0xC2, 0x7A], 0) := by decide

/-- P1 with BUF_CAP 16: the LUMA fills OUTBUF. -/
theorem test_pixel_fills_the_buffer :
    (after (exec (.pixel 0 10 10 10 255) { fresh 3 16 with outbuf := List.replicate 14 7 })).map (fun t => (t.sinkLog, t.outbuf)) =
      some ([.block (List.replicate 14 7 ++ [0xAA, 0x88])], []) := by decide

/-- P4, step 3. -/
theorem test_pixel_bounds :
    seen (exec (.pixel 0 9 9 9 255) { fresh 3 4096 with cfgWidth := 1, cfgHeight := 1, pixCount := 1, outbuf := [0xA9, 0x88] }) =
      some ⟨[.block [0xA9, 0x88], .close], 0x202, 1, 1⟩ := by decide

theorem test_pixel_in_idle : seen (exec (.pixel 0 1 2 3 255) (State.resetWith 4096)) = some ⟨[], 0x402, 2, 0⟩ := by decide

/-! ## CLOSE (P1, L2.9, L2.10, P5, P6b) -/

theorem test_close_run_marker_and_close :
    seen (exec (.close 0) { fresh 3 16 with cfgWidth := 2, cfgHeight := 1, pixCount := 2, run := 1 }) =
      some ⟨[.block [0xC0, 0, 0, 0, 0, 0, 0, 0, 1], .close], 0, 0, 2⟩ := by decide

/-- L2.9, BUF_CAP 25: no empty block after a full one. -/
theorem test_close_no_empty_block :
    seen (exec (.close 0) { fresh 3 8 with cfgWidth := 1, cfgHeight := 1, pixCount := 1 }) =
      some ⟨[.block [0, 0, 0, 0, 0, 0, 0, 1], .close], 0, 0, 1⟩ := by decide

theorem test_close_sink_failure :
    seen (exec (.close 0)
        { fresh 3 16 with cfgWidth := 2, cfgHeight := 1, pixCount := 2, run := 1, sinkIn := [.fail 0x1C] }) =
      some ⟨[.block [0xC0, 0, 0, 0, 0, 0, 0, 0, 1]], 0x302, 0x1C, 2⟩ := by decide

theorem test_close_too_few_pixels_sink_failing :
    seen (exec (.close 0)
        { fresh 3 32 with cfgWidth := 2, cfgHeight := 1, pixCount := 1, outbuf := [0xAA, 0x88], sinkIn := [.fail 5] }) =
      some ⟨[.block [0xAA, 0x88]], 0x106, 5, 1⟩ := by decide

/-! ## The reserved op (L2.10) -/

theorem test_reserved_in_session :
    seen (exec (.reserved 0) { fresh 4 4096 with outbuf := [1, 2] }) = some ⟨[.block [1, 2], .close], 0x402, 0, 0⟩ := by decide

/-! ## The stream rows by themselves (L2.8) -/

theorem test_unit_index : (after (exec (.index 53) (fresh 3 4096))).map State.outbuf = some [0x35] := by decide
theorem test_unit_diff : (after (exec (.diff 1 (-2) 1) (fresh 3 4096))).map State.outbuf = some [0x73] := by decide
theorem test_unit_luma : (after (exec (.luma 31 7 7) (fresh 3 4096))).map State.outbuf = some [0xBF, 0xFF] := by decide
theorem test_unit_rgb : (after (exec (.rgb 100 0 0) (fresh 3 4096))).map State.outbuf = some [0xFE, 0x64, 0, 0] := by decide
theorem test_unit_rgba : (after (exec (.rgba 1 2 3 4) (fresh 4 4096))).map State.outbuf = some [0xFF, 1, 2, 3, 4] := by decide
theorem test_unit_run :
    (after (exec (.run 62) { fresh 3 4096 with run := 62 })).map (fun t => (t.outbuf, t.run)) = some ([0xFD], 0) := by decide
theorem test_unit_header :
    (after (exec (.header 4294967295 1 3 0) (fresh 3 4096))).map State.outbuf =
      some [0x71, 0x6F, 0x69, 0x66, 0xFF, 0xFF, 0xFF, 0xFF, 0, 0, 0, 1, 3, 0] := by decide
theorem test_unit_end : (after (exec .endMarker (fresh 3 4096))).map State.outbuf = some [0, 0, 0, 0, 0, 0, 0, 1] := by decide
theorem test_unit_out_of_range : faultOf (exec (.run 63) (fresh 3 4096)) = some .packerOperand := by decide

/-! The encodings that are never emitted (R83; L2.8's table at line 238), and RUN after RUN. -/

theorem test_never_diff_zero : faultOf (exec (.diff 0 0 0) (fresh 3 4096)) = some .neverEmitted := by decide
theorem test_never_luma_for_diff : faultOf (exec (.luma 0 0 0) (fresh 3 4096)) = some .neverEmitted := by decide
theorem test_never_rgb_in_four_channels : faultOf (exec (.rgb 100 0 0) (fresh 4 4096)) = some .neverEmitted := by decide
theorem test_never_rgba_in_three_channels : faultOf (exec (.rgba 1 2 3 255) (fresh 3 4096)) = some .neverEmitted := by decide
theorem test_never_rgb_of_prev : faultOf (exec (.rgb 0 0 0) (fresh 3 4096)) = some .neverEmitted := by decide
theorem test_never_run_after_run :
    ((after (exec (.run 5) { fresh 3 4096 with run := 5, pixCount := 81 })).map fun t => faultOf (exec (.run 5) t)) =
      some (some .neverEmitted) := by decide

theorem test_unit_without_session : faultOf (exec (.run 62) State.reset) = some .noSession := by decide

/-! ## A step -/

theorem test_step_runs_the_placed_command :
    (after (step (State.reset.withFetchWord 88 0x100000002000000010300))).map (fun t => (t.status, t.cfgWidth, t.port)) =
      some (1, 2, []) := by decide

theorem test_step_runs_the_placed_unit :
    (after (step (State.reset.withFetchWord 8 0x73))).map (fun t => (t.outbuf, t.packIn)) = some ([0x73], []) := by decide

/-- The zero operands of the rows RGB and RUN. -/
theorem test_step_runs_the_placed_rgb :
    (after (step (State.reset.withFetchWord 32 0x000000FE))).map State.outbuf = some [0xFE, 0, 0, 0] := by decide

theorem test_step_runs_the_placed_run :
    (after (step (State.reset.withFetchWord 8 0xC0))).map State.outbuf = some [0xC0] := by decide

theorem test_step_waits : (after (step State.reset)).map State.status = some 0 := by decide

/-- P4, step 5. -/
theorem test_step_resets :
    (after (step { fresh 3 16 with fsm := .error, errCode := .bounds, errInfo := 1, pixCount := 1, port := [.reset] })).map
        (fun t => (t.status, t.errInfo, t.pixCount)) = some (0, 0, 0) := by decide

/-- I8: the sink does not answer. -/
theorem test_step_held :
    (after (exec (.pixel 0 10 10 10 255) { fresh 3 2 with sinkIn := [.hold] })).map (fun t => (t.held, t.outbuf, t.sinkLog)) =
      some (true, [0xAA, 0x88], [.block [0xAA, 0x88]]) := by decide

/-- A SINK error inside a PIXEL: the pixel is counted; what RUN, PREV and ICACHE then hold is free (I12). -/
theorem test_step_sink_in_pixel :
    seen (exec (.pixel 0 10 10 10 255) { fresh 3 2 with sinkIn := [.fail 9] }) =
      some ⟨[.block [0xAA, 0x88]], 0x302, 9, 1⟩ := by decide

/-! ## The host's image buffer (spec/20_memory.md rule R65) -/

theorem test_pixelAt_rgb : pixelAt [1, 2, 3, 4, 5, 6] 3 1 = some (4, 5, 6, 255) := by decide

/-! ## Witnesses: a state and operands that meet all the hypotheses of an obligation together -/

theorem exists_next {o : Host.Outcome State Fault Refusal} (h : (after o).isSome = true) : ∃ t, o = .next t := by
  cases o with
  | next t => exact ⟨t, rfl⟩
  | fault f => simp [after] at h
  | refused r => simp [after] at h

/-- A fresh encode with the host's next transactions. -/
def driven (events : List PortEvent) : State := { fresh 3 16 with port := events }

theorem driven_inv (events : List PortEvent) : (driven events).Inv := by
  constructor <;> simp [driven, fresh, State.resetWith, icacheRead, headerFields]

/-- The same with 61 pixels of a run pending. -/
def running : State := { fresh 3 16 with run := 61 }

theorem running_inv : running.Inv := by
  constructor <;> simp [running, fresh, State.resetWith, icacheRead, headerFields]

/-- The same after its last pixel. -/
def finished : State := { fresh 3 16 with pixCount := 81 }

theorem finished_inv : finished.Inv := by
  constructor <;> simp [finished, fresh, State.resetWith, icacheRead, headerFields, State.total]

/-- A machine that a BOUNDS error has stopped, with the host's next transactions. -/
def stopped (events : List PortEvent) : State :=
  { fresh 3 16 with fsm := .error, errCode := .bounds, errInfo := 81, pixCount := 81, port := events }

theorem stopped_inv (events : List PortEvent) : (stopped events).Inv := by
  constructor <;> simp [stopped, fresh, State.resetWith]

/-- An idle machine with a 2 × 1 image on the command port, whose stream of 25 bytes is P1's. -/
def encodeState (cap : Nat) : State :=
  { State.resetWith cap with
    port := commandWords (imageCommands 2 1 3 0 [(10, 10, 10, 255), (10, 10, 10, 255)])
    sinkIn := [.ok, .ok, .ok, .ok, .ok] }

theorem encodeState_inv {cap : Nat} (h : 1 ≤ cap) : (encodeState cap).Inv := by
  constructor <;> simp [encodeState, State.resetWith] <;> omega

theorem witness_EncodeThenDecodeIsIdentity :
    (Instr.luma 31 7 (-8)).WellFormed ∧ (Instr.header 4294967295 1 4 1).WellFormed ∧ (Instr.run 62).WellFormed := by decide

theorem witness_OpcodeByteSelectsOneKind : ∃ rest : List Byte, 4 ≤ rest.length := ⟨[1, 2, 3, 4], by decide⟩

theorem witness_StepRunsDecodedCommand :
    ∃ (s : State) (w : CommandWord) (rest : List PortEvent), s.packIn = [] ∧ s.held = false ∧ s.port = .command w :: rest :=
  ⟨driven [.command 0x20000000000000A0A0AFF#82], 0x20000000000000A0A0AFF#82, [], by decide⟩

theorem witness_StepRunsDecodedUnit :
    ∃ (s : State) (i : Instr), s.packIn ≠ [] ∧ s.held = false ∧ decodeUnit s.packIn = .ok i :=
  ⟨{ fresh 3 16 with packIn := [0x35] }, .index 53, by decide, by decide, by rfl⟩

theorem witness_StepResets :
    (∃ (s : State) (rest : List PortEvent), s.packIn = [] ∧ s.port = .reset :: rest) ∧
    (∃ (s : State) (rest : List PortEvent), s.held = true ∧ s.port = .reset :: rest) :=
  ⟨⟨driven [.reset], [], by decide⟩, ⟨{ driven [.reset] with held := true }, [], by decide⟩⟩

theorem witness_StepWaitsForTheHost :
    (∃ s : State, s.packIn = [] ∧ s.port = []) ∧ (∃ s : State, s.held = true ∧ s.port = []) :=
  ⟨⟨fresh 3 16, by decide⟩, ⟨{ fresh 3 16 with held := true }, by decide⟩⟩

theorem witness_HeldMachineExecutesNoCommand :
    (∃ (s : State) (w : CommandWord) (rest : List PortEvent), s.held = true ∧ s.port = .command w :: rest) ∧
    (∃ (s t : State) (rest : List PortEvent), s.held = true ∧ step s = .next t ∧ s.port = .reset :: rest) ∧
    (∃ s t : State, s.held = true ∧ step s = .next t ∧ s.port = []) :=
  ⟨⟨{ driven [.command 0#82] with held := true }, 0#82, [], by decide⟩,
    ⟨{ driven [.reset] with held := true }, _, [], by decide, rfl, by decide⟩,
    ⟨{ driven [] with held := true }, _, by decide, rfl, by decide⟩⟩

/-- With a capacity of 14 the header fills OUTBUF exactly. -/
theorem witness_StartBeginsEncode :
    ∃ s : State, s.fsm = .idle ∧ headerLegal 1 4294967295 4 1 ∧ 1 ≤ s.bufCap ∧ s.outbuf = [] ∧ accepts s (14 / s.bufCap) :=
  ⟨{ State.resetWith 14 with sinkIn := [.ok] }, by decide⟩

theorem witness_StartRefusesIllegalFields :
    State.reset.fsm = .idle ∧ (0 : U32) = 0 ∧
    ((1 : U32) ≠ 0 ∧ (0 : U32) = 0) ∧
    ((1 : U32) ≠ 0 ∧ (1 : U32) ≠ 0 ∧ ¬ ((5 : Byte) = 3#8 ∨ (5 : Byte) = 4#8)) ∧
    ((1 : U32) ≠ 0 ∧ (1 : U32) ≠ 0 ∧ ((4 : Byte) = 3#8 ∨ (4 : Byte) = 4#8) ∧ ¬ ((2 : Byte) = 0#8 ∨ (2 : Byte) = 1#8)) := by
  decide

theorem witness_OutOfStateCommandsRaiseProtocol :
    State.reset.fsm = .idle ∧ (fresh 3 16).fsm = .encoding ∧ { fresh 3 16 with fsm := .error }.fsm = .error := by decide

theorem witness_ErrorIgnoresCommands :
    ∃ (s : State) (i : Instr), s.fsm = .error ∧ i.isCommand = true :=
  ⟨{ fresh 3 16 with fsm := .error, errCode := .bounds }, .start 1 1 3 0, by decide⟩

/-- Each command that raises an error in a session, and each of the three ends. -/
theorem witness_ErrorExitFlushesAndCloses :
    ((∃ s : State, s.fsm = .encoding ∧ s.outbuf = []) ∧
      (∃ s : State, s.fsm = .encoding ∧ s.outbuf ≠ [] ∧ answerAt s 0 = .ok) ∧
      (∃ (s : State) (sinkCode : U32), s.fsm = .encoding ∧ s.outbuf ≠ [] ∧ answerAt s 0 = .fail sinkCode)) ∧
    (∃ s : State, s.fsm = .encoding ∧ s.pixCount.toNat = s.total ∧ s.outbuf ≠ [] ∧ answerAt s 0 = .ok) ∧
    (∃ s : State, s.fsm = .encoding ∧ s.pixCount.toNat ≠ s.total ∧ s.outbuf ≠ [] ∧ answerAt s 0 = .ok) :=
  ⟨⟨⟨fresh 3 16, by decide⟩, ⟨{ fresh 3 16 with outbuf := [1] }, by decide⟩,
      ⟨{ fresh 3 16 with outbuf := [1], sinkIn := [.fail 5] }, 5, by decide⟩⟩,
    ⟨{ fresh 3 16 with outbuf := [1], pixCount := 81 }, by decide⟩,
    ⟨{ fresh 3 16 with outbuf := [1], pixCount := 80 }, by decide⟩⟩

/-- The pixel (100,0,0) after a run of 61, a 5-byte emission that fills a buffer of 5 from empty. -/
theorem witness_PixelFollowsDecisionTable :
    ∃ s : State, s.fsm = .encoding ∧ s.pixCount.toNat ≠ s.total ∧ s.run.toNat ≤ 61 ∧ s.outbuf.length < s.bufCap ∧
      accepts s (blocksDue s (streamBytes
        (decisionTable s.cfgChannels (pixelOf s.cfgChannels 100 0 0 255) s.prev s.run.toNat s.icache).chunks)) :=
  ⟨{ fresh 3 5 with run := 61 }, by decide⟩

theorem witness_RunPixelOnlyCounts :
    (∃ s : State, s.fsm = .encoding ∧ s.pixCount.toNat ≠ s.total ∧ pixelOf s.cfgChannels 0 0 0 7 = s.prev ∧ s.run.toNat < 61) ∧
    (∃ s : State, s.fsm = .encoding ∧ s.pixCount.toNat ≠ s.total ∧ pixelOf s.cfgChannels 0 0 0 7 = s.prev ∧
      s.run.toNat = 61 ∧ s.outbuf.length < s.bufCap ∧ accepts s (blocksDue s [0xFD])) :=
  ⟨⟨{ fresh 3 1 with run := 60 }, by decide⟩, ⟨{ fresh 3 1 with run := 61 }, by decide⟩⟩

theorem witness_IndexHitEmitsSlotAndKeepsCache :
    ∃ s : State, s.fsm = .encoding ∧ s.pixCount.toNat ≠ s.total ∧ s.run.toNat ≤ 61 ∧ s.outbuf.length < s.bufCap ∧
      pixelOf s.cfgChannels 0 0 0 0 ≠ s.prev ∧
      icacheRead (pixelHash (pixelOf s.cfgChannels 0 0 0 0)) s = pixelOf s.cfgChannels 0 0 0 0 ∧
      accepts s (blocksDue s (streamBytes (pendingRun s.run.toNat) ++
        [BitVec.ofNat 8 (pixelHash (pixelOf s.cfgChannels 0 0 0 0)).toNat])) :=
  ⟨{ fresh 4 2 with run := 3 }, by decide⟩

theorem witness_IndexMissOverwritesItsSlot :
    ∃ s : State, s.fsm = .encoding ∧ s.pixCount.toNat ≠ s.total ∧ s.run.toNat ≤ 61 ∧ s.outbuf.length < s.bufCap ∧
      accepts s ((s.outbuf.length + 6) / s.bufCap) ∧ pixelOf s.cfgChannels 64 0 0 255 ≠ s.prev ∧
      icacheRead (pixelHash (pixelOf s.cfgChannels 64 0 0 255)) s ≠ pixelOf s.cfgChannels 64 0 0 255 :=
  ⟨{ fresh 3 2 with run := 61 }, by decide⟩

theorem witness_AlphaChangeForcesRgba :
    ∃ s : State, s.fsm = .encoding ∧ s.pixCount.toNat ≠ s.total ∧ s.cfgChannels = 4 ∧ s.run.toNat ≤ 61 ∧
      s.outbuf.length < s.bufCap ∧ (254 : Byte) ≠ s.prev.a ∧ icacheRead (pixelHash ⟨0, 0, 0, 254⟩) s ≠ ⟨0, 0, 0, 254⟩ ∧
      accepts s (blocksDue s (streamBytes (pendingRun s.run.toNat) ++ [0xFF, 0, 0, 0, 254])) :=
  ⟨{ fresh 4 3 with run := 61 }, by decide⟩

theorem witness_PixelNeverEmitsExcludedChunks :
    running.Inv ∧ running.fsm = .encoding ∧ running.held = false ∧ running.pixCount.toNat ≠ running.total ∧
      accepts running ((running.outbuf.length + 6) / running.bufCap) :=
  ⟨running_inv, by decide⟩

theorem witness_PixelEmitsAtMostSixBytes :
    (driven []).Inv ∧ (driven []).fsm = .encoding ∧ (driven []).held = false ∧
      (driven []).pixCount.toNat ≠ (driven []).total ∧ accepts (driven []) (((driven []).outbuf.length + 6) / (driven []).bufCap) :=
  ⟨driven_inv [], by decide⟩

theorem witness_PixelEmitsAtMostSixBytes_run :
    running.Inv ∧ running.fsm = .encoding ∧ running.held = false ∧ running.pixCount.toNat ≠ running.total ∧
      accepts running ((running.outbuf.length + 6) / running.bufCap) ∧ pixelOf running.cfgChannels 0 0 0 0 = running.prev ∧
      running.run.toNat = 61 :=
  ⟨running_inv, by decide⟩

theorem witness_ExtraPixelIsBounds : ∃ s : State, s.fsm = .encoding ∧ s.pixCount.toNat = s.total :=
  ⟨{ fresh 3 16 with pixCount := 81 }, by decide⟩

/-- A run of 62, which only a state outside a run of commands has, and a capacity that leaves a partial block. -/
theorem witness_CloseEndsEncode :
    ∃ s : State, s.fsm = .encoding ∧ s.pixCount.toNat = s.total ∧ s.run.toNat ≤ 62 ∧ s.outbuf.length < s.bufCap ∧
      accepts s (((s.outbuf ++ streamBytes (pendingRun s.run.toNat ++ [.endMarker])).length + s.bufCap - 1) / s.bufCap) :=
  ⟨{ fresh 3 8 with pixCount := 81, run := 62 }, by decide⟩

theorem witness_ShortCloseIsMalformed : ∃ s : State, s.fsm = .encoding ∧ s.pixCount.toNat ≠ s.total :=
  ⟨{ fresh 3 16 with pixCount := 80 }, by decide⟩

/-- One failing block for each part: the pending run's, the end marker's, the partial one. -/
theorem witness_CloseBlockFailureIsSink :
    (∃ (s : State) (k : Nat) (code : U32), s.fsm = .encoding ∧ s.pixCount.toNat = s.total ∧ s.run.toNat ≤ 62 ∧
      s.outbuf.length < s.bufCap ∧ accepts s k ∧ answerAt s k = .fail code ∧
      k < blocksDue s (streamBytes (pendingRun s.run.toNat))) ∧
    (∃ (s : State) (k : Nat) (code : U32), s.fsm = .encoding ∧ s.pixCount.toNat = s.total ∧ s.run.toNat ≤ 62 ∧
      s.outbuf.length < s.bufCap ∧ accepts s k ∧ answerAt s k = .fail code ∧
      ¬ k < blocksDue s (streamBytes (pendingRun s.run.toNat)) ∧
      k < blocksDue s (streamBytes (pendingRun s.run.toNat ++ [.endMarker]))) ∧
    (∃ (s : State) (k : Nat) (code : U32), s.fsm = .encoding ∧ s.pixCount.toNat = s.total ∧ s.run.toNat ≤ 62 ∧
      s.outbuf.length < s.bufCap ∧ accepts s k ∧ answerAt s k = .fail code ∧
      k = blocksDue s (streamBytes (pendingRun s.run.toNat ++ [.endMarker])) ∧
      k < (sessionBlocks s.bufCap (s.outbuf ++ streamBytes (pendingRun s.run.toNat ++ [.endMarker]))).length) :=
  ⟨⟨{ fresh 3 8 with pixCount := 81, run := 62, outbuf := List.replicate 7 1, sinkIn := [.fail 5] }, 0, 5, by decide⟩,
    ⟨{ fresh 3 8 with pixCount := 81, run := 1, sinkIn := [.fail 5] }, 0, 5, by decide⟩,
    ⟨{ fresh 3 8 with pixCount := 81, run := 1, sinkIn := [.ok, .fail 0x1C] }, 1, 0x1C, by decide⟩⟩

/-- The hypotheses of the row statements together: a session, the operand ranges at their ends, a buffer that the unit
fills, and a sink that accepts. -/
theorem witness_IndexRowEmitsItsByte :
    ∃ s : State, s.fsm = .encoding ∧ s.outbuf.length < s.bufCap ∧ accepts s (blocksDue s [BitVec.ofNat 8 (63 : Slot).toNat]) :=
  ⟨fresh 3 1, by decide⟩

theorem witness_DiffRowEmitsItsByte :
    ∃ s : State, inDiff (-2) ∧ inDiff 1 ∧ inDiff 0 ∧ ¬ ((-2 : Int) = 0 ∧ (1 : Int) = 0 ∧ (0 : Int) = 0) ∧ s.fsm = .encoding ∧ s.outbuf.length < s.bufCap ∧
      accepts s (blocksDue s [BitVec.ofInt 8 (64 + 16 * (-2 + 2) + 4 * (1 + 2) + (0 + 2))]) :=
  ⟨fresh 3 1, by decide⟩

theorem witness_LumaRowEmitsItsTwoBytes :
    ∃ s : State, inLumaG 31 ∧ inLumaRB 7 ∧ inLumaRB (-8) ∧ ¬ (inDiff (7 + 31) ∧ inDiff 31 ∧ inDiff (-8 + 31)) ∧ s.fsm = .encoding ∧ s.outbuf.length < s.bufCap ∧
      accepts s (blocksDue s [BitVec.ofInt 8 (128 + (31 + 32)), BitVec.ofInt 8 (16 * (7 + 8) + (-8 + 8))]) :=
  ⟨fresh 3 2, by decide⟩

theorem witness_RawRowsEmitTagAndChannels :
    (∃ s : State, s.fsm = .encoding ∧ s.outbuf.length < s.bufCap ∧ s.cfgChannels = 3 ∧
      ¬ ((0 : Byte) = s.prev.r ∧ (0 : Byte) = s.prev.g ∧ (1 : Byte) = s.prev.b) ∧ accepts s (blocksDue s [0xFE, 0, 0, 1])) ∧
    (∃ s : State, s.fsm = .encoding ∧ s.outbuf.length < s.bufCap ∧ s.cfgChannels = 4 ∧ (⟨0, 0, 0, 254⟩ : Pixel) ≠ s.prev ∧
      accepts s (blocksDue s [0xFF, 0, 0, 0, 254])) :=
  ⟨⟨fresh 3 2, by decide⟩, ⟨fresh 4 2, by decide⟩⟩

theorem witness_RunRowEmitsItsByteAndClearsRun :
    (∃ s : State, 1 ≤ 62 ∧ 62 ≤ 62 ∧ s.run.toNat = 62 ∧ s.fsm = .encoding ∧ s.outbuf.length < s.bufCap ∧
      accepts s (blocksDue s [BitVec.ofNat 8 (192 + (62 - 1))])) ∧
    (∃ s : State, 1 ≤ 1 ∧ 1 ≤ 62 ∧ s.run.toNat = 1 ∧ s.pixCount.toNat = s.total ∧ s.fsm = .encoding ∧
      s.outbuf.length < s.bufCap ∧ accepts s (blocksDue s [BitVec.ofNat 8 (192 + (1 - 1))])) :=
  ⟨⟨{ fresh 3 1 with run := 62 }, by decide⟩, ⟨{ fresh 3 1 with run := 1, pixCount := 81 }, by decide⟩⟩

theorem witness_HeaderRowEmitsFourteenBytes :
    ∃ s : State, headerFields 4 1 ∧ s.fsm = .encoding ∧ s.outbuf.length < s.bufCap ∧
      accepts s (blocksDue s (unitBytes (.header 4294967295 0 4 1))) :=
  ⟨fresh 4 5, by decide⟩

theorem witness_EndRowEmitsTheMarker :
    ∃ s : State, s.fsm = .encoding ∧ s.outbuf.length < s.bufCap ∧ accepts s (blocksDue s [0, 0, 0, 0, 0, 0, 0, 1]) :=
  ⟨fresh 3 4, by decide⟩

theorem witness_UnitsStopOutsideTheirDomain :
    (fresh 3 16).fsm = .encoding ∧ ((Instr.run 63).isCommand = false ∧ (Instr.run 63).wf = false) ∧
      (inDiff (3 + -2) ∧ inDiff (-2) ∧ inDiff (3 + -2)) ∧
      ((fresh 4 16).fsm = .encoding ∧ (fresh 4 16).cfgChannels ≠ 3) ∧
      ((0 : Byte) = (fresh 3 16).prev.r ∧ (0 : Byte) = (fresh 3 16).prev.g ∧ (0 : Byte) = (fresh 3 16).prev.b) ∧
      (fresh 3 16).cfgChannels ≠ 4 ∧ (⟨0, 0, 0, 255⟩ : Pixel) = (fresh 4 16).prev ∧
      (1 ≤ 1 ∧ 1 ≤ 62 ∧ ¬ ((fresh 3 16).run.toNat = 1 ∧ (1 = 62 ∨ (fresh 3 16).pixCount.toNat = (fresh 3 16).total))) ∧
      State.reset.fsm = .idle ∧ { fresh 3 16 with fsm := .error }.fsm = .error := by decide

theorem witness_EmittedStreamIsCutIntoBlocks :
    ∃ (s : State) (i : Instr), i.isCommand = false ∧ i.WellFormed ∧ mayEmit i s = true ∧ s.fsm = .encoding ∧ s.outbuf.length < s.bufCap ∧
      accepts s (blocksDue s (unitBytes i)) :=
  ⟨{ fresh 4 3 with outbuf := [1, 2] }, .rgba 1 2 3 4, by decide⟩

theorem witness_UnitBlockFailureIsSink :
    ∃ (s : State) (i : Instr) (k : Nat) (code : U32), i.isCommand = false ∧ i.WellFormed ∧ mayEmit i s = true ∧ s.fsm = .encoding ∧
      s.outbuf.length < s.bufCap ∧ k < blocksDue s (unitBytes i) ∧ accepts s k ∧ answerAt s k = .fail code :=
  ⟨{ fresh 4 3 with outbuf := [1, 2], sinkIn := [.ok, .fail 9] }, .rgba 1 2 3 4, 1, 9, by decide⟩

theorem witness_UnitHeldOnUnansweredBlock :
    ∃ (s : State) (i : Instr) (k : Nat), i.isCommand = false ∧ i.WellFormed ∧ mayEmit i s = true ∧ s.fsm = .encoding ∧
      s.outbuf.length < s.bufCap ∧ k < blocksDue s (unitBytes i) ∧ accepts s k ∧ answerAt s k = .hold :=
  ⟨{ fresh 4 3 with outbuf := [1, 2], sinkIn := [.ok, .hold] }, .rgba 1 2 3 4, 1, by decide⟩

/-- A PIXEL whose two bytes fill the buffer, and a sink that does not answer. -/
def blocked : State := { fresh 3 16 with outbuf := List.replicate 14 7, sinkIn := [.hold] }

theorem blocked_inv : blocked.Inv := by
  constructor <;> simp [blocked, fresh, State.resetWith, icacheRead, headerFields]

theorem witness_HeldCommandWaitsAtItsBlock :
    ∃ s t : State, s.Inv ∧ s.held = false ∧ exec (.pixel 0 10 10 10 255) s = .next t ∧ t.held = true :=
  ⟨blocked, _, blocked_inv, by decide, rfl, by decide⟩

theorem witness_PixelBlockFailureIsSink :
    ∃ (s : State) (k : Nat) (code : U32), s.fsm = .encoding ∧ s.pixCount.toNat ≠ s.total ∧ s.run.toNat ≤ 61 ∧
      s.outbuf.length < s.bufCap ∧
      k < blocksDue s (streamBytes
        (decisionTable s.cfgChannels (pixelOf s.cfgChannels 10 10 10 255) s.prev s.run.toNat s.icache).chunks) ∧
      accepts s k ∧ answerAt s k = .fail code :=
  ⟨{ fresh 3 1 with run := 2, sinkIn := [.ok, .ok, .fail 3] }, 2, 3, by decide⟩

theorem witness_StartBlockFailureIsSink :
    ∃ (s : State) (k : Nat) (code : U32), s.fsm = .idle ∧ headerLegal 2 1 3 0 ∧ 1 ≤ s.bufCap ∧ s.outbuf = [] ∧
      k < 14 / s.bufCap ∧ accepts s k ∧ answerAt s k = .fail code :=
  ⟨{ State.resetWith 5 with sinkIn := [.ok, .fail 7] }, 1, 7, by decide⟩

/-- A step of a fresh encode that runs the PIXEL (10,10,10). -/
theorem witness_StepKeepsInvariant : ∃ s t : State, s.Inv ∧ step s = .next t := by
  obtain ⟨t, h⟩ := exists_next (o := step (driven [.command 0x20000000000000A0A0AFF#82])) (by decide)
  exact ⟨_, t, driven_inv _, h⟩

theorem witness_ResetStateMeetsInvariant : ∃ cap : Nat, 1 ≤ cap := ⟨1, by decide⟩

theorem witness_StepAnswersANextState : ∃ s : State, s.Inv ∧ s.held = false ∧ s.packIn = [] :=
  ⟨driven [.command 0#82], driven_inv _, by decide⟩

theorem witness_ErrorIsLeftOnlyByReset :
    (∃ s t : State, s.fsm = .error ∧ step s = .next t ∧ t.fsm = .idle) ∧
    (∃ s t : State, s.fsm = .error ∧ step s = .next t ∧ t.fsm = .error) :=
  ⟨⟨stopped [.reset], _, by decide, rfl, by decide⟩, ⟨stopped [.command 0#82], _, by decide, rfl, by decide⟩⟩

/-- One state for each clause: START from IDLE, CLOSE after the last pixel, a command in ERROR, a PIXEL in IDLE. -/
theorem witness_FsmMovesOnlyAsListed :
    (∃ s t : State, s.Inv ∧ exec (.start 2 1 3 0) s = .next t ∧ s.fsm = .idle ∧ t.fsm = .encoding) ∧
    (∃ s t : State, s.Inv ∧ exec (.close 0) s = .next t ∧ s.fsm = .encoding ∧ t.fsm = .idle) ∧
    (∃ s t : State, s.Inv ∧ exec (.close 0) s = .next t ∧ s.fsm = .error) ∧
    (∃ s t : State, s.Inv ∧ exec (.pixel 0 1 2 3 4) s = .next t ∧ s.fsm ≠ .error ∧ t.fsm = .error) :=
  ⟨⟨encodeState 16, _, encodeState_inv (by decide), rfl, by decide, by decide⟩,
    ⟨finished, _, finished_inv, rfl, by decide, by decide⟩, ⟨stopped [], _, stopped_inv [], rfl, by decide⟩,
    ⟨encodeState 16, _, encodeState_inv (by decide), rfl, by decide, by decide⟩⟩

theorem witness_SinkIsSilentOutsideASession :
    ∃ s t : State, s.fsm ≠ .encoding ∧ exec (.start 0 1 3 0) s = .next t := ⟨State.resetWith 16, _, by decide, rfl⟩

theorem witness_SinkEventsAreAppendedInBlocks : ∃ s t : State, s.Inv ∧ step s = .next t := witness_StepKeepsInvariant

/-- A START that is held on its first block, and a CLOSE. -/
theorem witness_OnlyStartWritesConfiguration :
    (∃ s t : State, exec (.start 2 1 3 0) s = .next t ∧ headerLegal 2 1 3 0 ∧ s.fsm = .idle ∧ t.held = true) ∧
    (∃ s t : State, exec (.close 0) s = .next t ∧
      ¬ ∃ w h ch cs, Instr.close 0 = .start w h ch cs ∧ headerLegal w h ch cs ∧ s.fsm = .idle) :=
  ⟨⟨{ State.resetWith 5 with sinkIn := [.hold] }, _, rfl, by decide, rfl, by decide⟩, ⟨driven [], _, rfl, by simp⟩⟩

/-- One state and instruction for each clause: START, a PIXEL, a CLOSE. -/
theorem witness_PixCountAdvancesByOnePerPixel :
    (∃ s t : State, s.Inv ∧ exec (.start 2 1 3 0) s = .next t ∧ headerLegal 2 1 3 0 ∧ s.fsm = .idle) ∧
    (∃ s t : State, s.Inv ∧ exec (.pixel 0 1 1 1 255) s = .next t ∧ s.fsm = .encoding ∧ s.pixCount.toNat ≠ s.total) ∧
    (∃ s t : State, s.Inv ∧ exec (.close 0) s = .next t ∧
      (¬ ∃ w h ch cs, Instr.close 0 = .start w h ch cs ∧ headerLegal w h ch cs ∧ s.fsm = .idle) ∧
      (¬ ∃ ign r g b a, Instr.close 0 = .pixel ign r g b a ∧ s.fsm = .encoding ∧ s.pixCount.toNat ≠ s.total)) :=
  ⟨⟨encodeState 16, _, encodeState_inv (by decide), rfl, by decide, rfl⟩,
    ⟨driven [], _, driven_inv [], rfl, rfl, by decide⟩, ⟨driven [], _, driven_inv [], rfl, by simp, by simp⟩⟩

theorem witness_OnlyPixelWritesOneSlot :
    ∃ s t : State, (∀ w h ch cs, Instr.pixel 0 9 9 9 255 ≠ .start w h ch cs) ∧ exec (.pixel 0 9 9 9 255) s = .next t ∧
      t.icache ≠ s.icache :=
  ⟨fresh 3 16, _, by intros; simp, rfl, by decide⟩

theorem witness_UnspecifiedRegistersAreNeverRead :
    ∃ s t : State, (Instr.start 2 1 3 0).isCommand = true ∧ s.fsm ≠ .encoding ∧ t.prev ≠ s.prev ∧ t.run ≠ s.run ∧
      t = { s with
        cfgWidth := t.cfgWidth, cfgHeight := t.cfgHeight, cfgChannels := t.cfgChannels, cfgColorspace := t.cfgColorspace
        prev := t.prev, run := t.run, icache := t.icache } :=
  ⟨State.reset, { State.reset with prev := ⟨1, 2, 3, 4⟩, run := 7 }, by decide, by decide, by decide, by decide, rfl⟩

/-- Two words for each clause that differ in ignored bits alone. -/
theorem witness_IgnoredBitsHaveNoEffect :
    (∃ v w : CommandWord, v ≠ w ∧ v.extractLsb' 80 2 = 0b10#2 ∧ w.extractLsb' 80 2 = 0b10#2 ∧
      v.extractLsb' 0 32 = w.extractLsb' 0 32) ∧
    (∃ v w : CommandWord, v ≠ w ∧ v.extractLsb' 80 2 = 0b10#2 ∧ w.extractLsb' 80 2 = 0b10#2 ∧
      (fresh 3 16).cfgChannels = 3#8 ∧ v.extractLsb' 8 24 = w.extractLsb' 8 24 ∧ v.extractLsb' 0 8 ≠ w.extractLsb' 0 8) ∧
    (∃ v w : CommandWord, v ≠ w ∧ v.extractLsb' 80 2 = 0b11#2 ∧ w.extractLsb' 80 2 = 0b11#2) ∧
    (∃ v w : CommandWord, v ≠ w ∧ v.extractLsb' 80 2 = 0b00#2 ∧ w.extractLsb' 80 2 = 0b00#2) :=
  ⟨⟨0x20000000000000A0A0AFF#82, 0x2FFFFFFFFFFFF0A0A0AFF#82, by decide⟩,
    ⟨0x20000000000000A0A0AFF#82, 0x20000000000000A0A0A00#82, by decide⟩,
    ⟨0x300000000000000000000#82, 0x300000000000000000001#82, by decide⟩, ⟨0#82, 1#82, by decide⟩⟩

theorem witness_HashNeedsOnlySixBits : ∃ n : Nat, 6 ≤ n := ⟨6, by decide⟩

theorem witness_PixelOfForcesAlphaInThreeChannels : (3 : Byte) = 3#8 ∧ (4 : Byte) ≠ 3#8 := by decide

theorem witness_LumaTestIsWidthIndependent : inLumaG (delta 31 0) ∧ inLumaRB (delta 38 0 - delta 31 0) := by decide

/-- P1's stream. -/
theorem test_imageBytes :
    imageBytes 2 1 3 0 [(10, 10, 10, 255), (10, 10, 10, 255)] =
      [0x71, 0x6F, 0x69, 0x66, 0, 0, 0, 2, 0, 0, 0, 1, 3, 0, 0xAA, 0x88, 0xC0, 0, 0, 0, 0, 0, 0, 0, 1] := by decide

/-- P1's pixels with ignored bits set. -/
def twoPixels : List (BitVec 48 × Byte × Byte × Byte × Byte) := [(0xFFFFFFFFFFFF, 10, 10, 10, 255), (7, 10, 10, 10, 0)]

/-- An idle machine with that image on the command port. -/
def encodeStateIgnored (cap : Nat) : State :=
  { encodeState cap with port := commandWords (encodeCommands 2 1 3 0 twoPixels 5) }

theorem encodeStateIgnored_inv {cap : Nat} (h : 1 ≤ cap) : (encodeStateIgnored cap).Inv := by
  constructor <;> simp [encodeStateIgnored, encodeState, State.resetWith] <;> omega

theorem witness_WholeEncodeDeliversTheStream :
    (encodeStateIgnored 16).Inv ∧ (encodeStateIgnored 16).fsm = .idle ∧ (encodeStateIgnored 16).packIn = [] ∧
      headerLegal 2 1 3 0 ∧ twoPixels.length = (2 : U32).toNat * (1 : U32).toNat ∧
      (encodeStateIgnored 16).port = commandWords (encodeCommands 2 1 3 0 twoPixels 5) ++ [] ∧
      accepts (encodeStateIgnored 16) (((imageBytes 2 1 3 0 (twoPixels.map Prod.snd)).length + 16 - 1) / 16) :=
  ⟨encodeStateIgnored_inv (by decide), rfl, rfl, by decide, by decide, by decide, by decide⟩

/-- The same image with capacities 16 and 5, once with every ignored bit 0 and once with other ones. -/
theorem witness_EncodesAreIdempotent :
    (encodeState 16).Inv ∧ (encodeStateIgnored 5).Inv ∧ (encodeState 16).fsm = .idle ∧ (encodeStateIgnored 5).fsm = .idle ∧
      (encodeState 16).packIn = [] ∧ (encodeStateIgnored 5).packIn = [] ∧ headerLegal 2 1 3 0 ∧
      [((0 : BitVec 48), (10 : Byte), (10 : Byte), (10 : Byte), (255 : Byte)), (0, 10, 10, 10, 255)].length =
        (2 : U32).toNat * (1 : U32).toNat ∧
      ([((0 : BitVec 48), (10 : Byte), (10 : Byte), (10 : Byte), (255 : Byte)), (0, 10, 10, 10, 255)].map
        fun (_, r, g, b, a) => pixelOf 3 r g b a) = (twoPixels.map fun (_, r, g, b, a) => pixelOf 3 r g b a) ∧
      (encodeState 16).port = commandWords (encodeCommands 2 1 3 0 [(0, 10, 10, 10, 255), (0, 10, 10, 10, 255)] 0) ∧
      (encodeStateIgnored 5).port = commandWords (encodeCommands 2 1 3 0 twoPixels 5) ∧
      accepts (encodeState 16) (((imageBytes 2 1 3 0 [(10, 10, 10, 255), (10, 10, 10, 255)]).length + 16 - 1) / 16) ∧
      accepts (encodeStateIgnored 5) (((imageBytes 2 1 3 0 (twoPixels.map Prod.snd)).length + 5 - 1) / 5) :=
  ⟨encodeState_inv (by decide), encodeStateIgnored_inv (by decide), rfl, rfl, rfl, rfl, by decide, by decide, by decide, rfl,
    rfl, by decide, by decide⟩

end Sys2Proof.Tests
end

section
/-!
SUPPORT. A command never stops the machine (spec/00_scope.md rule R12, spec/43_chunk_encoder.md rule R179). The only stop a
command's statements could come to is a packer called out of its range, so the idea is to carry "does not stop" through
every operation; RUN ≤ 62, which the invariant gives, is what keeps the pending run in PackRUN's range.
-/

namespace Sys2Proof.Machine

/-! ## Statements that do not stop the machine -/

/-- The statement goes on to the next one or ends its command early, in a next state either way (R12). -/
def Flow.NeverStops (x : Flow) : Prop := ∀ e, x ≠ .stop e

@[simp] theorem Flow.neverStops_go (s : State) : (Flow.go s).NeverStops := nofun
@[simp] theorem Flow.neverStops_halt (s : State) : (Flow.halt s).NeverStops := nofun

theorem Flow.NeverStops.bind {x : Flow} {f : State → Flow} (hx : x.NeverStops) (hf : ∀ s, (f s).NeverStops) :
    (x.bind f).NeverStops := by
  cases x with
  | go s => exact hf s
  | halt s => exact Flow.neverStops_halt s
  | stop e => exact absurd rfl (hx e)

theorem Flow.NeverStops.forgetScanOnError {x : Flow} (hx : x.NeverStops) : x.forgetScanOnError.NeverStops := by
  cases x with
  | go s => exact Flow.neverStops_go s
  | halt s => exact Flow.neverStops_halt _
  | stop e => exact absurd rfl (hx e)

theorem Flow.NeverStops.outcome_next {x : Flow} (hx : x.NeverStops) : ∃ t, x.outcome = .next t := by
  cases x with
  | go s => exact ⟨s, rfl⟩
  | halt s => exact ⟨s, rfl⟩
  | stop e => exact absurd rfl (hx e)

/-! ## Error entry, the serializer and the selector -/

theorem raiseError_neverStops (code : ErrorCode) (info : U64) (s : State) : (raiseError code info s).NeverStops := by
  by_cases h : s.fsm = .encoding ∧ code ≠ .sink
  · rw [raiseError_session code info s h.1 h.2]; exact Flow.neverStops_halt _
  · rw [raiseError_silent code info s (by tauto)]; exact Flow.neverStops_halt _

/-- An Emit goes on over the accepted blocks and ends its command at a failed or an unanswered one (R190 to R193). -/
theorem emit_neverStops (bytes : List Byte) (s : State) : (emit bytes s).NeverStops := by
  induction bytes generalizing s with
  | nil => exact Flow.neverStops_go s
  | cons b bs ih =>
    rw [emit_cons]
    split
    · cases answerAt s 0 with
      | ok => exact ih _
      | fail code => exact Flow.neverStops_halt _
      | hold => exact Flow.neverStops_halt _
    · exact ih _

theorem finalFlushAndClose_neverStops (s : State) : (finalFlushAndClose s).NeverStops := by
  by_cases hempty : s.outbuf = []
  · rw [finalFlushAndClose_accepted s (absurd hempty)]; exact Flow.neverStops_go _
  · cases ha : answerAt s 0 with
    | ok => rw [finalFlushAndClose_accepted s fun _ => ha]; exact Flow.neverStops_go _
    | fail code => rw [finalFlushAndClose_failed s code hempty ha]; exact Flow.neverStops_halt _
    | hold => rw [finalFlushAndClose_held s hempty ha]; exact Flow.neverStops_halt _

/-- PackRUN is called in its range (R173, R179). -/
theorem emitRun_neverStops {n : Nat} (h : inRun n) (s : State) : (emitRun n s).NeverStops := by
  rw [emitRun_eq h]
  exact (emit_neverStops _ s).bind fun _ => Flow.neverStops_go _

theorem endRun_neverStops (s : State) (hrun : s.run.toNat ≤ 62) : (endRun s).NeverStops := by
  rw [endRun_eq s hrun]
  exact (emit_neverStops _ s).bind fun _ => Flow.neverStops_go _

theorem continueRun_neverStops (s : State) : (continueRun s).NeverStops := by
  rw [continueRun]
  split
  · exact emitRun_neverStops (by decide) _
  · exact Flow.neverStops_go _

/-- The selector calls every packer in its range (R140 to R153, R179). -/
theorem encodePixel_neverStops (px : Pixel) (s : State) (hrun : s.run.toNat ≤ 62) : (encodePixel px s).NeverStops := by
  by_cases he : px = s.prev
  · rw [encodePixel_run he]; exact continueRun_neverStops s
  · rw [encodePixel_ne he]
    have hchunk (t : State) : (emitChunk px t).NeverStops := by rw [emitChunk_eq]; exact emit_neverStops _ _
    exact ((endRun_neverStops s hrun).bind hchunk).bind fun _ => Flow.neverStops_go _

/-! ## The four commands -/

/-- The header is packed after START's checks, so in PackHeader's range (R121, R176). -/
theorem startIdle_neverStops (w h : U32) (ch cs : Byte) (s : State) : (startIdle w h ch cs s).NeverStops := by
  rw [startIdle]
  split
  next info _ => exact raiseError_neverStops _ _ s
  next hv =>
    obtain ⟨-, -, hfields⟩ := (validate_eq_none_iff w h ch cs).mp hv
    rw [packHeader_eq hfields]
    exact emit_neverStops _ _

theorem pixelEncoding_neverStops (r g b a : Byte) (s : State) (hrun : s.run.toNat ≤ 62) :
    (pixelEncoding r g b a s).NeverStops := by
  rw [pixelEncoding]
  split
  · exact raiseError_neverStops _ _ s
  · exact (encodePixel_neverStops _ s.countPixel hrun).forgetScanOnError

theorem closeEncoding_neverStops (s : State) (hrun : s.run.toNat ≤ 62) : (closeEncoding s).NeverStops := by
  rw [closeEncoding]
  split
  · exact raiseError_neverStops _ _ s
  · have hmarker (t : State) : (emitPacked packEnd t).NeverStops := emit_neverStops _ t
    exact (((endRun_neverStops s hrun).bind hmarker).bind finalFlushAndClose_neverStops).bind
      fun _ => Flow.neverStops_go _

theorem decodeCommand_isCommand (w : CommandWord) : (decodeCommand w).isCommand = true := by
  unfold decodeCommand
  split
  · rfl
  split
  · rfl
  split <;> rfl

/-- A command answers a next state in every FSM state; only in a session does it read RUN. -/
theorem exec_command_next {i : Instr} {s : State} (hi : i.isCommand = true)
    (hrun : s.fsm = .encoding → s.run.toNat ≤ 62) : ∃ t, exec i s = .next t := by
  have hraise (code : ErrorCode) (info : U64) : ∃ t, (raiseError code info s).outcome = .next t :=
    (raiseError_neverStops code info s).outcome_next
  cases i <;> simp only [Instr.isCommand, Bool.false_eq_true] at hi
  case start w h ch cs =>
    cases hs : s.fsm <;> simp only [exec, execStart, hs]
    case idle => exact (startIdle_neverStops w h ch cs s).outcome_next
    case encoding => exact hraise _ _
    case error => exact ⟨s, rfl⟩
  case pixel ignored r g b a =>
    cases hs : s.fsm <;> simp only [exec, execPixel, hs]
    case idle => exact hraise _ _
    case encoding => exact (pixelEncoding_neverStops r g b a s (hrun hs)).outcome_next
    case error => exact ⟨s, rfl⟩
  case close ignored =>
    cases hs : s.fsm <;> simp only [exec, execClose, hs]
    case idle => exact hraise _ _
    case encoding => exact (closeEncoding_neverStops s (hrun hs)).outcome_next
    case error => exact ⟨s, rfl⟩
  case reserved ignored =>
    cases hs : s.fsm <;> simp only [exec, execReserved, hs]
    case idle => exact hraise _ _
    case encoding => exact hraise _ _
    case error => exact ⟨s, rfl⟩

/-! ## The step -/

/-- Without a unit at PACK's input a step takes the host's next transaction (R129). -/
theorem fetch_eq_fetchPort {s : State} (hpack : s.packIn = []) : fetch s = fetchPort s := by
  rw [fetch, if_neg fun h => h.1 hpack]

theorem step_wait {s : State} (hpack : s.packIn = []) (hport : s.port = []) : step s = .next s := by
  rw [step, fetch_eq_fetchPort hpack, fetchPort, hport]

theorem step_reset {s : State} {rest : List PortEvent} (hpack : s.packIn = []) (hport : s.port = .reset :: rest) :
    step s = .next { s with port := rest }.afterReset := by
  rw [step, fetch_eq_fetchPort hpack, fetchPort, hport]

theorem step_command {s : State} {w : CommandWord} {rest : List PortEvent} (hpack : s.packIn = [])
    (hheld : s.held = false) (hport : s.port = .command w :: rest) :
    step s = exec (decodeCommand w) { s with port := rest } := by
  simp [step, fetch_eq_fetchPort hpack, fetchPort, hport, hheld]

/-- Settles O42: a step is a wait, a reset or a command, and a command answers a next state because RUN ≤ 62 in a
session. -/
theorem stepAnswersANextState : Obligations.StepAnswersANextState := by
  intro s hinv hheld hpack
  cases hport : s.port with
  | nil => exact ⟨s, step_wait hpack hport⟩
  | cons event rest =>
    cases event with
    | reset => exact ⟨_, step_reset hpack hport⟩
    | command w =>
      rw [step_command hpack hheld hport]
      exact exec_command_next (decodeCommand_isCommand w) hinv.run_max

end Sys2Proof.Machine
end

section
/-!
SUPPORT. What one instruction can do, said once. `Flow.Ensures` is a triple for the statements of the pseudocode
(spec/00_scope.md rule R11), whatever the sink answers, and `Transition` lists the cases of `exec`, each with the statements
that ran. The step lemmas of the next sections are proved over that list.
-/

namespace Sys2Proof.Machine

/-! ## Triples for the statements of a command -/

/-- `P` holds where the statement goes on to the next one, `Q` where it ends its command early. -/
def Flow.Ensures (x : Flow) (P Q : State → Prop) : Prop :=
  match x with
  | .go t => P t
  | .halt t => Q t
  | .stop _ => True

section Ensures
variable {P Q R : State → Prop} {x : Flow}

theorem Flow.Ensures.bind {f : State → Flow} (hx : x.Ensures P Q) (hf : ∀ t, P t → (f t).Ensures R Q) :
    (x.bind f).Ensures R Q := by
  cases x with
  | go t => exact hf t hx
  | halt t => exact hx
  | stop e => trivial

theorem Flow.Ensures.imp_go (hx : x.Ensures P Q) (h : ∀ t, P t → R t) : x.Ensures R Q := by
  cases x with
  | go t => exact h t hx
  | halt t => exact hx
  | stop e => trivial

theorem Flow.Ensures.forgetScanOnError (hx : x.Ensures P Q) (h : ∀ t, Q t → t.fsm = .error → Q t.forgetScan) :
    x.forgetScanOnError.Ensures P Q := by
  cases x with
  | go t => exact hx
  | halt t =>
    rw [forgetScanOnError_halt]
    split
    next herr => exact h t hx herr
    next => exact hx
  | stop e => trivial

theorem Flow.Ensures.of_outcome {t : State} (hx : x.Ensures P Q) (h : x.outcome = .next t) : P t ∨ Q t := by
  rcases (Flow.outcome_next x t).mp h with rfl | rfl
  · exact .inl hx
  · exact .inr hx

/-- The three reactions of the sink to one block (R192). -/
theorem deliver_ensures {s : State} {onOk : State → Flow} {onFail : U32 → State → Flow}
    (hok : (onOk (s.logBlock s.outbuf).clearOut).Ensures P Q)
    (hfail : ∀ code, (onFail code (s.logBlock s.outbuf).clearOut).Ensures P Q)
    (hhold : Q (s.logBlock s.outbuf).hold) : (deliver s onOk onFail).Ensures P Q := by
  rw [deliver]
  cases nextAnswer s with
  | ok => exact hok
  | fail code => exact hfail code
  | hold => exact hhold

/-- The loop of Emit (R190): `P` is its loop invariant. -/
theorem emit_ensures
    (hfull : ∀ s b, P s → s.outbuf.length + 1 = s.bufCap → (flushFull (s.pushByte b)).Ensures P Q)
    (hpush : ∀ s b, P s → s.outbuf.length + 1 ≠ s.bufCap → P (s.pushByte b))
    (bytes : List Byte) {s : State} (hs : P s) : (emit bytes s).Ensures P Q := by
  induction bytes generalizing s with
  | nil => exact hs
  | cons b bs ih =>
    have hlen : (s.pushByte b).outbufLen = s.outbuf.length + 1 := List.length_append
    rw [emit, hlen]
    split
    next h => exact (hfull s b hs h).bind fun t ht => ih ht
    next h => exact ih (hpush s b hs h)

/-- A packer that answers no bytes stops the machine, so only its bytes matter (R179). -/
theorem emitPacked_ensures {s : State} (h : ∀ bytes, (emit bytes s).Ensures P Q) (o : Option (List Byte)) :
    (emitPacked o s).Ensures P Q := by
  cases o with
  | none => trivial
  | some bytes => exact h bytes

end Ensures

/-! ## The cases of exec -/

/-- What `exec i s` ran where it answered the next state `t`. -/
inductive Transition (s : State) : Instr → State → Prop where
  /-- In ERROR every row is ignored (R126). -/
  | ignored (i : Instr) (hs : s.fsm = .error) : Transition s i s
  /-- A START with legal fields in IDLE (R122, R123). -/
  | started {w h : U32} {ch cs : Byte} {t : State} (hs : s.fsm = .idle) (hl : headerLegal w h ch cs)
      (ht : (emitPacked (packHeader w h ch cs) (s.begin w h ch cs)).outcome = .next t) :
      Transition s (.start w h ch cs) t
  /-- A PIXEL before the end of the scan (R124). -/
  | scanned {ign : BitVec 48} {r g b a : Byte} {t : State} (hs : s.fsm = .encoding) (hc : s.pixCount.toNat ≠ s.total)
      (ht : (encodePixel (pixelOf s.cfgChannels r g b a) s.countPixel).forgetScanOnError.outcome = .next t) :
      Transition s (.pixel ign r g b a) t
  /-- A CLOSE at the end of the scan (R125). -/
  | closed {ign : BitVec 80} {t : State} (hs : s.fsm = .encoding) (hc : s.pixCount.toNat = s.total)
      (ht : ((((endRun s).bind (emitPacked packEnd)).bind finalFlushAndClose).bind fun t => .go (t.setFsm .idle)).outcome =
        .next t) :
      Transition s (.close ign) t
  /-- A failed check of a command (R121, R127, R128, R220). -/
  | raised {i : Instr} {t : State} {code : ErrorCode} (info : U64) (hs : s.fsm ≠ .error)
      (hstart : ∀ w h ch cs, i = .start w h ch cs → headerLegal w h ch cs → s.fsm ≠ .idle)
      (hpixel : ∀ ign r g b a, i = .pixel ign r g b a → s.fsm = .encoding → s.pixCount.toNat = s.total)
      (hcode : code ≠ .none) (hsink : code ≠ .sink) (ht : (raiseError code info s).outcome = .next t) : Transition s i t
  /-- A stream row in a session (R190). -/
  | emitted {i : Instr} {t : State} (hi : i.isCommand = false) (hs : s.fsm = .encoding) (bytes : Option (List Byte))
      (ht : (emitPacked bytes s).outcome = .next t) : Transition s i t
  /-- A RUN row in a session (R142, R143, R152). -/
  | emittedRun {n : Nat} {t : State} (hs : s.fsm = .encoding) (ht : (emitRun n s).outcome = .next t) :
      Transition s (.run n) t

/-- A stream row answers a next state only in ERROR and in a session (R126, R196). -/
theorem inSession_next {i : Instr} {op : State → Flow} {s t : State} (h : inSession i op s = .next t) :
    (s.fsm = .error ∧ t = s) ∨ (s.fsm = .encoding ∧ (op s).outcome = .next t) := by
  unfold inSession at h
  split at h
  next => cases h
  next hs =>
    split at h
    · cases h
    · exact .inr ⟨hs, h⟩
  next hs =>
    cases h
    exact .inl ⟨hs, rfl⟩

theorem Transition.of_emitPacked {i : Instr} {bytes : Option (List Byte)} {s t : State} (hi : i.isCommand = false)
    (h : inSession i (emitPacked bytes) s = .next t) : Transition s i t := by
  obtain ⟨hs, rfl⟩ | ⟨hs, ht⟩ := inSession_next h
  · exact .ignored i hs
  · exact .emitted hi hs bytes ht

theorem Transition.of_execRun {n : Nat} {s t : State} (h : execRun n s = .next t) : Transition s (.run n) t := by
  obtain ⟨hs, rfl⟩ | ⟨hs, ht⟩ := inSession_next h
  · exact .ignored _ hs
  · exact .emittedRun hs ht

theorem Transition.of_execStart {w h : U32} {ch cs : Byte} {s t : State} (he : execStart w h ch cs s = .next t) :
    Transition s (.start w h ch cs) t := by
  unfold execStart at he
  split at he
  next hs => cases he; exact .ignored _ hs
  next hs => exact .raised 1 (by simp [hs]) (by simp [hs]) (by simp) (by decide) (by decide) he
  next hs =>
    unfold startIdle at he
    split at he
    next info hv =>
      have hillegal : ¬ headerLegal w h ch cs := fun hl => by simp [validate_legal hl] at hv
      refine .raised info (by simp [hs]) ?_ (by simp) (by decide) (by decide) he
      rintro w h ch cs ⟨⟩ hl
      exact absurd hl hillegal
    next hv => exact .started hs ((validate_eq_none_iff w h ch cs).mp hv) he

theorem Transition.of_execPixel {ign : BitVec 48} {r g b a : Byte} {s t : State} (he : execPixel ign r g b a s = .next t) :
    Transition s (.pixel ign r g b a) t := by
  unfold execPixel at he
  split at he
  next hs => cases he; exact .ignored _ hs
  next hs => exact .raised 2 (by simp [hs]) (by simp) (by simp [hs]) (by decide) (by decide) he
  next hs =>
    unfold pixelEncoding at he
    split at he
    next hc => exact .raised s.pixCount (by simp [hs]) (by simp) (by simp [hc]) (by decide) (by decide) he
    next hc => exact .scanned hs hc he

theorem Transition.of_execClose {ign : BitVec 80} {s t : State} (he : execClose ign s = .next t) :
    Transition s (.close ign) t := by
  unfold execClose at he
  split at he
  next hs => cases he; exact .ignored _ hs
  next hs => exact .raised 3 (by simp [hs]) (by simp) (by simp) (by decide) (by decide) he
  next hs =>
    unfold closeEncoding at he
    split at he
    next hc => exact .raised 5 (by simp [hs]) (by simp) (by simp) (by decide) (by decide) he
    next hc => exact .closed hs (not_not.mp hc) he

theorem Transition.of_execReserved {ign : BitVec 80} {s t : State} (he : execReserved ign s = .next t) :
    Transition s (.reserved ign) t := by
  unfold execReserved at he
  split at he
  next hs => cases he; exact .ignored _ hs
  next hs => exact .raised 0 (by simp [hs]) (by simp) (by simp) (by decide) (by decide) he
  next hs => exact .raised 0 (by simp [hs]) (by simp) (by simp) (by decide) (by decide) he

/-- `exec` answers a next state only along one of the cases. -/
theorem exec_transition {i : Instr} {s t : State} (h : exec i s = .next t) : Transition s i t := by
  cases i with
  | index => exact .of_emitPacked rfl h
  | diff => exact .of_emitPacked rfl h
  | luma => exact .of_emitPacked rfl h
  | rgb => exact .of_emitPacked rfl h
  | rgba => exact .of_emitPacked rfl h
  | run => exact .of_execRun h
  | header => exact .of_emitPacked rfl h
  | endMarker => exact .of_emitPacked rfl h
  | start => exact .of_execStart h
  | pixel => exact .of_execPixel h
  | close => exact .of_execClose h
  | reserved => exact .of_execReserved h

end Sys2Proof.Machine
end

section
/-!
SUPPORT. Every step keeps the invariant (spec/10_state.md rules R21 to R32, R43). Inside a command the invariant is broken
for a while (RUN is 62 before a capped run is emitted, OUTBUF is full before a block goes out), so `MidEncode` says what
holds there, with the bound that RUN keeps, and `ReadyToEmit` adds the room that OUTBUF has between two statements.
-/

namespace Sys2Proof.Machine

/-! ## Where the invariant is met -/

theorem inv_of_idle {s : State} (hcap : 1 ≤ s.bufCap) (hfsm : s.fsm = .idle) (hheld : s.held = false) (hout : s.outbuf = [])
    (herr : s.errCode = .none ∧ s.errInfo = 0 ∧ s.errSup = false) : s.Inv := by
  constructor <;> simp [hfsm, hheld, hout, herr, hcap]
  omega

theorem inv_of_error {s : State} (hcap : 1 ≤ s.bufCap) (hfsm : s.fsm = .error) (hheld : s.held = false) (hout : s.outbuf = [])
    (hcode : s.errCode ≠ .none) (hsup : s.errSup = true → s.errCode ≠ .sink) : s.Inv := by
  constructor <;> simp [hfsm, hheld, hout, hcode, hcap]
  · omega
  · exact hsup

/-- Error entry (R215). -/
theorem inv_enterError {s : State} {code : ErrorCode} (info : U64) (hcap : 1 ≤ s.bufCap) (hheld : s.held = false)
    (hcode : code ≠ .none) (hsup : s.errSup = true → code ≠ .sink) : (s.enterError code info).Inv :=
  inv_of_error hcap rfl hheld rfl hcode hsup

/-- In ERROR the invariant asks nothing of RUN, PREV and ICACHE (I12). -/
theorem State.Inv.forgetScan {s : State} (h : s.Inv) (hs : s.fsm = .error) : s.forgetScan.Inv :=
  inv_of_error h.cap hs (Bool.eq_false_iff.mpr fun hh => by simp [h.held_session hh] at hs)
    (h.closed_empty (by simp [hs])) (h.error_named hs) h.sup_not_sink

theorem inv_resetWith {cap : Nat} (hcap : 1 ≤ cap) : (State.resetWith cap).Inv :=
  inv_of_idle hcap rfl rfl rfl ⟨rfl, rfl, rfl⟩

theorem State.Inv.afterReset {s : State} (h : s.Inv) : s.afterReset.Inv :=
  inv_of_idle h.cap rfl rfl rfl ⟨rfl, rfl, rfl⟩

/-- The invariant speaks of no input of the machine. -/
theorem State.Inv.withInputs {s : State} (h : s.Inv) (port : List PortEvent) (packIn : List Byte) :
    { s with port := port, packIn := packIn }.Inv := { h with }

/-! ## What holds inside a command -/

/-- Inside a command of an encode with `ch` channels: RUN is at most `n`, OUTBUF may be full. -/
structure State.MidEncode (s : State) (ch : Byte) (n : Nat) : Prop where
  session : s.fsm = .encoding
  free : s.held = false
  channels : s.cfgChannels = ch
  cap : 1 ≤ s.bufCap
  fits : s.outbuf.length ≤ s.bufCap
  run_le : s.run.toNat ≤ n
  run_max : s.run.toNat ≤ 62
  no_error : s.errCode = .none ∧ s.errInfo = 0 ∧ s.errSup = false
  cfg_legal : headerLegal s.cfgWidth s.cfgHeight s.cfgChannels s.cfgColorspace
  count_bound : s.pixCount.toNat ≤ s.total
  alpha_fixed : s.cfgChannels = 3#8 → s.prev.a = 255#8
  slot_hash : ∀ h : Slot, icacheRead h s = ⟨0, 0, 0, 0⟩ ∨ pixelHash (icacheRead h s) = h

/-- Between two statements of a command OUTBUF has room for a byte (R191). -/
structure State.ReadyToEmit (s : State) (ch : Byte) (n : Nat) : Prop extends s.MidEncode ch n where
  room : s.outbuf.length < s.bufCap

section MidEncode
variable {s : State} {ch : Byte} {n : Nat}

theorem State.Inv.readyToEmit (h : s.Inv) (hs : s.fsm = .encoding) (hheld : s.held = false) :
    s.ReadyToEmit s.cfgChannels 61 where
  session := hs
  free := hheld
  channels := rfl
  cap := h.cap
  fits := h.fits
  run_le := h.run_rest hs hheld
  run_max := h.run_max hs
  no_error := h.no_error (by simp [hs])
  cfg_legal := h.cfg_legal hs
  count_bound := h.count_bound hs
  alpha_fixed := h.alpha_fixed hs
  slot_hash := h.slot_hash hs
  room := h.room hheld

theorem State.ReadyToEmit.weaken (h : s.ReadyToEmit ch 0) : s.ReadyToEmit ch n :=
  { h with run_le := h.run_le.trans (Nat.zero_le n) }

/-- At the end of a command the invariant is met again. -/
theorem State.ReadyToEmit.inv (h : s.ReadyToEmit ch n) (hn : n ≤ 61) : s.Inv where
  cap := h.cap
  held_session _ := h.session
  room _ := h.room
  fits := h.fits
  closed_empty hs := absurd h.session hs
  run_rest _ _ := h.run_le.trans hn
  run_max _ := h.run_max
  no_error _ := h.no_error
  error_named hs := by simp [h.session] at hs
  sup_not_sink hs := by simp [h.no_error.2.2] at hs
  cfg_legal _ := h.cfg_legal
  count_bound _ := h.count_bound
  alpha_fixed _ := h.alpha_fixed
  slot_hash _ := h.slot_hash

/-- A command is held with its block still in OUTBUF, and RUN may be 62 there (R192, R27). -/
theorem State.MidEncode.inv_hold (h : s.MidEncode ch n) : s.hold.Inv where
  cap := h.cap
  held_session _ := h.session
  room hs := by simp at hs
  fits := h.fits
  closed_empty hs := absurd h.session hs
  run_rest _ hs := by simp at hs
  run_max _ := h.run_max
  no_error _ := h.no_error
  error_named hs := by simp [h.session] at hs
  sup_not_sink hs := by simp [h.no_error.2.2] at hs
  cfg_legal _ := h.cfg_legal
  count_bound _ := h.count_bound
  alpha_fixed _ := h.alpha_fixed
  slot_hash _ := h.slot_hash

theorem State.MidEncode.inv_enterError {code : ErrorCode} (h : s.MidEncode ch n) (info : U64) (hcode : code ≠ .none) :
    (s.enterError code info).Inv :=
  Machine.inv_enterError info h.cap h.free hcode fun hs => by simp [h.no_error.2.2] at hs

theorem State.MidEncode.inv_close (h : s.MidEncode ch n) (hout : s.outbuf = []) : (s.setFsm .idle).Inv :=
  inv_of_idle h.cap rfl h.free hout h.no_error

/-! ## The register and buffer updates of a command -/

theorem State.MidEncode.logBlock (h : s.MidEncode ch n) (bytes : List Byte) : (s.logBlock bytes).MidEncode ch n :=
  { h with }

theorem State.MidEncode.logClose (h : s.MidEncode ch n) : s.logClose.MidEncode ch n := { h with }

theorem State.MidEncode.clearOut (h : s.MidEncode ch n) : s.clearOut.ReadyToEmit ch n :=
  { h with fits := Nat.zero_le _, room := h.cap }

theorem State.ReadyToEmit.pushByte (h : s.ReadyToEmit ch n) (b : Byte) : (s.pushByte b).MidEncode ch n :=
  { h with fits := by simpa using h.room }

theorem State.ReadyToEmit.setRun {m : Nat} {r : BitVec 6} (h : s.ReadyToEmit ch n) (hr : r.toNat ≤ m) (hm : m ≤ 62) :
    (s.setRun r).ReadyToEmit ch m :=
  { h with run_le := hr, run_max := hr.trans hm }

theorem State.ReadyToEmit.setPrev {px : Pixel} (h : s.ReadyToEmit ch n) (hpx : ch = 3#8 → px.a = 255#8) :
    (s.setPrev px).ReadyToEmit ch n :=
  { h with alpha_fixed := fun hch => hpx (h.channels.symm.trans hch) }

theorem State.ReadyToEmit.countPixel (h : s.ReadyToEmit ch n) (hc : s.pixCount.toNat ≠ s.total) :
    s.countPixel.ReadyToEmit ch n :=
  { h with
    count_bound := by
      have hlt : s.pixCount.toNat < s.total := lt_of_le_of_ne h.count_bound hc
      have := total_lt s
      show (s.pixCount + 1).toNat ≤ s.total
      rw [BitVec.toNat_add]
      exact (Nat.mod_le _ _).trans hlt }

/-- A pixel is written to the slot of its own hash (R52, R156). -/
theorem State.ReadyToEmit.icacheWrite (h : s.ReadyToEmit ch n) (px : Pixel) :
    (Machine.icacheWrite (pixelHash px) px s).ReadyToEmit ch n :=
  { h with
    slot_hash := fun slot => by
      by_cases he : pixelHash px = slot
      · subst he
        exact .inr (congrArg pixelHash (icacheRead_icacheWrite_same _ px s))
      · rw [icacheRead_icacheWrite_ne _ _ px s he]
        exact h.slot_hash slot }

theorem State.ReadyToEmit.cacheAfter (h : s.ReadyToEmit ch n) (px : Pixel) : (cacheAfter px s).ReadyToEmit ch n := by
  unfold Machine.cacheAfter
  split
  · exact h
  · exact h.icacheWrite px

/-- START's writes (R120, R122). -/
theorem State.Inv.begin {w hgt : U32} {cs : Byte} (h : s.Inv) (hs : s.fsm = .idle) (hl : headerLegal w hgt ch cs) :
    (s.begin w hgt ch cs).ReadyToEmit ch 0 where
  session := rfl
  free := Bool.eq_false_iff.mpr fun hh => by simp [h.held_session hh] at hs
  channels := rfl
  cap := h.cap
  fits := h.fits
  run_le := Nat.le_refl 0
  run_max := Nat.zero_le 62
  no_error := h.no_error (by simp [hs])
  cfg_legal := hl
  count_bound := Nat.zero_le _
  alpha_fixed _ := rfl
  slot_hash slot := .inl (by simp [icacheRead])
  room := by
    have hout : s.outbuf = [] := h.closed_empty (by simp [hs])
    rw [State.begin_outbuf, hout]
    exact h.cap

/-! ## The serializer -/

theorem raiseSink_inv {P : State → Prop} (h : s.MidEncode ch n) (code : U32) : (raiseSink code s).Ensures P State.Inv := by
  rw [raiseSink, raiseError_silent _ _ _ (.inr rfl)]
  exact h.inv_enterError _ (by decide)

theorem flushFull_inv (h : s.MidEncode ch n) : (flushFull s).Ensures (·.ReadyToEmit ch n) State.Inv :=
  deliver_ensures (h.logBlock _).clearOut (fun code => raiseSink_inv (h.logBlock _).clearOut.toMidEncode code)
    (h.logBlock _).inv_hold

theorem emit_inv (bytes : List Byte) (h : s.ReadyToEmit ch n) :
    (emit bytes s).Ensures (·.ReadyToEmit ch n) State.Inv :=
  emit_ensures (fun _ b ht _ => flushFull_inv (ht.pushByte b))
    (fun t b ht hne => { ht.pushByte b with room := lt_of_le_of_ne (ht.pushByte b).fits (by simpa using hne) }) bytes h

theorem emitPacked_inv (o : Option (List Byte)) (h : s.ReadyToEmit ch n) :
    (emitPacked o s).Ensures (·.ReadyToEmit ch n) State.Inv :=
  emitPacked_ensures (fun bytes => emit_inv bytes h) o

theorem finalFlushAndClose_inv (h : s.MidEncode ch n) :
    (finalFlushAndClose s).Ensures (fun t => t.MidEncode ch n ∧ t.outbuf = []) State.Inv := by
  unfold finalFlushAndClose
  split
  next hout => exact ⟨h.logClose, hout⟩
  next =>
    have hsent := (h.logBlock s.outbuf).clearOut.toMidEncode
    exact deliver_ensures ⟨hsent.logClose, rfl⟩ (fun code => raiseSink_inv hsent code) (h.logBlock _).inv_hold

/-- After ErrorExitFlush ERR_SUP may be set, so that the session's clause on errors holds no longer (R195). -/
theorem errorExitFlush_inv (h : s.MidEncode ch n) :
    (errorExitFlush s).Ensures (fun t => 1 ≤ t.bufCap ∧ t.held = false) State.Inv := by
  unfold errorExitFlush
  split
  · exact ⟨h.cap, h.free⟩
  · exact deliver_ensures ⟨h.cap, h.free⟩ (fun _ => ⟨h.cap, h.free⟩) (h.logBlock _).inv_hold

theorem raiseError_inv {code : ErrorCode} (info : U64) {P : State → Prop} (h : s.Inv) (hheld : s.held = false)
    (hcode : code ≠ .none) (hsink : code ≠ .sink) : (raiseError code info s).Ensures P State.Inv := by
  have henter {t : State} (hcap : 1 ≤ t.bufCap) (hfree : t.held = false) : (t.enterError code info).Inv :=
    inv_enterError info hcap hfree hcode fun _ => hsink
  unfold raiseError
  split
  next he =>
    exact (errorExitFlush_inv (h.readyToEmit he.1 hheld).toMidEncode).bind fun t ht => henter ht.1 ht.2
  next => exact henter h.cap hheld

/-! ## The selector -/

theorem emitRun_inv (m : Nat) (h : s.ReadyToEmit ch n) : (emitRun m s).Ensures (·.ReadyToEmit ch 0) State.Inv :=
  (emitPacked_inv _ h).bind fun _ ht => ht.setRun (Nat.le_refl 0) (Nat.zero_le 62)

theorem endRun_inv (h : s.ReadyToEmit ch n) : (endRun s).Ensures (·.ReadyToEmit ch 0) State.Inv := by
  unfold endRun
  split
  next => exact emitRun_inv _ h
  next hrun =>
    have hzero : s.run = 0 := not_not.mp hrun
    exact { h with run_le := by simp [hzero] }

/-- RUN goes on to at most 62, and the capped run is emitted at once (R141, R142). -/
theorem continueRun_inv (h : s.ReadyToEmit ch 61) : (continueRun s).Ensures (·.ReadyToEmit ch 61) State.Inv := by
  have hnext : (s.run + 1).toNat ≤ 62 := by
    have := h.run_le
    rw [BitVec.toNat_add]
    exact (Nat.mod_le _ _).trans (Nat.succ_le_succ this)
  unfold continueRun
  split
  next => exact (emitRun_inv 62 (h.setRun hnext (Nat.le_refl 62))).imp_go fun _ ht => ht.weaken
  next hne =>
    have hlt : (s.run + 1).toNat ≠ 62 := fun he => hne (BitVec.eq_of_toNat_eq he)
    exact h.setRun (by omega) (by decide)

theorem emitChunk_inv (px : Pixel) (h : s.ReadyToEmit ch n) : (emitChunk px s).Ensures (·.ReadyToEmit ch n) State.Inv := by
  rw [emitChunk_eq]
  exact emit_inv _ (h.cacheAfter px)

theorem encodePixel_inv {px : Pixel} (h : s.ReadyToEmit ch 61) (hpx : ch = 3#8 → px.a = 255#8) :
    (encodePixel px s).Ensures (·.ReadyToEmit ch 61) State.Inv := by
  by_cases he : px = s.prev
  · rw [encodePixel_run he]
    exact continueRun_inv h
  · rw [encodePixel_ne he]
    exact ((endRun_inv h).bind fun _ ht => emitChunk_inv px ht).bind fun _ ht => (ht.setPrev hpx).weaken

/-- In a 3-channel encode the pixel's alpha is 255 (R100, R106). -/
theorem pixelOf_alpha {r g b a : Byte} : ch = 3#8 → (pixelOf ch r g b a).a = 255#8 := by
  rintro rfl
  rfl

/-- CLOSE at the end of the scan leads to IDLE with OUTBUF empty (R125, R194). -/
theorem closeAtEnd_inv (h : s.ReadyToEmit ch n) :
    ((((endRun s).bind (emitPacked packEnd)).bind finalFlushAndClose).bind fun t => .go (t.setFsm .idle)).Ensures State.Inv
      State.Inv :=
  (((endRun_inv h).bind fun _ hu => emitPacked_inv packEnd hu).bind
    fun _ hu => finalFlushAndClose_inv hu.toMidEncode).bind fun _ hu => hu.1.inv_close hu.2

end MidEncode

/-! ## The instructions and the step -/

theorem Transition.inv {s t : State} {i : Instr} (hi : Transition s i t) (h : s.Inv) (hheld : s.held = false) : t.Inv := by
  cases hi with
  | ignored => exact h
  | started hs hl ht =>
    exact ((emitPacked_inv _ (h.begin hs hl)).of_outcome ht).elim (·.inv (Nat.zero_le 61)) id
  | @scanned _ r g b a _ hs hc ht =>
    have halpha : s.cfgChannels = 3#8 → (pixelOf s.cfgChannels r g b a).a = 255#8 := pixelOf_alpha
    have hpixel := encodePixel_inv ((h.readyToEmit hs hheld).countPixel hc) halpha
    exact ((hpixel.forgetScanOnError fun _ hu he => hu.forgetScan he).of_outcome ht).elim (·.inv (Nat.le_refl 61)) id
  | closed hs hc ht => exact ((closeAtEnd_inv (h.readyToEmit hs hheld)).of_outcome ht).elim id id
  | raised info _ _ _ hcode hsink ht => exact ((raiseError_inv info h hheld hcode hsink).of_outcome ht).elim id id
  | emitted _ hs bytes ht =>
    exact ((emitPacked_inv bytes (h.readyToEmit hs hheld)).of_outcome ht).elim (·.inv (Nat.le_refl 61)) id
  | emittedRun hs ht =>
    exact ((emitRun_inv _ (h.readyToEmit hs hheld)).of_outcome ht).elim (·.inv (Nat.zero_le 61)) id

/-- Settles O40: a step is a wait, a reset, or an instruction taken by a machine that is not held. -/
theorem stepKeepsInvariant : Obligations.StepKeepsInvariant := by
  intro s t h hstep
  obtain ⟨rfl, -⟩ | ⟨rest, -, -, rfl⟩ | ⟨w, rest, -, -, hheld, hexec⟩ | ⟨i, -, hheld, -, hexec⟩ := step_cases hstep
  · exact h
  · exact (h.withInputs rest s.packIn).afterReset
  · exact (exec_transition hexec).inv (h.withInputs rest s.packIn) hheld
  · exact (exec_transition hexec).inv (h.withInputs s.port []) hheld

/-- Settles O41: in IDLE, with OUTBUF empty and no error, the invariant asks nothing of the other registers. -/
theorem resetStateMeetsInvariant : Obligations.ResetStateMeetsInvariant :=
  ⟨inv_resetWith (by decide), fun _ hcap => inv_resetWith hcap⟩

end Sys2Proof.Machine
end

section
/-!
SUPPORT. What one instruction leaves unchanged (spec/10_state.md rules R21 to R25, R29, R36). The statements of a command
leave FSM and the registers of `encodeRegs` alone until error entry, a hold or the command's last statement: `GoesOn` says
so of a statement that goes on, `EndsCommand` of one that ends its command early. No invariant is needed.
-/

namespace Sys2Proof.Machine

/-! ## The registers that only START and PIXEL write -/

/-- The configuration, PIX_COUNT and the capacity. -/
structure EncodeRegs where
  width : U32
  height : U32
  channels : Byte
  colorspace : Byte
  count : U64
  cap : Nat

def State.encodeRegs (s : State) : EncodeRegs :=
  ⟨s.cfgWidth, s.cfgHeight, s.cfgChannels, s.cfgColorspace, s.pixCount, s.bufCap⟩

theorem encodeRegs_eq_iff (s t : State) :
    t.encodeRegs = s.encodeRegs ↔
      (t.cfgWidth = s.cfgWidth ∧ t.cfgHeight = s.cfgHeight ∧ t.cfgChannels = s.cfgChannels ∧
        t.cfgColorspace = s.cfgColorspace) ∧ t.pixCount = s.pixCount ∧ t.bufCap = s.bufCap := by
  simp [State.encodeRegs, and_assoc]

/-- A statement that began in `s₀` goes on in `t`. -/
def GoesOn (s₀ t : State) : Prop := t.encodeRegs = s₀.encodeRegs ∧ t.fsm = s₀.fsm

/-- A command that began in `s₀` ends early in `t`: held, or in ERROR with an error recorded (R192, R215). -/
def EndsCommand (s₀ t : State) : Prop :=
  t.encodeRegs = s₀.encodeRegs ∧ (t.fsm = s₀.fsm ∨ t.fsm = .error ∧ t.errCode ≠ .none)

theorem GoesOn.endsCommand {s₀ t : State} (h : GoesOn s₀ t) : EndsCommand s₀ t := ⟨h.1, .inl h.2⟩

theorem EndsCommand.enterError {s₀ t : State} (h : t.encodeRegs = s₀.encodeRegs) {code : ErrorCode} (info : U64)
    (hcode : code ≠ .none) : EndsCommand s₀ (t.enterError code info) := ⟨h, .inr ⟨rfl, hcode⟩⟩

section GoesOn
variable {s₀ s : State}

/-! ## Statement by statement -/

theorem raiseSink_frame (h : GoesOn s₀ s) (code : U32) : (raiseSink code s).Ensures (GoesOn s₀) (EndsCommand s₀) := by
  rw [raiseSink, raiseError_silent _ _ _ (.inr rfl)]
  exact EndsCommand.enterError h.1 _ (by decide)

theorem flushFull_frame (h : GoesOn s₀ s) : (flushFull s).Ensures (GoesOn s₀) (EndsCommand s₀) :=
  deliver_ensures h (raiseSink_frame h) h.endsCommand

theorem emit_frame (bytes : List Byte) (h : GoesOn s₀ s) : (emit bytes s).Ensures (GoesOn s₀) (EndsCommand s₀) :=
  emit_ensures (fun _ _ ht _ => flushFull_frame ht) (fun _ _ ht _ => ht) bytes h

theorem emitPacked_frame (o : Option (List Byte)) (h : GoesOn s₀ s) :
    (emitPacked o s).Ensures (GoesOn s₀) (EndsCommand s₀) :=
  emitPacked_ensures (fun bytes => emit_frame bytes h) o

theorem finalFlushAndClose_frame (h : GoesOn s₀ s) : (finalFlushAndClose s).Ensures (GoesOn s₀) (EndsCommand s₀) := by
  unfold finalFlushAndClose
  split
  · exact h
  · exact deliver_ensures h (raiseSink_frame h) h.endsCommand

theorem errorExitFlush_frame (h : GoesOn s₀ s) : (errorExitFlush s).Ensures (GoesOn s₀) (EndsCommand s₀) := by
  unfold errorExitFlush
  split
  · exact h
  · exact deliver_ensures h (fun _ => h) h.endsCommand

theorem raiseError_frame {code : ErrorCode} (info : U64) (hcode : code ≠ .none) (h : GoesOn s₀ s) :
    (raiseError code info s).Ensures (GoesOn s₀) (EndsCommand s₀) := by
  unfold raiseError
  split
  · exact (errorExitFlush_frame h).bind fun _ ht => EndsCommand.enterError ht.1 info hcode
  · exact EndsCommand.enterError h.1 info hcode

theorem emitRun_frame (n : Nat) (h : GoesOn s₀ s) : (emitRun n s).Ensures (GoesOn s₀) (EndsCommand s₀) :=
  (emitPacked_frame _ h).bind fun _ ht => ht

theorem endRun_frame (h : GoesOn s₀ s) : (endRun s).Ensures (GoesOn s₀) (EndsCommand s₀) := by
  unfold endRun
  split
  · exact emitRun_frame _ h
  · exact h

theorem continueRun_frame (h : GoesOn s₀ s) : (continueRun s).Ensures (GoesOn s₀) (EndsCommand s₀) := by
  unfold continueRun
  split
  · exact emitRun_frame (s := s.setRun _) 62 h
  · exact h

theorem emitChunk_frame (px : Pixel) (h : GoesOn s₀ s) : (emitChunk px s).Ensures (GoesOn s₀) (EndsCommand s₀) := by
  have hcache : GoesOn s₀ (cacheAfter px s) := by
    unfold cacheAfter
    split <;> exact h
  rw [emitChunk_eq]
  exact emit_frame _ hcache

theorem encodePixel_frame (px : Pixel) (h : GoesOn s₀ s) : (encodePixel px s).Ensures (GoesOn s₀) (EndsCommand s₀) := by
  by_cases he : px = s.prev
  · rw [encodePixel_run he]
    exact continueRun_frame h
  · rw [encodePixel_ne he]
    exact ((endRun_frame h).bind fun _ ht => emitChunk_frame px ht).bind fun _ ht => ht

theorem closeAtEnd_frame (h : GoesOn s₀ s) :
    ((((endRun s).bind (emitPacked packEnd)).bind finalFlushAndClose).bind fun t => .go (t.setFsm .idle)).Ensures
      (fun t => t.encodeRegs = s₀.encodeRegs ∧ t.fsm = .idle) (EndsCommand s₀) :=
  (((endRun_frame h).bind fun _ ht => emitPacked_frame packEnd ht).bind fun _ ht => finalFlushAndClose_frame ht).bind
    fun _ ht => ⟨ht.1, rfl⟩

end GoesOn

/-! ## The three kinds of instruction -/

/-- Where `EndsCommand` begins: START and PIXEL have then written the registers of `encodeRegs`, CLOSE alone leads to IDLE, and
every other instruction leaves all of it as it was. -/
inductive Effect (s : State) : Instr → State → Prop where
  | started {w h : U32} {ch cs : Byte} {t : State} (hs : s.fsm = .idle) (hl : headerLegal w h ch cs)
      (ht : EndsCommand (s.begin w h ch cs) t) : Effect s (.start w h ch cs) t
  | counted {ign : BitVec 48} {r g b a : Byte} {t : State} (hs : s.fsm = .encoding) (hc : s.pixCount.toNat ≠ s.total)
      (ht : EndsCommand s.countPixel t) : Effect s (.pixel ign r g b a) t
  | closed {ign : BitVec 80} {t : State} (hs : s.fsm = .encoding) (hc : s.pixCount.toNat = s.total)
      (ht : t.encodeRegs = s.encodeRegs) (hidle : t.fsm = .idle) : Effect s (.close ign) t
  | kept {i : Instr} {t : State}
      (hstart : ∀ w h ch cs, i = .start w h ch cs → headerLegal w h ch cs → s.fsm ≠ .idle)
      (hpixel : ∀ ign r g b a, i = .pixel ign r g b a → s.fsm = .encoding → s.pixCount.toNat = s.total)
      (ht : EndsCommand s t) : Effect s i t

theorem exec_effect {s t : State} {i : Instr} (h : exec i s = .next t) : Effect s i t := by
  have hrefl (u : State) : GoesOn u u := ⟨rfl, rfl⟩
  have hends {u : State} {x : Flow} (hx : x.Ensures (GoesOn u) (EndsCommand u)) (ht : x.outcome = .next t) :
      EndsCommand u t := (hx.of_outcome ht).elim GoesOn.endsCommand id
  cases exec_transition h with
  | ignored _ hs => exact .kept (by simp [hs]) (by simp [hs]) (hrefl s).endsCommand
  | started hs hl ht => exact .started hs hl (hends (emitPacked_frame _ (hrefl _)) ht)
  | scanned hs hc ht =>
    exact .counted hs hc (hends ((encodePixel_frame _ (hrefl _)).forgetScanOnError fun _ hu _ => hu) ht)
  | closed hs hc ht =>
    obtain ⟨hregs, hidle⟩ | hend := (closeAtEnd_frame (hrefl s)).of_outcome ht
    · exact .closed hs hc hregs hidle
    · exact .kept (by simp) (by simp) hend
  | raised info _ hstart hpixel hcode _ ht => exact .kept hstart hpixel (hends (raiseError_frame info hcode (hrefl s)) ht)
  | emitted hi hs bytes ht =>
    refine .kept (by simp [hs]) ?_ (hends (emitPacked_frame bytes (hrefl s)) ht)
    rintro ign r g b a rfl
    cases hi
  | emittedRun hs ht => exact .kept (by simp) (by simp) (hends (emitRun_frame _ (hrefl s)) ht)

/-! ## The obligations -/

/-- Settles O44: outside START and CLOSE an instruction leaves FSM as it was or ends in ERROR. -/
theorem fsmMovesOnlyAsListed : Obligations.FsmMovesOnlyAsListed := by
  intro s t i _ hexec
  cases exec_effect hexec with
  | @started w h ch cs _ hs hl ht =>
    have herr : t.fsm = .error → t.errCode ≠ .none := ht.2.elim (fun hfsm he => by simp [hfsm] at he) fun he _ => he.2
    exact ⟨fun _ _ => ⟨w, h, ch, cs, rfl, hl⟩, by simp [hs], by simp [hs], fun _ => herr⟩
  | counted hs hc ht =>
    obtain ⟨-, hfsm | ⟨hfsm, hcode⟩⟩ := ht
    · simp [hs, hfsm]
    · simp [hs, hfsm, hcode]
  | closed hs hc ht hidle => simp [hs, hidle, hc]
  | kept _ _ ht =>
    obtain ⟨-, hfsm | ⟨hfsm, hcode⟩⟩ := ht
    · cases hs : s.fsm <;> simp [hfsm, hs]
    · cases hs : s.fsm <;> simp [hfsm, hcode]

/-- Settles O47: a START with legal fields in IDLE begins with its writes, and no statement changes them. -/
theorem onlyStartWritesConfiguration : Obligations.OnlyStartWritesConfiguration := by
  intro s t i hexec
  cases exec_effect hexec with
  | started hs hl ht =>
    obtain ⟨hcfg, -, hcap⟩ := (encodeRegs_eq_iff _ _).mp ht.1
    refine ⟨hcap, ?_, fun hno => absurd ⟨_, _, _, _, rfl, hl, hs⟩ hno⟩
    rintro w h ch cs ⟨⟩ - -
    exact hcfg
  | counted hs _ ht =>
    obtain ⟨hcfg, -, hcap⟩ := (encodeRegs_eq_iff _ _).mp ht.1
    exact ⟨hcap, by simp, fun _ => hcfg⟩
  | closed hs _ ht =>
    obtain ⟨hcfg, -, hcap⟩ := (encodeRegs_eq_iff _ _).mp ht
    exact ⟨hcap, by simp, fun _ => hcfg⟩
  | kept hstart _ ht =>
    obtain ⟨hcfg, -, hcap⟩ := (encodeRegs_eq_iff _ _).mp ht.1
    exact ⟨hcap, fun w h ch cs hi hl hs => absurd hs (hstart w h ch cs hi hl), fun _ => hcfg⟩

/-- PIX_COUNT does not wrap before the end of the scan (R29). -/
theorem countPixel_toNat {s : State} (h : s.pixCount.toNat < s.total) :
    s.countPixel.pixCount.toNat = s.pixCount.toNat + 1 := by
  have := total_lt s
  rw [State.countPixel_pixCount, BitVec.toNat_add]
  exact Nat.mod_eq_of_lt (by simp; omega)

/-- Settles O48: START begins with PIX_COUNT at 0, a PIXEL before the end of the scan with one more, and no statement changes
it. -/
theorem pixCountAdvancesByOnePerPixel : Obligations.PixCountAdvancesByOnePerPixel := by
  intro s t i hinv hexec
  cases exec_effect hexec with
  | started hs hl ht =>
    obtain ⟨-, hcount, -⟩ := (encodeRegs_eq_iff _ _).mp ht.1
    exact ⟨fun _ _ _ _ _ _ _ => hcount, by simp, fun hno => absurd ⟨_, _, _, _, rfl, hl, hs⟩ hno⟩
  | counted hs hc ht =>
    obtain ⟨-, hcount, -⟩ := (encodeRegs_eq_iff _ _).mp ht.1
    have hlt : s.pixCount.toNat < s.total := lt_of_le_of_ne (hinv.count_bound hs) hc
    have hnext : t.pixCount.toNat = s.pixCount.toNat + 1 := hcount ▸ countPixel_toNat hlt
    exact ⟨by simp, fun _ _ _ _ _ _ _ _ => ⟨hnext, hnext ▸ hlt⟩, fun _ hno => absurd ⟨_, _, _, _, _, rfl, hs, hc⟩ hno⟩
  | closed hs _ ht =>
    obtain ⟨-, hcount, -⟩ := (encodeRegs_eq_iff _ _).mp ht
    exact ⟨by simp, by simp, fun _ _ => hcount⟩
  | kept hstart hpixel ht =>
    obtain ⟨-, hcount, -⟩ := (encodeRegs_eq_iff _ _).mp ht.1
    exact ⟨fun w h ch cs hi hl hs => absurd hs (hstart w h ch cs hi hl),
      fun ign r g b a hi hs hc => absurd (hpixel ign r g b a hi hs) hc, fun _ _ => hcount⟩

end Sys2Proof.Machine
end

section
/-!
SUPPORT. What the host reads (spec/10_state.md rules R33, R34, R42): no command outside an encode reads a register that
holds no specified value before START, and STATUS is laid out as the table of R33.
-/

namespace Sys2Proof.Machine

/-! ## Registers without a specified value -/

/-- `s` with other values in the registers that R41 leaves unspecified. -/
def State.withUnspecified (s : State) (w h : U32) (ch cs : Byte) (px : Pixel) (run : BitVec 6) (icache : Vector Pixel 64) :
    State :=
  { s with cfgWidth := w, cfgHeight := h, cfgChannels := ch, cfgColorspace := cs, prev := px, run := run, icache := icache }

section Unspecified
variable (s : State) (w h : U32) (ch cs : Byte) (px : Pixel) (run : BitVec 6) (icache : Vector Pixel 64)

@[simp] theorem State.withUnspecified_fsm : (s.withUnspecified w h ch cs px run icache).fsm = s.fsm := rfl

/-- START writes every one of them (R120, R122). -/
@[simp] theorem State.begin_withUnspecified (w' h' : U32) (ch' cs' : Byte) :
    (s.withUnspecified w h ch cs px run icache).begin w' h' ch' cs' = s.begin w' h' ch' cs' := rfl

/-- Error entry reads none of them (R215). -/
@[simp] theorem State.enterError_withUnspecified (code : ErrorCode) (info : U64) :
    (s.withUnspecified w h ch cs px run icache).enterError code info =
      (s.enterError code info).withUnspecified w h ch cs px run icache := rfl

end Unspecified

/-- In ERROR every row is ignored (R126). -/
theorem exec_of_error (i : Instr) {s : State} (hs : s.fsm = .error) : exec i s = .next s := by
  cases i <;>
    simp [exec, execIndex, execDiff, execLuma, execRgb, execRgba, execRun, execHeader, execEnd, inSession, execStart,
      execPixel, execClose, execReserved, hs]

/-- A command in IDLE is a START with legal fields or an error, with its code and information from the command alone. -/
theorem exec_idle_cases {i : Instr} (hi : i.isCommand = true) :
    (∃ w h ch cs, i = .start w h ch cs ∧ headerLegal w h ch cs) ∨
    ∃ code info, ∀ s : State, s.fsm = .idle → exec i s = .next (s.enterError code info) := by
  have hraise (code : ErrorCode) (info : U64) {s : State} (hs : s.fsm = .idle) :
      (raiseError code info s).outcome = .next (s.enterError code info) := by
    rw [raiseError_silent code info s (.inl (by simp [hs])), Flow.outcome_halt]
  cases i <;> simp only [Instr.isCommand, Bool.false_eq_true] at hi
  case start w h ch cs =>
    cases hv : validate w h ch cs with
    | none => exact .inl ⟨w, h, ch, cs, rfl, (validate_eq_none_iff w h ch cs).mp hv⟩
    | some info => exact .inr ⟨.malformed, info, fun s hs => by simp [exec, execStart, hs, startIdle, hv, hraise _ _ hs]⟩
  case pixel => exact .inr ⟨.protocol, 2, fun s hs => by simp [exec, execPixel, hs, hraise _ _ hs]⟩
  case close => exact .inr ⟨.protocol, 3, fun s hs => by simp [exec, execClose, hs, hraise _ _ hs]⟩
  case reserved => exact .inr ⟨.protocol, 0, fun s hs => by simp [exec, execReserved, hs, hraise _ _ hs]⟩

/-- A command that begins an encode has the same next state whatever those registers held; every other leaves them so. -/
theorem exec_withUnspecified {i : Instr} {s : State} (hi : i.isCommand = true) (hs : s.fsm ≠ .encoding)
    (w h : U32) (ch cs : Byte) (px : Pixel) (run : BitVec 6) (icache : Vector Pixel 64) :
    exec i (s.withUnspecified w h ch cs px run icache) = exec i s ∨
    ∃ u, u.fsm ≠ .encoding ∧ exec i s = .next u ∧
      exec i (s.withUnspecified w h ch cs px run icache) = .next (u.withUnspecified w h ch cs px run icache) := by
  cases hfsm : s.fsm with
  | encoding => exact absurd hfsm hs
  | error => exact .inr ⟨s, hs, exec_of_error i hfsm, exec_of_error i hfsm⟩
  | idle =>
    obtain ⟨w', h', ch', cs', rfl, hl⟩ | ⟨code, info, hexec⟩ := exec_idle_cases hi
    · exact .inl (by simp [exec, execStart, hfsm, startIdle, validate_legal hl])
    · exact .inr ⟨s.enterError code info, by simp, hexec s hfsm, hexec _ hfsm⟩

/-- Settles O50: two states that differ in those registers alone are one state with two values of them. -/
theorem unspecifiedRegistersAreNeverRead : Obligations.UnspecifiedRegistersAreNeverRead := by
  intro s t i hi hs hsame
  have ht : t = s.withUnspecified t.cfgWidth t.cfgHeight t.cfgChannels t.cfgColorspace t.prev t.run t.icache := hsame
  obtain ⟨s', hs'⟩ := exec_command_next hi fun he => absurd he hs
  obtain heq | ⟨u, hu, hexec, hexec'⟩ := exec_withUnspecified hi hs t.cfgWidth t.cfgHeight t.cfgChannels t.cfgColorspace
    t.prev t.run t.icache
  · exact ⟨s', s', hs', by rw [ht, heq, hs'], rfl, rfl, rfl, rfl, rfl, fun _ => rfl⟩
  · exact ⟨u, _, hexec, (congrArg (exec i) ht).trans hexec', rfl, rfl, rfl, rfl, rfl, fun he => absurd he hu⟩

/-! ## STATUS -/

/-- The fields of a word of five, the last one lowest. -/
theorem extractLsb'_fields (a : BitVec 16) (b : BitVec 8) (c : BitVec 5) (d : BitVec 1) (e : BitVec 2) :
    (a ++ b ++ c ++ d ++ e).extractLsb' 0 2 = e ∧ (a ++ b ++ c ++ d ++ e).extractLsb' 2 1 = d ∧
    (a ++ b ++ c ++ d ++ e).extractLsb' 3 5 = c ∧ (a ++ b ++ c ++ d ++ e).extractLsb' 8 8 = b ∧
    (a ++ b ++ c ++ d ++ e).extractLsb' 16 16 = a := by
  simp [BitVec.extractLsb'_append_eq_of_le, BitVec.extractLsb'_append_eq_of_add_le, -Nat.reduceAdd]

/-- The fields of STATUS, as they are put together (R33). -/
theorem status_fields (s : State) :
    s.status.extractLsb' 0 2 = s.fsm.code ∧ s.status.extractLsb' 2 1 = BitVec.ofBool s.errSup ∧
    s.status.extractLsb' 3 5 = 0 ∧ s.status.extractLsb' 8 8 = s.errCode.code ∧ s.status.extractLsb' 16 16 = 0 :=
  extractLsb'_fields _ _ _ _ _

/-- Settles O52: a field of STATUS is the code of its register. -/
theorem statusWordLayout : Obligations.StatusWordLayout := by
  intro s
  obtain ⟨hstate, hsup, hlow, herr, hhigh⟩ := status_fields s
  refine ⟨hstate.trans ?_, hsup.trans ?_, hlow, herr.trans ?_, hhigh, by simp [State.idleOut], by simp [State.errorOut]⟩
  · cases s.fsm <;> rfl
  · cases s.errSup <;> rfl
  · cases s.errCode <;> rfl

end Sys2Proof.Machine
end

section
/-!
SUPPORT. What every statement of a command keeps on the way to the sink port and the index cache (spec/20_memory.md rules R52,
R53, R60, R61, R66). `Carried P Q` says once which updates a pair of conditions has to survive; then every statement keeps `P`
where it goes on and gives `Q` where it ends its command early. O46 is one such pair, O49 two.
-/

namespace Sys2Proof.Machine

/-! ## Conditions that the statements of a command carry -/

/-- OUTBUF's bytes may go out as a block: `P` holds after the sink's answer, `Q` where the block is not answered (R192). -/
def MaySend (P Q : State → Prop) (s : State) : Prop :=
  P (s.logBlock s.outbuf).clearOut ∧ Q (s.logBlock s.outbuf).hold

/-- `P` survives every update between two statements, and `Q` follows where a block is held or fails. -/
structure Carried (P Q : State → Prop) : Prop where
  /-- A byte that does not fill OUTBUF (R190). -/
  push : ∀ s b, P s → s.outbuf.length + 1 ≠ s.bufCap → P (s.pushByte b)
  /-- The byte that fills OUTBUF (R191). -/
  full : ∀ s b, P s → s.outbuf.length + 1 = s.bufCap → MaySend P Q (s.pushByte b)
  /-- The partial block of a final or error flush (R194, R195). -/
  part : ∀ s, P s → s.outbuf ≠ [] → MaySend P Q s
  /-- SinkClose (R194). -/
  close : ∀ s, P s → P s.logClose
  /-- The failed write of an error flush (R195). -/
  sup : ∀ s, P s → P s.setSup
  /-- RUN counts, or is cleared after its emission (R141, R142). -/
  setRun : ∀ s n, P s → P (s.setRun n)
  /-- A failed block write (R193). -/
  sink : ∀ s info, P s → Q (s.enterError .sink info)

section Carried
variable {P Q : State → Prop} {s : State}

theorem raiseSink_carried (hc : Carried P Q) (h : P s) (code : U32) : (raiseSink code s).Ensures P Q := by
  rw [raiseSink, raiseError_silent _ _ _ (.inr rfl)]
  exact hc.sink s _ h

theorem flushFull_carried (hc : Carried P Q) (h : MaySend P Q s) : (flushFull s).Ensures P Q :=
  deliver_ensures h.1 (raiseSink_carried hc h.1) h.2

theorem emit_carried (hc : Carried P Q) (bytes : List Byte) (h : P s) : (emit bytes s).Ensures P Q :=
  emit_ensures (fun t b ht hfull => flushFull_carried hc (hc.full t b ht hfull)) hc.push bytes h

theorem emitPacked_carried (hc : Carried P Q) (o : Option (List Byte)) (h : P s) : (emitPacked o s).Ensures P Q :=
  emitPacked_ensures (fun bytes => emit_carried hc bytes h) o

theorem finalFlushAndClose_carried (hc : Carried P Q) (h : P s) : (finalFlushAndClose s).Ensures P Q := by
  unfold finalFlushAndClose
  split
  next => exact hc.close s h
  next hne =>
    obtain ⟨hsent, hheld⟩ := hc.part s h hne
    exact deliver_ensures (hc.close _ hsent) (raiseSink_carried hc hsent) hheld

theorem errorExitFlush_carried (hc : Carried P Q) (h : P s) : (errorExitFlush s).Ensures P Q := by
  unfold errorExitFlush
  split
  next => exact hc.close s h
  next hne =>
    obtain ⟨hsent, hheld⟩ := hc.part s h hne
    exact deliver_ensures (hc.close _ hsent) (fun _ => hc.sup _ hsent) hheld

/-- Error entry with any code, where `Q` follows from the registers it writes (R215). -/
theorem raiseError_carried (hc : Carried P Q) {code : ErrorCode} {info : U64}
    (henter : ∀ t, P t → Q (t.enterError code info)) (h : P s) : (raiseError code info s).Ensures P Q := by
  unfold raiseError
  split
  · exact (errorExitFlush_carried hc h).bind henter
  · exact henter s h

theorem emitRun_carried (hc : Carried P Q) (n : Nat) (h : P s) : (emitRun n s).Ensures P Q :=
  (emitPacked_carried hc _ h).bind fun t ht => hc.setRun t 0 ht

theorem endRun_carried (hc : Carried P Q) (h : P s) : (endRun s).Ensures P Q := by
  unfold endRun
  split
  · exact emitRun_carried hc _ h
  · exact h

theorem continueRun_carried (hc : Carried P Q) (h : P s) : (continueRun s).Ensures P Q := by
  unfold continueRun
  split
  · exact emitRun_carried hc 62 (hc.setRun s _ h)
  · exact hc.setRun s _ h

/-- A PIXEL's statements write the slot of its hash and PREV besides (R144, R145, R246). -/
theorem encodePixel_carried (hc : Carried P Q) (px : Pixel) (hcache : ∀ t, P t → P (icacheWrite (pixelHash px) px t))
    (hprev : ∀ t, P t → P (t.setPrev px)) (h : P s) : (encodePixel px s).Ensures P Q := by
  have hchunk (t : State) (ht : P t) : (emitChunk px t).Ensures P Q := by
    have hafter : P (cacheAfter px t) := by
      unfold cacheAfter
      split
      · exact ht
      · exact hcache t ht
    rw [emitChunk_eq]
    exact emit_carried hc _ hafter
  by_cases he : px = s.prev
  · rw [encodePixel_run he]
    exact continueRun_carried hc h
  · rw [encodePixel_ne he]
    exact ((endRun_carried hc h).bind hchunk).bind hprev

/-- CLOSE at the end of the scan leaves the session last (R125). -/
theorem closeAtEnd_carried (hc : Carried P Q) (hidle : ∀ t, P t → P (t.setFsm .idle)) (h : P s) :
    ((((endRun s).bind (emitPacked packEnd)).bind finalFlushAndClose).bind fun t => .go (t.setFsm .idle)).Ensures P Q :=
  (((endRun_carried hc h).bind fun _ ht => emitPacked_carried hc packEnd ht).bind
    fun _ ht => finalFlushAndClose_carried hc ht).bind hidle

end Carried

/-! ## The sink events -/

/-- The events of `s₀` stand first in `t`, and each block after them has 1 to `BUF_CAP` bytes. -/
def AppendsBlocks (s₀ t : State) : Prop :=
  ∃ new, t.sinkLog = s₀.sinkLog ++ new ∧ ∀ bytes, .block bytes ∈ new → 1 ≤ bytes.length ∧ bytes.length ≤ s₀.bufCap

/-- A statement that began in `s₀` goes on in `s` with room for a byte, so that no block exceeds the capacity (R191). -/
structure WritesOn (s₀ s : State) : Prop where
  appends : AppendsBlocks s₀ s
  cap : s.bufCap = s₀.bufCap
  room : s.outbuf.length < s₀.bufCap

theorem AppendsBlocks.of_sinkLog_eq {s₀ t : State} (h : t.sinkLog = s₀.sinkLog) : AppendsBlocks s₀ t :=
  ⟨[], by simpa using h, by simp⟩

theorem AppendsBlocks.logClose {s₀ s : State} (h : AppendsBlocks s₀ s) : AppendsBlocks s₀ s.logClose := by
  obtain ⟨new, hlog, hsize⟩ := h
  exact ⟨new ++ [.close], by simp [hlog], by simpa using hsize⟩

theorem AppendsBlocks.logBlock {s₀ s : State} {bytes : List Byte} (h : AppendsBlocks s₀ s) (hpos : 1 ≤ bytes.length)
    (hcap : bytes.length ≤ s₀.bufCap) : AppendsBlocks s₀ (s.logBlock bytes) := by
  obtain ⟨new, hlog, hsize⟩ := h
  refine ⟨new ++ [.block bytes], by simp [hlog], fun bytes' hmem => ?_⟩
  obtain hold | hlast := List.mem_append.mp hmem
  · exact hsize bytes' hold
  · obtain rfl : bytes' = bytes := by simpa using hlast
    exact ⟨hpos, hcap⟩

/-- A block of 1 to `BUF_CAP` bytes leaves OUTBUF empty. -/
theorem AppendsBlocks.maySend {s₀ s : State} (h : AppendsBlocks s₀ s) (hbuf : s.bufCap = s₀.bufCap)
    (hpos : 1 ≤ s.outbuf.length) (hfits : s.outbuf.length ≤ s₀.bufCap) :
    MaySend (WritesOn s₀) (AppendsBlocks s₀) s :=
  have hlog := h.logBlock hpos hfits
  ⟨⟨hlog, hbuf, hpos.trans hfits⟩, hlog⟩

theorem carried_writesOn (s₀ : State) : Carried (WritesOn s₀) (AppendsBlocks s₀) where
  push s b h hne :=
    { h with
      room := by
        have hcap := h.cap
        have hroom := h.room
        rw [State.pushByte_outbuf, List.length_append, List.length_singleton]
        omega }
  full s b h hfull := by
    have hcap := h.cap
    exact AppendsBlocks.maySend h.appends hcap (by simp) (by simp; omega)
  part s h hne := h.appends.maySend h.cap (List.length_pos_iff.mpr hne) h.room.le
  close s h := { h with appends := h.appends.logClose }
  sup s h := { h with }
  setRun s n h := { h with }
  sink s info h := h.appends

/-- A machine between two transactions, not held, has room for a byte (R191). -/
theorem State.Inv.writesOn {s : State} (h : s.Inv) (hheld : s.held = false) : WritesOn s s :=
  ⟨.of_sinkLog_eq rfl, rfl, h.room hheld⟩

theorem Transition.appendsBlocks {s t : State} {i : Instr} (hi : Transition s i t) (h : WritesOn s s) :
    AppendsBlocks s t := by
  have hc := carried_writesOn s
  have hend {x : Flow} (hx : x.Ensures (WritesOn s) (AppendsBlocks s)) (ht : x.outcome = .next t) : AppendsBlocks s t :=
    (hx.of_outcome ht).elim WritesOn.appends id
  cases hi with
  | ignored => exact h.appends
  | started _ _ ht => exact hend (emitPacked_carried hc _ (s := s.begin _ _ _ _) { h with }) ht
  | @scanned _ r g b a _ _ _ ht =>
    have hpixel := encodePixel_carried hc (pixelOf s.cfgChannels r g b a) (fun _ hu => { hu with })
      (fun _ hu => { hu with }) (s := s.countPixel) { h with }
    exact hend (hpixel.forgetScanOnError fun _ hu _ => hu) ht
  | closed _ _ ht => exact hend (closeAtEnd_carried hc (fun _ hu => { hu with }) h) ht
  | raised _ _ _ _ _ _ ht => exact hend (raiseError_carried hc (fun _ hu => hu.appends) h) ht
  | emitted _ _ bytes ht => exact hend (emitPacked_carried hc bytes h) ht
  | emittedRun _ ht => exact hend (emitRun_carried hc _ h) ht

/-- Settles O46: OUTBUF has room between two statements, so a block goes out when it has just been filled or is partial. -/
theorem sinkEventsAreAppendedInBlocks : Obligations.SinkEventsAreAppendedInBlocks := by
  intro s t h hstep
  obtain ⟨rfl, -⟩ | ⟨rest, -, -, rfl⟩ | ⟨w, rest, -, -, hheld, hexec⟩ | ⟨i, -, hheld, -, hexec⟩ := step_cases hstep
  · exact AppendsBlocks.of_sinkLog_eq rfl
  · exact AppendsBlocks.of_sinkLog_eq rfl
  · exact (exec_transition hexec).appendsBlocks ((h.withInputs rest s.packIn).writesOn hheld)
  · exact (exec_transition hexec).appendsBlocks ((h.withInputs s.port []).writesOn hheld)

/-! ## The index cache -/

/-- None of the updates of `Carried` touches the cache (R53). -/
theorem carried_icache (c : Vector Pixel 64) : Carried (fun t => t.icache = c) (fun t => t.icache = c) where
  push _ _ h _ := h
  full _ _ h _ := ⟨h, h⟩
  part _ h _ := ⟨h, h⟩
  close _ h := h
  sup _ h := h
  setRun _ _ h := h
  sink _ _ h := h

/-- The cache is `c`, or `c` with `px` in the slot of its hash (R52). -/
def CacheWithin (c : Vector Pixel 64) (px : Pixel) (t : State) : Prop :=
  t.icache = c ∨ t.icache = c.set (pixelHash px).toNat px (pixelHash px).isLt

theorem CacheWithin.icacheWrite {c : Vector Pixel 64} {px : Pixel} {t : State} (h : CacheWithin c px t) :
    CacheWithin c px (icacheWrite (pixelHash px) px t) := by
  obtain h | h := h <;> exact .inr (by simp [Machine.icacheWrite, h])

/-- A PIXEL's statements go on in the session. -/
def ScansOn (c : Vector Pixel 64) (px : Pixel) (t : State) : Prop := t.fsm = .encoding ∧ CacheWithin c px t

/-- A PIXEL ends early held in the session, or by SINK, the only error after its checks (R220). -/
def EndsScan (c : Vector Pixel 64) (px : Pixel) (t : State) : Prop :=
  ScansOn c px t ∨ t.fsm = .error ∧ t.errCode = .sink

theorem carried_scansOn (c : Vector Pixel 64) (px : Pixel) : Carried (ScansOn c px) (EndsScan c px) where
  push _ _ h _ := h
  full _ _ h _ := ⟨h, .inl h⟩
  part _ h _ := ⟨h, .inl h⟩
  close _ h := h
  sup _ h := h
  setRun _ _ h := h
  sink _ _ _ := .inr ⟨rfl, rfl⟩

/-- The registers that a SINK error leaves at any value are not those of the error (I12). -/
theorem EndsScan.forgetScan {c : Vector Pixel 64} {px : Pixel} {t : State} (h : EndsScan c px t) (herr : t.fsm = .error) :
    EndsScan c px t.forgetScan := by
  obtain ⟨hsession, -⟩ | hsink := h
  · rw [hsession] at herr
    cases herr
  · exact .inr hsink

theorem pixel_endsScan {s t : State} {px : Pixel} (hs : s.fsm = .encoding)
    (ht : (encodePixel px s.countPixel).forgetScanOnError.outcome = .next t) : EndsScan s.icache px t := by
  have hpixel := encodePixel_carried (carried_scansOn s.icache px) px (fun _ hu => ⟨hu.1, hu.2.icacheWrite⟩)
    (fun _ hu => hu) (s := s.countPixel) ⟨hs, .inl rfl⟩
  exact ((hpixel.forgetScanOnError fun _ hu he => hu.forgetScan he).of_outcome ht).elim .inl id

/-- Settles O49: a PIXEL before the end of the scan is the only case of exec besides START that writes the cache. -/
theorem onlyPixelWritesOneSlot : Obligations.OnlyPixelWritesOneSlot := by
  intro s t i hstart hexec
  have hc := carried_icache s.icache
  have hkept {x : Flow} (hx : x.Ensures (fun t => t.icache = s.icache) (fun t => t.icache = s.icache))
      (ht : x.outcome = .next t) : t.icache = s.icache := (hx.of_outcome ht).elim id id
  cases exec_transition hexec with
  | ignored => exact .inl rfl
  | started => exact absurd rfl (hstart _ _ _ _)
  | scanned hs _ ht =>
    obtain ⟨-, hsame | hset⟩ | hsink := pixel_endsScan hs ht
    · exact .inl hsame
    · exact .inr ⟨_, _, _, _, _, rfl, hs, .inr hset⟩
    · exact .inr ⟨_, _, _, _, _, rfl, hs, .inl hsink⟩
  | closed _ _ ht => exact .inl (hkept (closeAtEnd_carried hc (fun _ hu => hu) rfl) ht)
  | raised _ _ _ _ _ _ ht => exact .inl (hkept (raiseError_carried hc (fun _ hu => hu) rfl) ht)
  | emitted _ _ bytes ht => exact .inl (hkept (emitPacked_carried hc bytes rfl) ht)
  | emittedRun _ ht => exact .inl (hkept (emitRun_carried hc _ rfl) ht)

/-! ## The command port -/

/-- Settles O5: with no unit and no hold the command at the head of the port is what `fetch` takes (R61). -/
theorem stepRunsDecodedCommand : Obligations.StepRunsDecodedCommand := fun _ _ _ hpack hheld hport =>
  step_command hpack hheld hport

end Sys2Proof.Machine
end

section
/-!
SUPPORT. The stream side of spec/30_encoding.md: the rows INDEX, DIFF, LUMA and END by themselves (rules R71 to R73, R78), the
unit that a step takes from PACK's input (notes/assumptions/1.md), and the opcode byte (R81, R89).
-/

namespace Sys2Proof.Machine

/-! ## The rows by themselves -/

/-- Settles O26: R83 never excludes an INDEX. -/
theorem indexRowEmitsItsByte : Obligations.IndexRowEmitsItsByte := fun _ h hs hroom hacc =>
  exec_unit_accepted (i := .index h) rfl rfl hs rfl hroom hacc

/-- Settles O27: R83 excludes a DIFF of 0, 0, 0 and no other. -/
theorem diffRowEmitsItsByte : Obligations.DiffRowEmitsItsByte := by
  intro s dr dg db hr hg hb hzero hs hroom hacc
  have hwf : (Instr.diff dr dg db).WellFormed := decide_eq_true ⟨hr, hg, hb⟩
  have hmay : mayEmit (.diff dr dg db) s = true := decide_eq_true hzero
  exact exec_unit_accepted rfl hwf hs hmay hroom hacc

/-- Settles O28: R83 excludes a LUMA that a DIFF could code and no other. -/
theorem lumaRowEmitsItsTwoBytes : Obligations.LumaRowEmitsItsTwoBytes := by
  intro s dg drg dbg hg hr hb hdiff hs hroom hacc
  have hwf : (Instr.luma dg drg dbg).WellFormed := decide_eq_true ⟨hg, hr, hb⟩
  have hmay : mayEmit (.luma dg drg dbg) s = true := decide_eq_true hdiff
  exact exec_unit_accepted rfl hwf hs hmay hroom hacc

/-- Settles O32: R83 never excludes the end marker. -/
theorem endRowEmitsTheMarker : Obligations.EndRowEmitsTheMarker := fun _ hs hroom hacc =>
  exec_unit_accepted (i := .endMarker) rfl rfl hs rfl hroom hacc

/-! ## The unit at PACK's input -/

/-- Without a hold a step takes the unit at PACK's input before the host's transactions (notes/assumptions/17.md). -/
theorem fetch_eq_fetchUnit {s : State} (hpack : s.packIn ≠ []) (hheld : s.held = false) : fetch s = fetchUnit s := by
  rw [fetch, if_pos ⟨hpack, hheld⟩]

/-- Settles O6: with no hold the unit is what `fetch` takes. -/
theorem stepRunsDecodedUnit : Obligations.StepRunsDecodedUnit := by
  intro s i hpack hheld hunit
  rw [step, fetch_eq_fetchUnit hpack hheld, fetchUnit, hunit]

/-! ## The opcode byte -/

/-- The tag of an opcode byte, bits 7:6, as a range of values (R81). -/
theorem tag_eq_iff (b : Byte) {tag : Nat} (htag : tag < 4) :
    b.extractLsb' 6 2 = BitVec.ofNat 2 tag ↔ b.toNat / 64 = tag := by
  have hb := b.isLt
  rw [← BitVec.toNat_inj, BitVec.extractLsb'_toNat, Nat.shiftRight_eq_div_pow, Nat.mod_eq_of_lt (by omega),
    BitVec.toNat_ofNat, Nat.mod_eq_of_lt htag]

/-- The decoder's tests for RGB and RGBA as values (R81). -/
theorem ne_rawTag_iff (b : Byte) : b ≠ 0xFE#8 ∧ b ≠ 0xFF#8 ↔ b.toNat ≤ 0xFD := by
  have hb := b.isLt
  rw [← BitVec.toNat_ne_iff_ne, ← BitVec.toNat_ne_iff_ne, BitVec.toNat_ofNat, BitVec.toNat_ofNat]
  omega

/-- Settles O3: `decodeChunk` tests the two 8-bit tags and then the 2-bit tag, which are the ranges of R81. -/
theorem opcodeByteSelectsOneKind : Obligations.OpcodeByteSelectsOneKind := by
  intro b rest hlen
  match rest, hlen with
  | c₁ :: c₂ :: c₃ :: c₄ :: rest, _ =>
  by_cases hrgb : b = 0xFE#8
  · exact ⟨.rgb c₁ c₂ c₃, by simp [opcodeSelects, hrgb], by simp [decodeChunk, hrgb, unitLength]⟩
  by_cases hrgba : b = 0xFF#8
  · exact ⟨.rgba c₁ c₂ c₃ c₄, by simp [opcodeSelects, hrgba], by simp [decodeChunk, hrgba, unitLength]⟩
  have hmax : b.toNat ≤ 0xFD := (ne_rawTag_iff b).mp ⟨hrgb, hrgba⟩
  have hlow : (b.extractLsb' 0 6).toNat = b.toNat % 64 := BitVec.extractLsb'_toNat 0 6 b
  by_cases hindex : b.extractLsb' 6 2 = 0b00#2
  · refine ⟨.index (b.extractLsb' 0 6), ?_, by simp [decodeChunk, hrgb, hrgba, hindex, unitLength]⟩
    have htag := (tag_eq_iff b (by decide)).mp hindex
    exact ⟨by omega, by omega⟩
  by_cases hdiff : b.extractLsb' 6 2 = 0b01#2
  · refine ⟨.diff (biased b 4 2 2) (biased b 2 2 2) (biased b 0 2 2), ?_,
      by simp [decodeChunk, hrgb, hrgba, hdiff, unitLength]⟩
    have htag := (tag_eq_iff b (by decide)).mp hdiff
    exact ⟨by omega, by omega⟩
  by_cases hluma : b.extractLsb' 6 2 = 0b10#2
  · refine ⟨.luma (biased b 0 6 32) (biased c₁ 4 4 8) (biased c₁ 0 4 8), ?_,
      by simp [decodeChunk, hrgb, hrgba, hluma, unitLength]⟩
    have htag := (tag_eq_iff b (by decide)).mp hluma
    exact ⟨by omega, by omega⟩
  · refine ⟨.run ((b.extractLsb' 0 6).toNat + 1), ?_,
      by simp [decodeChunk, hrgb, hrgba, hindex, hdiff, hluma, unitLength]⟩
    rw [tag_eq_iff b (by decide)] at hindex hdiff hluma
    exact ⟨by omega, hmax, by omega⟩

/-! ## The ignored bits of a command word -/

theorem decodeCommand_pixel {w : CommandWord} (hop : w.extractLsb' 80 2 = 0b10#2) :
    decodeCommand w =
      .pixel (w.extractLsb' 32 48) (w.extractLsb' 24 8) (w.extractLsb' 16 8) (w.extractLsb' 8 8) (w.extractLsb' 0 8) := by
  simp [decodeCommand, hop]

theorem decodeCommand_close {w : CommandWord} (hop : w.extractLsb' 80 2 = 0b11#2) :
    decodeCommand w = .close (w.extractLsb' 0 80) := by
  simp [decodeCommand, hop]

theorem decodeCommand_reserved {w : CommandWord} (hop : w.extractLsb' 80 2 = 0b00#2) :
    decodeCommand w = .reserved (w.extractLsb' 0 80) := by
  simp [decodeCommand, hop]

/-- PIXEL reads its operands as PixelOf gives them (R100, R124). -/
theorem exec_pixel_congr {s : State} {ign ign' : BitVec 48} {r g b a r' g' b' a' : Byte}
    (hpx : pixelOf s.cfgChannels r g b a = pixelOf s.cfgChannels r' g' b' a') :
    exec (.pixel ign r g b a) s = exec (.pixel ign' r' g' b' a') s := by
  simp only [exec, execPixel, pixelEncoding, hpx]

/-- With 3 channels PixelOf drops the a operand (R100). -/
theorem pixelOf_three {ch : Byte} (hch : ch = 3#8) (r g b a : Byte) : pixelOf ch r g b a = ⟨r, g, b, 255⟩ := by
  rw [pixelOf, if_pos hch]

/-- A field inside a longer one that two words agree in. -/
theorem extractLsb'_congr {v w : CommandWord} {lo len : Nat} (h : v.extractLsb' lo len = w.extractLsb' lo len)
    {n k : Nat} (hk : n + k ≤ len) : v.extractLsb' (lo + n) k = w.extractLsb' (lo + n) k := by
  have hfield (x : CommandWord) : x.extractLsb' (lo + n) k = (x.extractLsb' lo len).extractLsb' n k := by
    ext i hi
    simp [show n + i < len by omega, Nat.add_assoc]
  rw [hfield v, hfield w, h]

/-- Settles O51: PIXEL reads its pixel alone, the other commands no operand. -/
theorem ignoredBitsHaveNoEffect : Obligations.IgnoredBitsHaveNoEffect := by
  intro s v w
  refine ⟨fun hv hw hagree => ?_, fun hv hw => ?_, fun hv hw => ?_⟩
  · have hrgb : v.extractLsb' 8 24 = w.extractLsb' 8 24 :=
      hagree.elim (fun hdata => extractLsb'_congr hdata (n := 8) (by decide)) And.right
    rw [decodeCommand_pixel hv, decodeCommand_pixel hw, extractLsb'_congr hrgb (n := 16) (k := 8) (by decide),
      extractLsb'_congr hrgb (n := 8) (k := 8) (by decide), extractLsb'_congr hrgb (n := 0) (k := 8) (by decide)]
    apply exec_pixel_congr
    obtain hdata | ⟨hch, -⟩ := hagree
    · rw [extractLsb'_congr hdata (n := 0) (k := 8) (by decide)]
    · rw [pixelOf_three hch, pixelOf_three hch]
  · rw [decodeCommand_close hv, decodeCommand_close hw]
    rfl
  · rw [decodeCommand_reserved hv, decodeCommand_reserved hw]
    rfl

end Sys2Proof.Machine
end

section
/-!
SUPPORT. A PIXEL that the sink accepts follows the decision table (spec/42_selector.md rules R140 to R153), and the table
chooses no chunk that spec/30_encoding.md rule R83 excludes.
-/

namespace Sys2Proof.Machine

/-! ## A PIXEL is one Emit of the chunks that the table gives -/

/-- What the table of R153 gives for `px` in the state `s`. -/
def State.decision (s : State) (px : Pixel) : Decision := decisionTable s.cfgChannels px s.prev s.run.toNat s.icache

/-- RUN, PREV and ICACHE as a decision leaves them. -/
def State.scanned (s : State) (d : Decision) : State :=
  { s with run := BitVec.ofNat 6 d.run, prev := d.prev, icache := d.icache }

/-- The cache after `px` was looked up in it (R144, R145, R52). -/
def cacheWith (px : Pixel) (cache : Vector Pixel 64) : Vector Pixel 64 :=
  if cache[(pixelHash px).toNat]'(pixelHash px).isLt = px then cache
  else cache.set (pixelHash px).toNat px (pixelHash px).isLt

/-- The lookup changes the cache alone. -/
theorem cacheAfter_eq (px : Pixel) (s : State) : cacheAfter px s = { s with icache := cacheWith px s.icache } := by
  unfold cacheAfter cacheWith icacheRead
  split <;> rfl

/-- A continued run (R141, R142; rows 1 and 2 of R153). -/
theorem decision_prev {s : State} {px : Pixel} (he : px = s.prev) :
    s.decision px =
      if s.run.toNat + 1 < 62 then ⟨[], s.prev, s.run.toNat + 1, s.icache⟩ else ⟨[.run 62], s.prev, 0, s.icache⟩ := by
  simp [State.decision, decisionTable, he]

/-- A pixel that differs from PREV (R143 to R150; rows 3 to 7 of R153). -/
theorem decision_ne {s : State} {px : Pixel} (hne : px ≠ s.prev) :
    s.decision px =
      { chunks := pendingRun s.run.toNat ++ [chosenChunk s.cfgChannels px s.prev (icacheRead (pixelHash px) s)]
        prev := px
        run := 0
        icache := cacheWith px s.icache } := by
  rw [State.decision, decisionTable_ne hne]
  rfl

/-- A pixel equal to PREV is counted, and at the cap of 62 the run is emitted (R141, R142). -/
theorem continueRun_accepted {s : State} (hrun : s.run.toNat ≤ 61) (hroom : s.outbuf.length < s.bufCap)
    (hacc : accepts s (blocksDue s (streamBytes (s.decision s.prev).chunks))) :
    continueRun s = .go (afterEmit (s.scanned (s.decision s.prev)) (streamBytes (s.decision s.prev).chunks)) := by
  have hnext : BitVec.ofNat 6 (s.run.toNat + 1) = s.run + 1 := by
    rw [← BitVec.toNat_inj, BitVec.toNat_add]
    rfl
  have hcount : s.run + 1 = 62#6 ↔ ¬ s.run.toNat + 1 < 62 := by
    rw [← hnext, ← BitVec.toNat_inj, BitVec.toNat_ofNat, BitVec.toNat_ofNat, Nat.mod_eq_of_lt (by omega)]
    omega
  rw [decision_prev rfl] at hacc ⊢
  rw [continueRun]
  by_cases hcap : s.run.toNat + 1 < 62
  · rw [if_neg (mt hcount.mp (not_not.mpr hcap)), if_pos hcap, ← hnext, streamBytes_nil,
      afterEmit_of_lt _ _ (by simpa [State.scanned] using hroom)]
    simp [State.scanned, State.setRun]
  · rw [if_neg hcap] at hacc ⊢
    rw [streamBytes_singleton] at hacc ⊢
    rw [if_pos (hcount.mpr hcap), emitRun_accepted (by decide) (s.setRun (s.run + 1)) hroom hacc]
    rfl

/-- The chunk of a pixel that differs from PREV (R144 to R150). -/
theorem emitChunk_accepted {px : Pixel} {s : State} (hroom : s.outbuf.length < s.bufCap)
    (hacc : accepts s (blocksDue s (unitBytes (chosenChunk s.cfgChannels px s.prev (icacheRead (pixelHash px) s))))) :
    emitChunk px s =
      .go (afterEmit { s with icache := cacheWith px s.icache }
        (unitBytes (chosenChunk s.cfgChannels px s.prev (icacheRead (pixelHash px) s)))) := by
  rw [emitChunk_eq, cacheAfter_eq]
  exact emit_accepted _ _ (Nat.one_le_of_lt hroom) hroom hacc

/-- A pixel that differs from PREV: the pending run and the chosen chunk as one Emit (R143 to R151). -/
theorem encodePixel_ne_accepted {px : Pixel} {s : State} (hne : px ≠ s.prev) (hrun : s.run.toNat ≤ 61)
    (hroom : s.outbuf.length < s.bufCap) (hacc : accepts s (blocksDue s (streamBytes (s.decision px).chunks))) :
    encodePixel px s = .go (afterEmit (s.scanned (s.decision px)) (streamBytes (s.decision px).chunks)) := by
  have hcap : 1 ≤ s.bufCap := by omega
  rw [decision_ne hne] at hacc ⊢
  simp only [streamBytes_append, streamBytes_singleton] at hacc ⊢
  obtain ⟨hacc₁, hacc₂⟩ := accepts_append s _ _ hcap hacc
  have hchunk := emitChunk_accepted (s := afterEmit (s.setRun 0) _) (length_outbuf_afterEmit (s.setRun 0) _ hcap) hacc₂
  rw [encodePixel_ne hne, endRun_accepted s (by omega) hroom hacc₁, Flow.bind_go, hchunk]
  exact congrArg Flow.go (afterEmit_append (s.scanned ⟨[], px, 0, cacheWith px s.icache⟩) _ _ hcap)

/-- EncodePixel that the sink accepts (R140, R153). -/
theorem encodePixel_accepted (px : Pixel) {s : State} (hrun : s.run.toNat ≤ 61) (hroom : s.outbuf.length < s.bufCap)
    (hacc : accepts s (blocksDue s (streamBytes (s.decision px).chunks))) :
    encodePixel px s = .go (afterEmit (s.scanned (s.decision px)) (streamBytes (s.decision px).chunks)) := by
  by_cases hpx : px = s.prev
  · rw [encodePixel_run hpx]
    subst hpx
    exact continueRun_accepted hrun hroom hacc
  · exact encodePixel_ne_accepted hpx hrun hroom hacc

/-- A PIXEL that the sink accepts (R124). -/
theorem exec_pixel_accepted {s : State} {px : Pixel} (ign : BitVec 48) {r g b a : Byte}
    (hpx : pixelOf s.cfgChannels r g b a = px) (hs : s.fsm = .encoding) (hcount : s.pixCount.toNat ≠ s.total)
    (hrun : s.run.toNat ≤ 61) (hroom : s.outbuf.length < s.bufCap)
    (hacc : accepts s (blocksDue s (streamBytes (s.decision px).chunks))) :
    exec (.pixel ign r g b a) s =
      .next (afterEmit (s.countPixel.scanned (s.decision px)) (streamBytes (s.decision px).chunks)) := by
  have hpixel : encodePixel px s.countPixel =
      .go (afterEmit (s.countPixel.scanned (s.decision px)) (streamBytes (s.decision px).chunks)) :=
    encodePixel_accepted px hrun hroom hacc
  simp [exec, execPixel, hs, pixelEncoding, hcount, hpx, hpixel]

/-! ## The chunks that the table gives (R83) -/

/-- What R83 leaves to a PIXEL that moves PREV from `prev` to `px` in an encode of `ch` channels. -/
def Permitted (ch : Byte) (prev px : Pixel) : Instr → Prop
  | .index _ => True
  | .diff dr dg db => ¬ (dr = 0 ∧ dg = 0 ∧ db = 0) ∧ px.a = prev.a
  | .luma dg drg dbg => ¬ (inDiff (drg + dg) ∧ inDiff dg ∧ inDiff (dbg + dg)) ∧ px.a = prev.a
  | .rgb r g b => ch = 3#8 ∧ (⟨r, g, b, 255⟩ : Pixel) ≠ prev
  | .rgba r g b a => ch = 4 ∧ (⟨r, g, b, a⟩ : Pixel) ≠ prev
  | .run _ => True
  | .header _ _ _ _ => False
  | .endMarker => False
  | .start _ _ _ _ => False
  | .pixel _ _ _ _ _ => False
  | .close _ => False
  | .reserved _ => False

/-- Channels are equal where their delta is 0 (R147). -/
theorem delta_eq_zero {cur prev : Byte} (h : delta cur prev = 0) : cur = prev := by
  have hlt := (cur - prev).isLt
  rw [delta, sext8] at h
  have hzero : (cur - prev).toNat = 0 := by split at h <;> omega
  exact sub_eq_zero.mp (BitVec.eq_of_toNat_eq hzero)

theorem permitted_missChunk {ch : Byte} {prev px : Pixel} (hne : px ≠ prev) (hch : ch = 3#8 ∨ ch = 4#8)
    (halpha : ch = 3#8 → px.a = 255#8) : Permitted ch prev px (missChunk ch px prev) := by
  unfold missChunk
  split
  next h =>
    obtain ⟨ha, -⟩ := h
    refine ⟨fun ⟨hr, hg, hb⟩ => hne ?_, ha⟩
    rw [Pixel.mk.injEq]
    exact ⟨delta_eq_zero hr, delta_eq_zero hg, delta_eq_zero hb, ha⟩
  next hdiff =>
  split
  next h =>
    obtain ⟨ha, -⟩ := h
    refine ⟨fun ⟨hr, hg, hb⟩ => hdiff ?_, ha⟩
    rw [Int.sub_add_cancel] at hr hb
    exact ⟨ha, hr, hg, hb⟩
  split
  next h3 =>
    have hpx : (⟨px.r, px.g, px.b, 255⟩ : Pixel) = px := congrArg (Pixel.mk px.r px.g px.b) (halpha h3).symm
    exact ⟨h3, hpx ▸ hne⟩
  next h3 => exact ⟨hch.resolve_left h3, hne⟩

theorem permitted_chosenChunk {ch : Byte} {prev px : Pixel} (slot : Pixel) (hne : px ≠ prev) (hch : ch = 3#8 ∨ ch = 4#8)
    (halpha : ch = 3#8 → px.a = 255#8) : Permitted ch prev px (chosenChunk ch px prev slot) := by
  unfold chosenChunk
  split
  · trivial
  · exact permitted_missChunk hne hch halpha

theorem missChunk_ne_run (ch : Byte) (px prev : Pixel) (n : Nat) : missChunk ch px prev ≠ .run n := by
  unfold missChunk
  split
  · nofun
  split
  · nofun
  split <;> nofun

/-- The selector's chunk for a pixel that differs from PREV is no RUN (R151). -/
theorem chosenChunk_ne_run (ch : Byte) (px prev slot : Pixel) (n : Nat) : chosenChunk ch px prev slot ≠ .run n := by
  unfold chosenChunk
  split
  · nofun
  · exact missChunk_ne_run ch px prev n

theorem length_chosenChunk_le (ch : Byte) (px prev slot : Pixel) :
    (unitBytes (chosenChunk ch px prev slot)).length ≤ 5 := by
  unfold chosenChunk missChunk
  split
  · simp [unitBytes]
  split
  · simp [unitBytes]
  split
  · simp [unitBytes]
  split <;> simp [unitBytes]

/-- The pending run is nothing or one RUN chunk (R143). -/
theorem pendingRun_cases (run : Nat) : pendingRun run = [] ∨ 1 ≤ run ∧ pendingRun run = [.run run] := by
  unfold pendingRun
  split
  next h => exact .inr ⟨h, rfl⟩
  next h => exact .inl rfl

section Decision
variable {s : State} {px : Pixel}

/-- The chunks of the table, row by row: none, the capped run, or the pending run before another chunk. -/
theorem decision_chunks_cases (s : State) (px : Pixel) :
    (s.decision px).chunks = [] ∨ (s.decision px).chunks = [.run 62] ∨
    px ≠ s.prev ∧
      (s.decision px).chunks =
        pendingRun s.run.toNat ++ [chosenChunk s.cfgChannels px s.prev (icacheRead (pixelHash px) s)] := by
  by_cases hpx : px = s.prev
  · rw [decision_prev hpx]
    split
    · exact .inl rfl
    · exact .inr (.inl rfl)
  · rw [decision_ne hpx]
    exact .inr (.inr ⟨hpx, rfl⟩)

theorem decision_prev_eq (s : State) (px : Pixel) : (s.decision px).prev = px := by
  by_cases hpx : px = s.prev
  · rw [decision_prev hpx]
    split <;> exact hpx.symm
  · rw [decision_ne hpx]

/-- A chunk of the table is a RUN in range or the selector's chunk for a pixel that differs from PREV. -/
theorem mem_decision_chunks {i : Instr} (hrun : s.run.toNat ≤ 62) (hi : i ∈ (s.decision px).chunks) :
    (∃ n, inRun n ∧ i = .run n) ∨
    px ≠ s.prev ∧ i = chosenChunk s.cfgChannels px s.prev (icacheRead (pixelHash px) s) := by
  obtain h | h | ⟨hne, h⟩ := decision_chunks_cases s px
  · simp [h] at hi
  · exact .inl ⟨62, by decide, by simpa [h] using hi⟩
  · rw [h, List.mem_append, List.mem_singleton] at hi
    obtain hi | hi := hi
    · obtain hnone | ⟨hpos, hone⟩ := pendingRun_cases s.run.toNat
      · simp [hnone] at hi
      · exact .inl ⟨s.run.toNat, ⟨hpos, hrun⟩, by simpa [hone] using hi⟩
    · exact .inr ⟨hne, hi⟩

theorem decision_chunks_areUnits {i : Instr} (hrun : s.run.toNat ≤ 62) (hi : i ∈ (s.decision px).chunks) :
    i.WellFormed ∧ i.isCommand = false := by
  obtain ⟨n, hn, rfl⟩ | ⟨-, rfl⟩ := mem_decision_chunks hrun hi
  · exact ⟨decide_eq_true hn, rfl⟩
  · exact (chosenChunk_isUnit _ _ _ _).symm

/-- No chunk of a PIXEL is one that R83 excludes. -/
theorem decision_chunks_permitted {i : Instr} (hrun : s.run.toNat ≤ 62) (hch : s.cfgChannels = 3#8 ∨ s.cfgChannels = 4#8)
    (halpha : s.cfgChannels = 3#8 → px.a = 255#8) (hi : i ∈ (s.decision px).chunks) :
    Permitted s.cfgChannels s.prev (s.decision px).prev i := by
  rw [decision_prev_eq]
  obtain ⟨n, -, rfl⟩ | ⟨hne, rfl⟩ := mem_decision_chunks hrun hi
  · trivial
  · exact permitted_chosenChunk _ hne hch halpha

/-- A RUN of a PIXEL is the capped one, or a chunk of another kind ends the PIXEL after it (R83, R142, R143). -/
theorem decision_after_run {before after : List Instr} {n : Nat}
    (hchunks : (s.decision px).chunks = before ++ .run n :: after) :
    n = 62 ∨ ∃ c, after = [c] ∧ ∀ m, c ≠ .run m := by
  obtain h | h | ⟨-, h⟩ := decision_chunks_cases s px
  · simp [h] at hchunks
  · rw [h, List.singleton_eq_append_iff] at hchunks
    obtain ⟨-, heq⟩ | ⟨-, heq⟩ := hchunks
    · exact .inl (by simpa using (List.cons.inj heq).1)
    · cases heq
  · have hlast := chosenChunk_ne_run s.cfgChannels px s.prev (icacheRead (pixelHash px) s)
    rw [hchunks] at h
    obtain hnone | ⟨-, hone⟩ := pendingRun_cases s.run.toNat
    · rw [hnone] at h
      match before, h with
      | [], h => exact absurd (List.cons.inj h).1.symm (hlast n)
      | _ :: _, h => simp at h
    · rw [hone] at h
      match before, h with
      | [], h => exact .inr ⟨_, (List.cons.inj h).2, hlast⟩
      | [_], h => exact absurd (List.cons.inj (List.cons.inj h).2).1.symm (hlast n)
      | _ :: _ :: _, h => simp at h

/-- At most a RUN's byte and the five of an RGBA chunk (R155). -/
theorem length_decision_le (s : State) (px : Pixel) : (streamBytes (s.decision px).chunks).length ≤ 6 := by
  obtain h | h | ⟨-, h⟩ := decision_chunks_cases s px
  · rw [h]; decide
  · rw [h]; decide
  · have hlast := length_chosenChunk_le s.cfgChannels px s.prev (icacheRead (pixelHash px) s)
    have hpending : (streamBytes (pendingRun s.run.toNat)).length ≤ 1 := by
      obtain hnone | ⟨-, hone⟩ := pendingRun_cases s.run.toNat
      · simp [hnone, streamBytes]
      · simp [hone, streamBytes, unitBytes]
    rw [h, streamBytes_append, streamBytes_singleton, List.length_append]
    omega

end Decision

/-! ## The bytes of an accepted Emit -/

theorem deliveredBytes_map_block (blocks : List (List Byte)) : deliveredBytes (blocks.map .block) = blocks.flatten := by
  induction blocks with
  | nil => rfl
  | cons b bs ih => rw [List.map_cons, deliveredBytes, ih, List.flatten_cons]

/-- What an accepted Emit sends and leaves in OUTBUF is the bytes before and its own (R190, R191, R197). -/
theorem afterEmit_delivers (s : State) (bytes : List Byte) (hcap : 1 ≤ s.bufCap) :
    ∃ new, (afterEmit s bytes).sinkLog = s.sinkLog ++ new ∧
      deliveredBytes new ++ (afterEmit s bytes).outbuf = s.outbuf ++ bytes := by
  refine ⟨_, rfl, ?_⟩
  rw [deliveredBytes_map_block]
  exact flatten_fullBlocks_append_remainder s.bufCap hcap _

/-! ## The table of R83 -/

/-- Settles O20: the chunks are those of the decision table. -/
theorem pixelNeverEmitsExcludedChunks : Obligations.PixelNeverEmitsExcludedChunks := by
  intro s ign r g b a hinv hs hheld hcount hacc
  obtain ⟨px, hpx⟩ : ∃ px, pixelOf s.cfgChannels r g b a = px := ⟨_, rfl⟩
  have hrun := hinv.run_rest hs hheld
  have hrun62 := hinv.run_max hs
  obtain ⟨-, -, hch, -⟩ := hinv.cfg_legal hs
  have hdue : blocksDue s (streamBytes (s.decision px).chunks) ≤ (s.outbuf.length + 6) / s.bufCap := by
    have hlen := length_decision_le s px
    exact Nat.div_le_div_right (by rw [List.length_append]; omega)
  have hexec := exec_pixel_accepted ign hpx hs hcount hrun (hinv.room hheld) fun k hk => hacc k (hk.trans_le hdue)
  obtain ⟨new, hlog, hbytes⟩ := afterEmit_delivers (s.countPixel.scanned (s.decision px))
    (streamBytes (s.decision px).chunks) hinv.cap
  have hperm {i : Instr} := decision_chunks_permitted (i := i) hrun62 hch fun h3 => hpx ▸ pixelOf_alpha h3
  refine ⟨_, _, new, hexec, hlog, hbytes, fun i => decision_chunks_areUnits hrun62,
    fun _ _ _ h => hperm h, fun _ _ _ h => hperm h, fun _ _ _ h => hperm h, fun _ _ _ _ h => hperm h,
    fun before n m after h => ?_, fun before n h => ?_⟩
  · obtain h62 | ⟨c, hc, hother⟩ := decision_after_run (h.trans (List.append_assoc before [.run n, .run m] after))
    · exact h62
    · exact absurd (List.cons.inj hc).1.symm (hother m)
  · obtain h62 | ⟨c, hc, -⟩ := decision_after_run h
    · exact h62
    · cases hc

end Sys2Proof.Machine
end

section
/-!
SUPPORT. The pixel operations of spec/40_pixel_hash.md. The hash and an adder of any width both read the one weighted sum of
the channels in unbounded integers, the hash modulo 64 (R102) and the adder modulo a power of 2 (R103).
-/

namespace Sys2Proof.Machine

/-! ## The weighted sum of the channels -/

/-- The weighted sum of the channels on widened integers, before the `mod` (R102). -/
def weightedSum (px : Pixel) : Nat := px.r.toNat * 3 + px.g.toNat * 5 + px.b.toNat * 7 + px.a.toNat * 11

/-- What an adder of `n` bits computes, its carries out of the top bit dropped (R103). -/
def adderSum (n : Nat) (px : Pixel) : BitVec n :=
  3 * px.r.setWidth n + 5 * px.g.setWidth n + 7 * px.b.setWidth n + 11 * px.a.setWidth n

/-- The hash read as a number (R102). -/
theorem toNat_pixelHash (px : Pixel) : (pixelHash px).toNat = weightedSum px % 64 := by
  rw [pixelHash, BitVec.toNat_ofNat]
  exact Nat.mod_mod (weightedSum px) 64

/-- Six bits need no further `mod` 64. -/
theorem pixelHash_eq_ofNat (px : Pixel) : pixelHash px = BitVec.ofNat 6 (weightedSum px) :=
  BitVec.eq_of_toNat_eq ((toNat_pixelHash px).trans (BitVec.toNat_ofNat _ 6).symm)

/-- Reduction modulo 2 ^ n commutes with the adder's products and sums (R103). -/
theorem adderSum_eq_ofNat (n : Nat) (px : Pixel) : adderSum n px = BitVec.ofNat n (weightedSum px) := by
  have hterm (k : Nat) (c : Byte) : BitVec.ofNat n (c.toNat * k) = BitVec.ofNat n k * c.setWidth n := by
    rw [Nat.mul_comm, BitVec.ofNat_mul, BitVec.ofNat_toNat]
  simp only [weightedSum, BitVec.ofNat_add, hterm]
  rfl

/-- The low 6 bits of any adder that has them are the hash (R103). -/
theorem pixelHash_eq_setWidth_adderSum {n : Nat} (hn : 6 ≤ n) (px : Pixel) : pixelHash px = (adderSum n px).setWidth 6 := by
  rw [pixelHash_eq_ofNat, adderSum_eq_ofNat, BitVec.setWidth_ofNat_of_le hn]

/-! ## The hash -/

/-- Settles O54: the adder of 6 bits, and any wider one cut to 6 bits. -/
theorem hashNeedsOnlySixBits : Obligations.HashNeedsOnlySixBits := fun px =>
  ⟨(pixelHash_eq_ofNat px).trans (adderSum_eq_ofNat 6 px).symm, fun _ hn => pixelHash_eq_setWidth_adderSum hn px⟩

/-- Settles O53: the sum modulo 64 for every pixel, the corner cases by evaluation. -/
theorem hashIsTheWeightedSumModulo64 : Obligations.HashIsTheWeightedSumModulo64 :=
  ⟨toNat_pixelHash, by decide, by decide, by decide, by decide⟩

/-! ## The pixel of a PIXEL command -/

/-- With any channel count but 3 PixelOf keeps the a operand (R100). -/
theorem pixelOf_of_ne_three {ch : Byte} (hch : ch ≠ 3#8) (r g b a : Byte) : pixelOf ch r g b a = ⟨r, g, b, a⟩ := by
  rw [pixelOf, if_neg hch]

/-- Settles O55: the two branches of PixelOf. -/
theorem pixelOfForcesAlphaInThreeChannels : Obligations.PixelOfForcesAlphaInThreeChannels := fun _ r g b a =>
  ⟨fun hch => pixelOf_three hch r g b a, fun hch => pixelOf_of_ne_three hch r g b a⟩

/-- Settles O58: alpha's term of the sum is 255 * 11, which is 53 modulo 64. -/
theorem threeChannelHashHasConstantAlphaTerm : Obligations.ThreeChannelHashHasConstantAlphaTerm := by
  intro r g b a
  have hsum : weightedSum (pixelOf 3 r g b a) = r.toNat * 3 + g.toNat * 5 + b.toNat * 7 + 255 * 11 :=
    congrArg weightedSum (pixelOf_three rfl r g b a)
  rw [toNat_pixelHash, hsum]
  omega

end Sys2Proof.Machine
end

section
/-!
SUPPORT. The commands one by one (spec/41_commands.md rules R120 to R128): a command that fails a check, a START with legal
fields, and a CLOSE at the end of the scan, which is one Emit of the pending run and the end marker with a final flush after
it (R125, R152, R194).
-/

namespace Sys2Proof.Machine

/-! ## Commands that fail a check -/

/-- An error in IDLE, outside a session (R215). -/
theorem raiseError_idle {s : State} (code : ErrorCode) (info : U64) (hs : s.fsm = .idle) :
    (raiseError code info s).outcome = .next (s.enterError code info) := by
  rw [raiseError_silent code info s (.inl (by simp [hs])), Flow.outcome_halt]

/-- A PROTOCOL error in a session goes through the error exit (R195, R215). -/
theorem raiseError_protocol {s : State} (info : U64) (hs : s.fsm = .encoding) :
    (raiseError .protocol info s).outcome = .next (afterErrorExit s .protocol info) := by
  rw [raiseError_session .protocol info s hs (by decide), Flow.outcome_halt]

/-- START's first failing check names the error (R121). -/
theorem exec_start_illegal {s : State} {w h : U32} {ch cs : Byte} {info : U64} (hs : s.fsm = .idle)
    (hv : validate w h ch cs = some info) : exec (.start w h ch cs) s = .next (s.enterError .malformed info) := by
  simp only [exec, execStart, hs, startIdle, hv]
  exact raiseError_idle _ _ hs

/-- Settles O11: the checks of R121 in their order. -/
theorem startRefusesIllegalFields : Obligations.StartRefusesIllegalFields := by
  intro s w h ch cs hs
  refine ⟨fun hw => ?_, fun hw hh => ?_, fun hw hh hch => ?_, fun hw hh hch hcs => ?_⟩
  · exact exec_start_illegal hs (by rw [validate, if_pos hw])
  · exact exec_start_illegal hs (by rw [validate, if_neg hw, if_pos hh])
  · exact exec_start_illegal hs (by rw [validate, if_neg hw, if_neg hh, if_pos hch])
  · exact exec_start_illegal hs (by rw [validate, if_neg hw, if_neg hh, if_neg (not_not.mpr hch), if_pos hcs])

/-- Settles O12: the state check comes first and reads no operand (R127, R128, R220). -/
theorem outOfStateCommandsRaiseProtocol : Obligations.OutOfStateCommandsRaiseProtocol := by
  intro s
  refine ⟨fun hs => ⟨fun _ _ _ _ _ => ?_, fun _ => ?_, fun _ => ?_⟩, fun hs => ⟨fun _ _ _ _ => ?_, fun _ => ?_⟩,
    fun hs _ => exec_of_error _ hs⟩
  · simp only [exec, execPixel, hs]
    exact raiseError_idle _ _ hs
  · simp only [exec, execClose, hs]
    exact raiseError_idle _ _ hs
  · simp only [exec, execReserved, hs]
    exact raiseError_idle _ _ hs
  · simp only [exec, execStart, hs]
    exact raiseError_protocol _ hs
  · simp only [exec, execReserved, hs]
    exact raiseError_protocol _ hs

/-- Settles O13: in ERROR every row is ignored, the commands with them. -/
theorem errorIgnoresCommands : Obligations.ErrorIgnoresCommands := fun _ i hs _ => exec_of_error i hs

/-- Settles O24: the count is checked before the pending run and the end marker are emitted. -/
theorem shortCloseIsMalformed : Obligations.ShortCloseIsMalformed := by
  intro s ign hs hc
  have hraise := raiseError_session .malformed 5 s hs (by decide)
  simp only [exec, execClose, hs, closeEncoding, if_pos hc, hraise, Flow.outcome_halt]

/-! ## START with legal fields -/

/-- After START's writes the header is emitted, and nothing else happens (R120 to R123). -/
theorem exec_start_legal {s : State} {w h : U32} {ch cs : Byte} (hs : s.fsm = .idle) (hl : headerLegal w h ch cs) :
    exec (.start w h ch cs) s = (emit (unitBytes (.header w h ch cs)) (s.begin w h ch cs)).outcome := by
  have ⟨_, _, hfields⟩ := hl
  simp only [exec, execStart, hs, startIdle, validate_legal hl, packHeader_eq hfields]
  rfl

/-- In IDLE OUTBUF is empty, so that the header alone decides how many blocks it fills (R77, R191). -/
theorem blocksDue_header {s : State} (w h : U32) (ch cs : Byte) (hout : s.outbuf = []) :
    blocksDue (s.begin w h ch cs) (unitBytes (.header w h ch cs)) = 14 / s.bufCap := by
  simp only [blocksDue, State.begin_outbuf, hout]
  rfl

theorem begin_room {s : State} (w h : U32) (ch cs : Byte) (hcap : 1 ≤ s.bufCap) (hout : s.outbuf = []) :
    (s.begin w h ch cs).outbuf.length < (s.begin w h ch cs).bufCap := by
  rw [State.begin_outbuf, hout]
  exact hcap

/-- A START that the sink accepts (R122, R123). -/
theorem exec_start_accepted {s : State} {w h : U32} {ch cs : Byte} (hs : s.fsm = .idle) (hl : headerLegal w h ch cs)
    (hcap : 1 ≤ s.bufCap) (hout : s.outbuf = [])
    (hacc : accepts s (blocksDue (s.begin w h ch cs) (unitBytes (.header w h ch cs)))) :
    exec (.start w h ch cs) s = .next (afterEmit (s.begin w h ch cs) (unitBytes (.header w h ch cs))) := by
  rw [exec_start_legal hs hl, emit_accepted _ (s.begin w h ch cs) hcap (begin_room w h ch cs hcap hout) hacc,
    Flow.outcome_go]

/-- Settles O10: START's writes and one Emit of the header. -/
theorem startBeginsEncode : Obligations.StartBeginsEncode := by
  intro s w h ch cs hs hl hcap hout hacc
  rw [← blocksDue_header w h ch cs hout] at hacc
  exact exec_start_accepted hs hl hcap hout hacc

/-- Settles O39: START's writes and the header's Emit, failed at its block `k`. -/
theorem startBlockFailureIsSink : Obligations.StartBlockFailureIsSink := by
  intro s w h ch cs k code hs hl hcap hout hk hacc hfail
  rw [← blocksDue_header w h ch cs hout] at hk
  rw [exec_start_legal hs hl, emit_failed _ (s.begin w h ch cs) k code hcap (begin_room w h ch cs hcap hout) hk hacc hfail,
    Flow.outcome_halt]
  simp [afterBlocks, State.enterError, State.begin, hout]

/-! ## The blocks of the rest of a session -/

/-- How many blocks the rest of a session sends where OUTBUF's bytes and `bytes` are still to go out: the whole ones and the
partial one (R60, R194). -/
def blocksToCome (s : State) (bytes : List Byte) : Nat := ((s.outbuf ++ bytes).length + s.bufCap - 1) / s.bufCap

/-- The partial block is what an Emit of the bytes leaves in OUTBUF. -/
theorem blocksToCome_eq (s : State) (bytes : List Byte) (hcap : 1 ≤ s.bufCap) :
    blocksToCome s bytes = blocksDue s bytes + if (afterEmit s bytes).outbuf = [] then 0 else 1 := by
  have hrest : (afterEmit s bytes).outbuf.length < s.bufCap := length_outbuf_afterEmit s bytes hcap
  have hlen : (s.outbuf ++ bytes).length = s.bufCap * blocksDue s bytes + (afterEmit s bytes).outbuf.length := by
    have hdiv := Nat.mul_div_le (s.outbuf ++ bytes).length s.bufCap
    simp only [afterEmit, remainder, List.length_drop, blocksDue, Nat.mul_comm _ s.bufCap]
    omega
  have hsum : (s.outbuf ++ bytes).length + s.bufCap - 1 =
      s.bufCap * blocksDue s bytes + ((afterEmit s bytes).outbuf.length + (s.bufCap - 1)) := by omega
  rw [blocksToCome, hsum, Nat.mul_add_div hcap]
  congr 1
  split
  next hnone => rw [hnone, List.length_nil, Nat.zero_add, Nat.div_eq_of_lt (by omega)]
  next hsome =>
    have hpos := List.length_pos_iff.mpr hsome
    exact Nat.div_eq_of_lt_le (by omega) (by omega)

/-- An accepted Emit first, then the rest of the session. -/
theorem accepts_blocksToCome_append {s : State} {a b : List Byte} (hcap : 1 ≤ s.bufCap)
    (h : accepts s (blocksToCome s (a ++ b))) :
    accepts s (blocksDue s a) ∧ accepts (afterEmit s a) (blocksToCome (afterEmit s a) b) := by
  have hsum : blocksToCome s (a ++ b) = blocksDue s a + blocksToCome (afterEmit s a) b := by
    rw [blocksToCome_eq s _ hcap, blocksToCome_eq (afterEmit s a) b hcap, blocksDue_append s a b hcap,
      afterEmit_append s a b hcap, Nat.add_assoc]
  rw [hsum] at h
  exact ⟨fun k hk => h k (by omega), fun k hk => (answerAt_afterEmit s a k).trans (h _ (by omega))⟩

/-- The last Emit, then the partial block. -/
theorem accepts_blocksToCome_last {s : State} {bytes : List Byte} (hcap : 1 ≤ s.bufCap)
    (h : accepts s (blocksToCome s bytes)) :
    accepts s (blocksDue s bytes) ∧
      ((afterEmit s bytes).outbuf ≠ [] → answerAt (afterEmit s bytes) 0 = .ok) := by
  rw [blocksToCome_eq s bytes hcap] at h
  refine ⟨fun k hk => h k (by omega), fun hne => ?_⟩
  rw [answerAt_afterEmit]
  exact h _ (by rw [if_neg hne]; omega)

/-! ## CLOSE at the end of the scan -/

/-- `t` after an accepted FinalFlushAndClose and `FSM <- IDLE` (R125, R194). -/
def State.closeSession (t : State) : State :=
  (if t.outbuf = [] then t.logClose else ((t.logBlock t.outbuf).clearOut).logClose).setFsm .idle

/-- The bytes that a CLOSE emits: the pending run's chunk and the end marker (R125, R152). -/
def State.lastBytes (s : State) : List Byte := streamBytes (pendingRun s.run.toNat ++ [.endMarker])

/-- EndOfScan and the end marker are one Emit (R125, R152, R177). -/
theorem endRun_packEnd_accepted {s : State} (hrun : s.run.toNat ≤ 62) (hroom : s.outbuf.length < s.bufCap)
    (hacc : accepts s (blocksDue s s.lastBytes)) :
    (endRun s).bind (emitPacked packEnd) = .go (afterEmit (s.setRun 0) s.lastBytes) := by
  have hcap : 1 ≤ s.bufCap := Nat.one_le_of_lt hroom
  rw [State.lastBytes, streamBytes_append, streamBytes_singleton] at hacc ⊢
  obtain ⟨hacc₁, hacc₂⟩ := accepts_append s _ _ hcap hacc
  have hmarker := emit_accepted _ (afterEmit (s.setRun 0) _) hcap (length_outbuf_afterEmit (s.setRun 0) _ hcap) hacc₂
  rw [endRun_accepted s hrun hroom hacc₁, Flow.bind_go, packEnd_eq, emitPacked, hmarker,
    afterEmit_append (s.setRun 0) _ _ hcap]

/-- A CLOSE at the end of the scan that the sink accepts (R125). -/
theorem exec_close_accepted {s : State} (ign : BitVec 80) (hs : s.fsm = .encoding) (hcount : s.pixCount.toNat = s.total)
    (hrun : s.run.toNat ≤ 62) (hroom : s.outbuf.length < s.bufCap) (hacc : accepts s (blocksToCome s s.lastBytes)) :
    exec (.close ign) s = .next (afterEmit (s.setRun 0) s.lastBytes).closeSession := by
  obtain ⟨hemit, hpart⟩ := accepts_blocksToCome_last (Nat.one_le_of_lt hroom) hacc
  have hflush := finalFlushAndClose_accepted (afterEmit (s.setRun 0) s.lastBytes) hpart
  simp only [exec, execClose, hs, closeEncoding, if_neg (not_not.mpr hcount), endRun_packEnd_accepted hrun hroom hemit,
    Flow.bind_go, hflush, Flow.outcome_go]
  rfl

/-- Settles O23: one Emit of the pending run and the end marker, the final flush, SinkClose and IDLE. -/
theorem closeEndsEncode : Obligations.CloseEndsEncode := by
  intro s ign hs hcount hrun hroom bytes t hacc
  have hclose : t.closeSession =
      if t.outbuf = [] then { t with sinkLog := t.sinkLog ++ [.close], fsm := .idle }
      else
        { t with
          outbuf := [], sinkIn := t.sinkIn.tail, sinkWrites := t.sinkWrites + 1
          sinkLog := t.sinkLog ++ [.block t.outbuf, .close], fsm := .idle } := by
    unfold State.closeSession
    split
    · rfl
    · simp [State.logClose, State.clearOut, State.logBlock, State.setFsm]
  rw [← hclose]
  exact exec_close_accepted ign hs hcount hrun hroom hacc

end Sys2Proof.Machine
end

section
/-!
SUPPORT. Whole encodes (spec/41_commands.md rules R131, R132): the host's command words decode to its commands, each of START,
PIXEL and CLOSE is one accepted Emit, and several Emits of a session are one Emit of their bytes together.
-/

namespace Sys2Proof.Machine

/-! ## The commands on the port -/

/-- A field of a concatenation above its low part. The widths are explicit, since those of a command word are numerals. -/
theorem field_above (n k : Nat) {lo len : Nat} (x : BitVec n) (y : BitVec k) (h : k ≤ lo) :
    (x ++ y).extractLsb' lo len = x.extractLsb' (lo - k) len := BitVec.extractLsb'_append_eq_of_le h

/-- A field of a concatenation inside its low part. -/
theorem field_below (n k : Nat) {lo len : Nat} (x : BitVec n) (y : BitVec k) (h : lo + len ≤ k) :
    (x ++ y).extractLsb' lo len = y.extractLsb' lo len := BitVec.extractLsb'_append_eq_of_add_le h

/-- A command decodes from its own word (R85 to R88). -/
theorem command_word {i : Instr} (hi : i.isCommand = true) : ∃ w, encode i = some (.command w) ∧ decodeCommand w = i := by
  cases i <;> simp only [Instr.isCommand, Bool.false_eq_true] at hi
  case start w h ch cs =>
    refine ⟨_, rfl, ?_⟩
    simp [decodeCommand, field_above 74 8, field_below 74 8, field_above 66 8, field_below 66 8, field_above 34 32,
      field_below 34 32, field_above 2 32, field_below 2 32]
  case pixel ign r g b a =>
    refine ⟨_, rfl, ?_⟩
    simp [decodeCommand, field_above 74 8, field_below 74 8, field_above 66 8, field_below 66 8, field_above 58 8,
      field_below 58 8, field_above 50 8, field_below 50 8, field_above 2 48, field_below 2 48]
  case close ign => exact ⟨_, rfl, by simp [decodeCommand, field_above 2 80, field_below 2 80]⟩
  case reserved ign => exact ⟨_, rfl, by simp [decodeCommand, field_above 2 80, field_below 2 80]⟩

/-- A step takes the next command of the port and executes it (R61, R129). -/
theorem step_commandWords {s : State} {i : Instr} {is : List Instr} {rest : List PortEvent} (hi : i.isCommand = true)
    (hpack : s.packIn = []) (hheld : s.held = false) (hport : s.port = commandWords (i :: is) ++ rest) :
    step s = exec i { s with port := commandWords is ++ rest } := by
  obtain ⟨w, hencode, hdecode⟩ := command_word hi
  have hhead : commandWords (i :: is) = .command w :: commandWords is := by simp [commandWords, hencode]
  rw [hhead, List.cons_append] at hport
  rw [step_command hpack hheld hport, hdecode]

/-- The fields of one PIXEL command: its ignored bits and its channels (R87). -/
abbrev PixelFields := BitVec 48 × Byte × Byte × Byte × Byte

/-- The PIXEL command of its fields. -/
def pixelCommand : PixelFields → Instr
  | (ign, r, g, b, a) => .pixel ign r g b a

/-- The pixel that a PIXEL command sends in an encode of `ch` channels (R100). -/
def sentPixel (ch : Byte) : PixelFields → Pixel
  | (_, r, g, b, a) => pixelOf ch r g b a

theorem encodeCommands_eq (w h : U32) (ch cs : Byte) (pixels : List PixelFields) (ign : BitVec 80) :
    encodeCommands w h ch cs pixels ign = .start w h ch cs :: (pixels.map pixelCommand ++ [.close ign]) := rfl

/-! ## The bytes that are still to come -/

/-- The bytes from a state of the scan on: the chunks of the pixels still to come, EndOfScan's, the end marker (R131). -/
def State.bytesToCome (s : State) (pixels : List PixelFields) : List Byte :=
  streamBytes
    (scanChunks s.cfgChannels s.prev s.run.toNat s.icache (pixels.map (sentPixel s.cfgChannels)) ++ [.endMarker])

/-- `s` after an accepted PIXEL, with the host's further transactions. -/
def State.pixelDone (s : State) (px : Pixel) (port : List PortEvent) : State :=
  afterEmit { s.countPixel.scanned (s.decision px) with port := port } (streamBytes (s.decision px).chunks)

/-- `s` after an accepted START with legal fields, with the host's further transactions. -/
def State.startDone (s : State) (w h : U32) (ch cs : Byte) (port : List PortEvent) : State :=
  afterEmit (State.begin { s with port := port } w h ch cs) (unitBytes (.header w h ch cs))

theorem map_snd_pixelOf (ch : Byte) (pixels : List PixelFields) :
    ((pixels.map Prod.snd).map fun (r, g, b, a) => pixelOf ch r g b a) = pixels.map (sentPixel ch) := by
  rw [List.map_map]
  rfl

/-- An image's stream is the header and the bytes from the initial scan state on (R58, R131). -/
theorem imageBytes_eq (s : State) (w h : U32) (ch cs : Byte) (pixels : List PixelFields) (port : List PortEvent) :
    imageBytes w h ch cs (pixels.map Prod.snd) =
      unitBytes (.header w h ch cs) ++ (s.startDone w h ch cs port).bytesToCome pixels := by
  rw [imageBytes, imageUnits, map_snd_pixelOf, List.append_assoc, streamBytes_append, streamBytes_singleton]
  rfl

/-- The table keeps RUN below the cap (R142). -/
theorem decision_run_le {s : State} (px : Pixel) : (s.decision px).run ≤ 61 := by
  by_cases hpx : px = s.prev
  · rw [decision_prev hpx]
    split
    next h => exact Nat.le_of_lt_succ h
    next => exact Nat.zero_le 61
  · rw [decision_ne hpx]
    exact Nat.zero_le 61

/-- The chunks of one pixel, then the bytes from the state that it leaves. -/
theorem bytesToCome_cons (s : State) (p : PixelFields) (pixels : List PixelFields) (port : List PortEvent) :
    s.bytesToCome (p :: pixels) =
      streamBytes (s.decision (sentPixel s.cfgChannels p)).chunks ++
        (s.pixelDone (sentPixel s.cfgChannels p) port).bytesToCome pixels := by
  have hrun : (s.pixelDone (sentPixel s.cfgChannels p) port).run.toNat = (s.decision (sentPixel s.cfgChannels p)).run :=
    Nat.mod_eq_of_lt (Nat.lt_of_le_of_lt (decision_run_le _) (by decide))
  rw [State.bytesToCome, State.bytesToCome, hrun, List.map_cons, scanChunks, ← streamBytes_append, List.append_assoc]
  rfl

/-! ## The blocks of a whole session -/

/-- A session's blocks are the whole ones, cut with what OUTBUF held before, and those of the rest of it. -/
theorem sessionBlocks_append (s : State) (a b : List Byte) (hcap : 1 ≤ s.bufCap) :
    sessionBlocks s.bufCap (s.outbuf ++ (a ++ b)) =
      fullBlocks s.bufCap (s.outbuf ++ a) ++ sessionBlocks s.bufCap ((afterEmit s a).outbuf ++ b) := by
  obtain ⟨hfull, hrest⟩ := fullBlocks_remainder_append s.bufCap hcap (s.outbuf ++ a) b
  rw [← List.append_assoc, sessionBlocks, hfull, hrest, List.append_assoc]
  rfl

/-- The blocks of a session are its bytes, in order (R197). -/
theorem flatten_sessionBlocks {cap : Nat} (hcap : 1 ≤ cap) (bytes : List Byte) : (sessionBlocks cap bytes).flatten = bytes := by
  conv_rhs => rw [← flatten_fullBlocks_append_remainder cap hcap bytes]
  rw [sessionBlocks, List.flatten_append]
  split
  next hnone => rw [hnone, List.flatten_nil]
  next => rw [List.flatten_singleton]

/-- No block is empty or longer than the capacity (R60). -/
theorem length_of_mem_sessionBlocks {cap : Nat} (hcap : 1 ≤ cap) {bytes b : List Byte} (hb : b ∈ sessionBlocks cap bytes) :
    1 ≤ b.length ∧ b.length ≤ cap := by
  obtain hfull | hpart := List.mem_append.mp hb
  · rw [length_of_mem_fullBlocks hfull]
    exact ⟨hcap, Nat.le_refl cap⟩
  · split at hpart
    next => cases hpart
    next hne =>
      rw [List.mem_singleton.mp hpart]
      exact ⟨List.length_pos_iff.mpr hne, (length_remainder_lt bytes hcap).le⟩

/-- Every block but the last is a whole one (R60). -/
theorem length_of_mem_dropLast_sessionBlocks {cap : Nat} {bytes b : List Byte} (hb : b ∈ (sessionBlocks cap bytes).dropLast) :
    b.length = cap := by
  apply length_of_mem_fullBlocks (l := bytes)
  rw [sessionBlocks] at hb
  split at hb
  next =>
    rw [List.append_nil] at hb
    exact List.mem_of_mem_dropLast hb
  next => rwa [List.dropLast_concat] at hb

/-! ## A session that is accepted to its end -/

/-- `t` is the end of an encode that had `bytes` still to emit in `s`: all of them delivered in blocks, and the sink closed
(R125, R131). -/
structure EncodeEnds (s : State) (bytes : List Byte) (t : State) : Prop where
  inv : t.Inv
  idle : t.fsm = .idle
  count : t.pixCount.toNat = s.total
  log : t.sinkLog = s.sinkLog ++ (sessionBlocks s.bufCap (s.outbuf ++ bytes)).map .block ++ [.close]

/-- An accepted Emit before the rest of the encode. -/
theorem EncodeEnds.of_afterEmit {s t : State} {a b : List Byte} (hcap : 1 ≤ s.bufCap) (h : EncodeEnds (afterEmit s a) b t) :
    EncodeEnds s (a ++ b) t where
  inv := h.inv
  idle := h.idle
  count := h.count
  log := by
    have hfirst : (afterEmit s a).sinkLog = s.sinkLog ++ (fullBlocks s.bufCap (s.outbuf ++ a)).map .block := rfl
    rw [h.log, hfirst, sessionBlocks_append s a b hcap, List.map_append, List.append_assoc s.sinkLog]
    rfl

/-- The sink events of a CLOSE: the whole blocks, the partial one, SinkClose (R194). -/
theorem closeSession_sinkLog (s : State) (bytes : List Byte) :
    (afterEmit s bytes).closeSession.sinkLog =
      s.sinkLog ++ (sessionBlocks s.bufCap (s.outbuf ++ bytes)).map .block ++ [.close] := by
  have houtbuf : (afterEmit s bytes).outbuf = remainder s.bufCap (s.outbuf ++ bytes) := rfl
  rw [State.closeSession, sessionBlocks, houtbuf]
  split
  next => simp [afterEmit]
  next => simp [afterEmit]

theorem closeSession_idle (t : State) : t.closeSession.fsm = .idle := rfl

theorem closeSession_pixCount (t : State) : t.closeSession.pixCount = t.pixCount := by
  unfold State.closeSession
  split <;> rfl

theorem closeSession_port (t : State) : t.closeSession.port = t.port := by
  unfold State.closeSession
  split <;> rfl

/-- Between two commands of an encode that still lacks `left` pixels: the machine is ready for the host's next command. -/
structure State.Scanning (s : State) (left : Nat) : Prop where
  inv : s.Inv
  session : s.fsm = .encoding
  free : s.held = false
  noUnit : s.packIn = []
  count : s.pixCount.toNat + left = s.total

/-- The step of a CLOSE that the sink accepts after the last pixel. -/
theorem step_close {s : State} {ign : BitVec 80} {rest : List PortEvent} (h : s.Scanning 0)
    (hport : s.port = commandWords [.close ign] ++ rest) (hacc : accepts s (blocksToCome s s.lastBytes)) :
    ∃ t, step s = .next t ∧ t.port = rest ∧ EncodeEnds s s.lastBytes t := by
  have hclose := exec_close_accepted (s := { s with port := rest }) ign h.session h.count (h.inv.run_max h.session)
    (h.inv.room h.free) hacc
  have hstep := (step_commandWords rfl h.noUnit h.free hport).trans hclose
  refine ⟨_, hstep, closeSession_port _, stepKeepsInvariant _ _ h.inv hstep, closeSession_idle _, ?_, ?_⟩
  · rw [closeSession_pixCount]
    exact h.count
  · exact closeSession_sinkLog _ _

/-- The step of a PIXEL that the sink accepts. -/
theorem step_pixel {s : State} {left : Nat} {p : PixelFields} {is : List Instr}
    {rest : List PortEvent} (h : s.Scanning (left + 1))
    (hport : s.port = commandWords (pixelCommand p :: is) ++ rest)
    (hacc : accepts s (blocksDue s (streamBytes (s.decision (sentPixel s.cfgChannels p)).chunks))) :
    step s = .next (s.pixelDone (sentPixel s.cfgChannels p) (commandWords is ++ rest)) := by
  obtain ⟨ign, r, g, b, a⟩ := p
  have hcount : s.pixCount.toNat ≠ s.total := by
    have := h.count
    omega
  rw [step_commandWords rfl h.noUnit h.free hport]
  exact exec_pixel_accepted ign rfl h.session hcount (h.inv.run_rest h.session h.free) (h.inv.room h.free) hacc

/-- After a PIXEL the machine is again between two commands, with one pixel less to come. -/
theorem State.Scanning.pixelDone {s : State} {left : Nat} {px : Pixel} {port : List PortEvent} (h : s.Scanning (left + 1))
    (hstep : step s = .next (s.pixelDone px port)) : (s.pixelDone px port).Scanning left where
  inv := stepKeepsInvariant _ _ h.inv hstep
  session := h.session
  free := h.free
  noUnit := h.noUnit
  count := by
    have hcount := h.count
    have hnext : (s.pixelDone px port).pixCount.toNat = s.pixCount.toNat + 1 := countPixel_toNat (by omega)
    have htotal : (s.pixelDone px port).total = s.total := rfl
    omega

/-- An accepted PIXEL before the rest of the encode. -/
theorem EncodeEnds.of_pixelDone {s t : State} {px : Pixel} {port : List PortEvent} {bytes : List Byte} (hcap : 1 ≤ s.bufCap)
    (h : EncodeEnds (s.pixelDone px port) bytes t) : EncodeEnds s (streamBytes (s.decision px).chunks ++ bytes) t :=
  have hall := EncodeEnds.of_afterEmit (s := { s.countPixel.scanned (s.decision px) with port := port }) hcap h
  { hall with }

/-- The rest of a scan and its CLOSE, from any state between two commands: one step each (R124, R125, R131). -/
theorem steps_scan {ign : BitVec 80} {rest : List PortEvent} (pixels : List PixelFields)
    {s : State} (h : s.Scanning pixels.length)
    (hport : s.port = commandWords (pixels.map pixelCommand ++ [.close ign]) ++ rest)
    (hacc : accepts s (blocksToCome s (s.bytesToCome pixels))) :
    ∃ t, steps (pixels.length + 1) s = .next t ∧ t.port = rest ∧ EncodeEnds s (s.bytesToCome pixels) t := by
  induction pixels generalizing s with
  | nil =>
    obtain ⟨t, hstep, hrest, hends⟩ := step_close h hport hacc
    exact ⟨t, steps_one hstep, hrest, hends⟩
  | cons p pixels ih =>
    rw [bytesToCome_cons s p pixels (commandWords (pixels.map pixelCommand ++ [Instr.close ign]) ++ rest)] at hacc ⊢
    obtain ⟨hnow, hlater⟩ := accepts_blocksToCome_append h.inv.cap hacc
    have hstep := step_pixel h hport hnow
    obtain ⟨t, hsteps, hrest, hends⟩ := ih (h.pixelDone hstep) rfl hlater
    refine ⟨t, ?_, hrest, hends.of_pixelDone h.inv.cap⟩
    rw [steps, hstep]
    exact hsteps

/-- The step of a START with legal fields that the sink accepts. -/
theorem step_start {s : State} {w h : U32} {ch cs : Byte} {is : List Instr} {rest : List PortEvent} (hinv : s.Inv)
    (hs : s.fsm = .idle) (hpack : s.packIn = []) (hl : headerLegal w h ch cs)
    (hport : s.port = commandWords (.start w h ch cs :: is) ++ rest)
    (hacc : accepts s (blocksDue (s.begin w h ch cs) (unitBytes (.header w h ch cs)))) :
    step s = .next (s.startDone w h ch cs (commandWords is ++ rest)) := by
  have hout : s.outbuf = [] := hinv.closed_empty (by simp [hs])
  have hheld : s.held = false := (hinv.begin hs hl).free
  rw [step_commandWords rfl hpack hheld hport]
  exact exec_start_accepted hs hl hinv.cap hout hacc

/-- After START no pixel of the image is encoded yet. -/
theorem scanning_startDone {s : State} {w h : U32} {ch cs : Byte} {port : List PortEvent} (hinv : s.Inv)
    (hs : s.fsm = .idle) (hpack : s.packIn = []) (hl : headerLegal w h ch cs)
    (hstep : step s = .next (s.startDone w h ch cs port)) : (s.startDone w h ch cs port).Scanning (w.toNat * h.toNat) where
  inv := stepKeepsInvariant _ _ hinv hstep
  session := rfl
  free := (hinv.begin hs hl).free
  noUnit := hpack
  count := Nat.zero_add _

/-- A whole encode from IDLE: START, then the scan and its CLOSE (R131). -/
theorem steps_encode {s : State} {w h : U32} {ch cs : Byte} {pixels : List PixelFields} {ign : BitVec 80}
    {rest : List PortEvent} (hinv : s.Inv) (hs : s.fsm = .idle) (hpack : s.packIn = []) (hl : headerLegal w h ch cs)
    (hlen : pixels.length = w.toNat * h.toNat)
    (hport : s.port = commandWords (encodeCommands w h ch cs pixels ign) ++ rest)
    (hacc : accepts s (((imageBytes w h ch cs (pixels.map Prod.snd)).length + s.bufCap - 1) / s.bufCap)) :
    ∃ t, steps (pixels.length + 2) s = .next t ∧ t.port = rest ∧ t.Inv ∧ t.fsm = .idle ∧
      t.pixCount.toNat = pixels.length ∧
      t.sinkLog = s.sinkLog ++
        (sessionBlocks s.bufCap (imageBytes w h ch cs (pixels.map Prod.snd))).map .block ++ [.close] := by
  have hout : s.outbuf = [] := hinv.closed_empty (by simp [hs])
  rw [encodeCommands_eq] at hport
  have hbytes := imageBytes_eq s w h ch cs pixels (commandWords (pixels.map pixelCommand ++ [Instr.close ign]) ++ rest)
  have hall : accepts (s.begin w h ch cs) (blocksToCome (s.begin w h ch cs) (imageBytes w h ch cs (pixels.map Prod.snd))) := by
    rw [blocksToCome, State.begin_outbuf, hout]
    exact hacc
  rw [hbytes] at hall ⊢
  obtain ⟨hheader, hscan⟩ := accepts_blocksToCome_append (s := s.begin w h ch cs) hinv.cap hall
  have hstep := step_start hinv hs hpack hl hport hheader
  have hscanning := scanning_startDone hinv hs hpack hl hstep
  rw [← hlen] at hscanning
  obtain ⟨t, hsteps, hrest, hends⟩ := steps_scan pixels hscanning rfl hscan
  have hencode := EncodeEnds.of_afterEmit (s := State.begin { s with port := _ } w h ch cs) hinv.cap hends
  refine ⟨t, ?_, hrest, hends.inv, hends.idle, hends.count.trans hlen.symm, ?_⟩
  · rw [steps, hstep]
    exact hsteps
  · have hlog := hencode.log
    rwa [State.begin_outbuf, hout] at hlog

/-! ## The obligations -/

/-- Outside ERROR no error shows in STATUS (R31, R33). -/
theorem State.Inv.status_idle {t : State} (h : t.Inv) (ht : t.fsm = .idle) : t.status = 0 ∧ t.errInfo = 0 := by
  obtain ⟨hcode, hinfo, hsup⟩ := h.no_error (by simp [ht])
  refine ⟨?_, hinfo⟩
  rw [State.status, hcode, hsup, ht]
  rfl

/-- Settles O59: the blocks are those of the image's bytes. -/
theorem wholeEncodeDeliversTheStream : Obligations.WholeEncodeDeliversTheStream := by
  intro s w h ch cs pixels ign rest hinv hs hpack hl hlen hport bytes hacc
  obtain ⟨t, hsteps, hrest, htinv, hidle, hcount, hlog⟩ := steps_encode hinv hs hpack hl hlen hport hacc
  obtain ⟨hstatus, hinfo⟩ := htinv.status_idle hidle
  exact ⟨t, sessionBlocks s.bufCap bytes, hsteps, hidle, hstatus, hinfo, hcount, htinv.closed_empty (by simp [hidle]), hrest,
    hlog, flatten_sessionBlocks hinv.cap bytes, fun _ => length_of_mem_dropLast_sessionBlocks,
    fun _ => length_of_mem_sessionBlocks hinv.cap⟩

/-- An image's bytes depend on its pixels as PixelOf gives them (R100, R131). -/
theorem imageBytes_congr {w h : U32} {ch cs : Byte} {pixels₁ pixels₂ : List PixelFields}
    (hsame : pixels₁.map (sentPixel ch) = pixels₂.map (sentPixel ch)) :
    imageBytes w h ch cs (pixels₁.map Prod.snd) = imageBytes w h ch cs (pixels₂.map Prod.snd) := by
  rw [imageBytes, imageUnits, map_snd_pixelOf, hsame, imageBytes, imageUnits, map_snd_pixelOf]

/-- Settles O60: both machines deliver the blocks of the same bytes. -/
theorem encodesAreIdempotent : Obligations.EncodesAreIdempotent := by
  intro s₁ s₂ w h ch cs pixels₁ pixels₂ ign₁ ign₂ hinv₁ hinv₂ hs₁ hs₂ hpack₁ hpack₂ hl hlen₁ hsame hport₁ hport₂ hacc₁ hacc₂
  have hbytes : imageBytes w h ch cs (pixels₁.map Prod.snd) = imageBytes w h ch cs (pixels₂.map Prod.snd) :=
    imageBytes_congr hsame
  have hlen₂ : pixels₂.length = w.toNat * h.toNat := by
    have := congrArg List.length hsame
    rw [List.length_map, List.length_map] at this
    exact this.symm.trans hlen₁
  obtain ⟨t₁, hsteps₁, -, -, -, -, hlog₁⟩ :=
    steps_encode hinv₁ hs₁ hpack₁ hl hlen₁ (hport₁.trans (List.append_nil _).symm) hacc₁
  obtain ⟨t₂, hsteps₂, -, -, -, -, hlog₂⟩ :=
    steps_encode hinv₂ hs₂ hpack₂ hl hlen₂ (hport₂.trans (List.append_nil _).symm) hacc₂
  refine ⟨t₁, t₂, _, _, hsteps₁, hsteps₂, hlog₁, hlog₂, ?_, fun hcap => by rw [hcap, hbytes]⟩
  rw [deliveredBytes_map_block, deliveredBytes_map_block, flatten_sessionBlocks hinv₁.cap, flatten_sessionBlocks hinv₂.cap,
    hbytes]

end Sys2Proof.Machine
end

section
/-!
SUPPORT. The selector (spec/42_selector.md rules R140 to R157). Row by row, a PIXEL that the sink accepts is the state and the
one Emit that its decision gives (`exec_pixel_accepted`); the deltas of R147 are a balanced remainder modulo 256, which the
LUMA test of R149 cannot tell from the exact difference.
-/

namespace Sys2Proof.Machine

/-! ## The channel deltas -/

/-- sext_8 is the word read as signed (R9). -/
theorem sext8_eq_toInt (v : Byte) : sext8 v = v.toInt := by
  rw [sext8, BitVec.toInt_eq_toNat_cond]
  split
  next h => rw [if_pos (by omega)]
  next h =>
    rw [if_neg (by omega)]
    rfl

/-- A delta is the balanced remainder of the difference modulo 256 (R147). -/
theorem delta_eq_bmod (cur prev : Byte) : delta cur prev = ((cur.toNat : Int) - prev.toNat).bmod 256 := by
  rw [delta, sext8_eq_toInt, BitVec.toInt_sub, BitVec.toInt_eq_toNat_bmod cur, BitVec.toInt_eq_toNat_bmod prev,
    Int.bmod_sub_bmod, Int.sub_bmod_bmod]

theorem delta_range (cur prev : Byte) : -128 ≤ delta cur prev ∧ delta cur prev ≤ 127 := by
  rw [delta_eq_bmod]
  exact ⟨Int.le_bmod (by decide), Int.le_of_lt_add_one (Int.bmod_lt (by decide))⟩

/-- Settles O56: the balanced remainder modulo 256 is congruent to the difference; the corner cases by evaluation. -/
theorem deltaIsTheWrappedDifference : Obligations.DeltaIsTheWrappedDifference := by
  refine ⟨fun cur prev => ?_, by decide, by decide, by decide, by decide, by decide⟩
  obtain ⟨hlow, hhigh⟩ := delta_range cur prev
  refine ⟨hlow, hhigh, ?_⟩
  rw [delta_eq_bmod]
  exact Int.emod_eq_zero_of_dvd Int.dvd_self_sub_bmod

/-- Below 248 in size an integer is in LUMA's range exactly when its 8-bit value is: 8-bit arithmetic changes it by a multiple
of 256 (R149, D18). -/
theorem inLumaRB_bmod {x : Int} (hlow : -248 ≤ x) (hhigh : x < 248) :
    (inLumaRB x ↔ inLumaRB (x.bmod 256)) ∧ (inLumaRB x → x = x.bmod 256) := by
  by_cases hfits : -128 ≤ x ∧ x < 128
  · have hexact : x.bmod 256 = x := Int.bmod_eq_of_le hfits.1 hfits.2
    rw [hexact]
    exact ⟨Iff.rfl, fun _ => rfl⟩
  · have hout : ¬ inLumaRB x := by omega
    have hwrapped : ¬ inLumaRB (x.bmod 256) := by
      rw [Int.bmod_def]
      omega
    exact ⟨iff_of_false hout hwrapped, fun h => absurd h hout⟩

/-- Settles O57: with dg in LUMA's range the exact difference lies between -159 and 159. -/
theorem lumaTestIsWidthIndependent : Obligations.LumaTestIsWidthIndependent := by
  intro cr pr cg pg dr dg wrapped hdg
  obtain ⟨hlow, hhigh⟩ : -128 ≤ dr ∧ dr ≤ 127 := delta_range cr pr
  have hwrapped : wrapped = (dr - dg).bmod 256 := BitVec.toInt_ofInt (dr - dg)
  rw [hwrapped]
  exact inLumaRB_bmod (by omega) (by omega)

/-! ## The chunk and the cache of a pixel that differs from PREV -/

theorem cacheWith_hit {px : Pixel} {s : State} (hhit : icacheRead (pixelHash px) s = px) :
    cacheWith px s.icache = s.icache := if_pos hhit

theorem cacheWith_miss {px : Pixel} {s : State} (hmiss : icacheRead (pixelHash px) s ≠ px) :
    cacheWith px s.icache = (icacheWrite (pixelHash px) px s).icache := if_neg hmiss

/-- An index hit is coded as INDEX (R144). -/
theorem chosenChunk_hit {ch : Byte} {px prev slot : Pixel} (hhit : slot = px) :
    chosenChunk ch px prev slot = .index (pixelHash px) := if_pos hhit

/-- A changed alpha fails the DIFF and the LUMA test, so that with 4 channels RGBA is left (R146, R150, R157). -/
theorem chosenChunk_alpha {ch : Byte} {px prev slot : Pixel} (hmiss : slot ≠ px) (halpha : px.a ≠ prev.a) (hch : ch ≠ 3#8) :
    chosenChunk ch px prev slot = .rgba px.r px.g px.b px.a := by
  rw [chosenChunk, if_neg hmiss, missChunk, if_neg fun h => halpha h.1, if_neg fun h => halpha h.1, if_neg hch]

/-! ## PIXEL row by row -/

/-- A PIXEL before the end of the scan is EncodePixel of the counted pixel (R124). -/
theorem exec_pixel_encoding {s : State} (ign : BitVec 48) (r g b a : Byte) (hs : s.fsm = .encoding)
    (hcount : s.pixCount.toNat ≠ s.total) :
    exec (.pixel ign r g b a) s =
      (encodePixel (pixelOf s.cfgChannels r g b a) s.countPixel).forgetScanOnError.outcome := by
  simp only [exec, execPixel, hs, pixelEncoding, if_neg hcount]

/-- Below the cap a continued run only counts (R141). -/
theorem continueRun_below_cap {s : State} (hrun : s.run.toNat < 61) : continueRun s = .go (s.setRun (s.run + 1)) := by
  have hne : s.run + 1 ≠ 62#6 := by
    intro heq
    have hval : (s.run.toNat + 1) % 64 = 62 := by simpa using congrArg BitVec.toNat heq
    omega
  rw [continueRun, if_neg hne]

/-- The run that reaches the cap is the one chunk RUN 62, and RUN is cleared (R142). -/
theorem decision_at_cap {s : State} (hrun : s.run.toNat = 61) :
    s.decision s.prev = ⟨[.run 62], s.prev, 0, s.icache⟩ := by
  rw [decision_prev rfl, if_neg (by omega)]

/-- Six more bytes are as many as a PIXEL can emit (R155). -/
theorem accepts_decision {s : State} (px : Pixel) (hacc : accepts s ((s.outbuf.length + 6) / s.bufCap)) :
    accepts s (blocksDue s (streamBytes (s.decision px).chunks)) := by
  have hlen := length_decision_le s px
  have hdue : blocksDue s (streamBytes (s.decision px).chunks) ≤ (s.outbuf.length + 6) / s.bufCap :=
    Nat.div_le_div_right (by rw [List.length_append]; omega)
  exact fun k hk => hacc k (hk.trans_le hdue)

/-- A pixel that differs from PREV: the pending run and its chunk go out, RUN is cleared, PREV set, the cache looked up
(R143 to R151). -/
theorem exec_pixel_ne_accepted {s : State} {px : Pixel} {chunk : Instr} (ign : BitVec 48) {r g b a : Byte}
    (hpx : pixelOf s.cfgChannels r g b a = px) (hs : s.fsm = .encoding) (hcount : s.pixCount.toNat ≠ s.total)
    (hrun : s.run.toNat ≤ 61) (hroom : s.outbuf.length < s.bufCap) (hne : px ≠ s.prev)
    (hchunk : chosenChunk s.cfgChannels px s.prev (icacheRead (pixelHash px) s) = chunk)
    (hacc : accepts s (blocksDue s (streamBytes (pendingRun s.run.toNat) ++ unitBytes chunk))) :
    exec (.pixel ign r g b a) s =
      .next (afterEmit
        { s with pixCount := s.pixCount + 1, run := 0, prev := px, icache := cacheWith px s.icache }
        (streamBytes (pendingRun s.run.toNat) ++ unitBytes chunk)) := by
  have hexec := exec_pixel_accepted ign hpx hs hcount hrun hroom
  rw [decision_ne hne, hchunk, streamBytes_append, streamBytes_singleton] at hexec
  exact hexec hacc

/-! ## The obligations -/

/-- Settles O15: the decision of the state is the table's. -/
theorem pixelFollowsDecisionTable : Obligations.PixelFollowsDecisionTable :=
  fun _ ign _ _ _ _ hs hcount hrun hroom hacc => exec_pixel_accepted ign rfl hs hcount hrun hroom hacc

/-- Settles O16: below the cap no byte is emitted, so that no room is needed; at the cap RUN 62 is the only chunk. -/
theorem runPixelOnlyCounts : Obligations.RunPixelOnlyCounts := by
  intro s ign r g b a hs hcount hprev
  refine ⟨fun hrun => ?_, fun hrun hroom hacc => ?_⟩
  · have hgo : encodePixel s.prev s.countPixel = .go (s.countPixel.setRun (s.run + 1)) :=
      (encodePixel_run rfl).trans (continueRun_below_cap (s := s.countPixel) hrun)
    rw [exec_pixel_encoding ign r g b a hs hcount, hprev, hgo]
    rfl
  · have hexec := exec_pixel_accepted ign hprev hs hcount hrun.le hroom
    rw [decision_at_cap hrun] at hexec
    exact hexec hacc

/-- Settles O17: on a hit the chunk is INDEX and the cache is the one looked up. -/
theorem indexHitEmitsSlotAndKeepsCache : Obligations.IndexHitEmitsSlotAndKeepsCache := by
  intro s ign r g b a hs hcount hrun hroom px bytes hne hhit hacc
  have hexec := exec_pixel_ne_accepted ign rfl hs hcount hrun hroom hne (chosenChunk_hit hhit) hacc
  rwa [cacheWith_hit hhit] at hexec

/-- Settles O18: on a miss the cache is the one that ICacheWrite leaves. -/
theorem indexMissOverwritesItsSlot : Obligations.IndexMissOverwritesItsSlot := by
  intro s ign r g b a hs hcount hrun hroom hacc px hne hmiss
  have hexec := exec_pixel_accepted ign rfl hs hcount hrun hroom (accepts_decision px hacc)
  have hcache : (s.decision px).icache = (icacheWrite (pixelHash px) px s).icache := by
    rw [decision_ne hne, cacheWith_miss hmiss]
  have hread (t : State) (ht : t.icache = (s.decision px).icache) (h : Slot) :
      icacheRead h t = icacheRead h (icacheWrite (pixelHash px) px s) := by
    rw [icacheRead, icacheRead, ht, hcache]
  refine ⟨_, hexec, hs, ?_, fun h hother => ?_⟩
  · rw [hread _ rfl]
    exact icacheRead_icacheWrite_same _ _ _
  · rw [hread _ rfl]
    exact icacheRead_icacheWrite_ne _ _ _ _ hother.symm

/-- Settles O19: the chunk is RGBA, and the pixel, which differs from PREV in alpha, is a miss. -/
theorem alphaChangeForcesRgba : Obligations.AlphaChangeForcesRgba := by
  intro s ign r g b a hs hcount hch hrun hroom px bytes halpha hmiss hacc
  have hne3 : s.cfgChannels ≠ 3#8 := by rw [hch]; decide
  have hne : px ≠ s.prev := fun heq => halpha (congrArg Pixel.a heq)
  have hexec := exec_pixel_ne_accepted ign (pixelOf_of_ne_three hne3 r g b a) hs hcount hrun hroom hne
    (chosenChunk_alpha hmiss halpha hne3) hacc
  rwa [cacheWith_miss hmiss] at hexec

/-- Settles O21: the bytes are those of the decision's chunks. -/
theorem pixelEmitsAtMostSixBytes : Obligations.PixelEmitsAtMostSixBytes := by
  intro s ign r g b a hinv hs hheld hcount hacc
  obtain ⟨px, hpx⟩ : ∃ px, pixelOf s.cfgChannels r g b a = px := ⟨_, rfl⟩
  have hexec := exec_pixel_accepted ign hpx hs hcount (hinv.run_rest hs hheld) (hinv.room hheld) (accepts_decision px hacc)
  obtain ⟨new, hlog, hbytes⟩ := afterEmit_delivers (s.countPixel.scanned (s.decision px))
    (streamBytes (s.decision px).chunks) hinv.cap
  refine ⟨_, _, new, hexec, hlog, hbytes, length_decision_le s px, fun hprev hrun => ?_⟩
  rw [← hpx, hprev, decision_at_cap hrun]
  rfl

end Sys2Proof.Machine
end

section
/-!
SUPPORT. The chunk encoder of spec/43_chunk_encoder.md (rules R170 to R179): the rows RGB, RGBA, RUN and HEADER by themselves
(notes/assumptions/1.md), and the stops of the stream rows: outside the packer's range (R179), where R83 never emits the chunk
(notes/assumptions/19.md), and outside a session.
-/

namespace Sys2Proof.Machine

/-! ## The raw chunks, the run and the header by themselves -/

/-- Settles O29: RGB and RGBA have every operand in range, and R83 excludes the other channel count and PREV's own pixel. -/
theorem rawRowsEmitTagAndChannels : Obligations.RawRowsEmitTagAndChannels := by
  intro s r g b a hs hroom
  refine ⟨fun hch hne hacc => ?_, fun hch hne hacc => ?_⟩
  · have hmay : mayEmit (.rgb r g b) s = true := decide_eq_true ⟨hch, hne⟩
    exact exec_unit_accepted rfl rfl hs hmay hroom hacc
  · have hmay : mayEmit (.rgba r g b a) s = true := decide_eq_true ⟨hch, hne⟩
    exact exec_unit_accepted rfl rfl hs hmay hroom hacc

/-- Settles O30: RUN is cleared after its Emit, which does not read it. -/
theorem runRowEmitsItsByteAndClearsRun : Obligations.RunRowEmitsItsByteAndClearsRun := by
  intro s n hpos hmax hrun hend hs hroom hacc
  have hwf : (Instr.run n).WellFormed := decide_eq_true ⟨hpos, hmax⟩
  have hmay : mayEmit (.run n) s = true := decide_eq_true ⟨hrun, hend⟩
  exact exec_unit_accepted rfl hwf hs hmay hroom hacc

/-- Settles O31: the fields are in PackHeader's range, and R83 never excludes a HEADER. -/
theorem headerRowEmitsFourteenBytes : Obligations.HeaderRowEmitsFourteenBytes := by
  intro s w h ch cs hfields hs hroom bytes hacc
  have hwf : (Instr.header w h ch cs).WellFormed := decide_eq_true hfields
  exact exec_unit_accepted rfl hwf hs rfl hroom hacc

/-! ## A packer outside its range -/

theorem packDIFF_eq_none {dr dg db : Int} (h : (Instr.diff dr dg db).wf = false) : packDIFF dr dg db = none :=
  if_neg (of_decide_eq_false h)

theorem packLUMA_eq_none {dg drg dbg : Int} (h : (Instr.luma dg drg dbg).wf = false) : packLUMA dg drg dbg = none :=
  if_neg (of_decide_eq_false h)

theorem packRUN_eq_none {n : Nat} (h : (Instr.run n).wf = false) : packRUN n = none := if_neg (of_decide_eq_false h)

theorem packHeader_eq_none {w h : U32} {ch cs : Byte} (hwf : (Instr.header w h ch cs).wf = false) :
    packHeader w h ch cs = none :=
  if_neg (of_decide_eq_false hwf)

/-! ## Where the stream rows stop -/

/-- Every stream row is an emission in a session, which stops where an operand is out of the packer's range (R179). -/
theorem exec_unit_eq_inSession {i : Instr} (hi : i.isCommand = false) :
    ∃ op : State → Flow, (∀ s, exec i s = inSession i op s) ∧ (i.wf = false → ∀ s, op s = .stop .packerOperand) := by
  cases i <;> simp only [Instr.isCommand, reduceCtorEq] at hi
  case index h => exact ⟨_, fun _ => rfl, nofun⟩
  case diff dr dg db => exact ⟨_, fun _ => rfl, fun hwf s => by rw [packDIFF_eq_none hwf, emitPacked]⟩
  case luma dg drg dbg => exact ⟨_, fun _ => rfl, fun hwf s => by rw [packLUMA_eq_none hwf, emitPacked]⟩
  case rgb r g b => exact ⟨_, fun _ => rfl, nofun⟩
  case rgba r g b a => exact ⟨_, fun _ => rfl, nofun⟩
  case run n => exact ⟨_, fun _ => rfl, fun hwf s => by rw [emitRun, packRUN_eq_none hwf, emitPacked, Flow.bind_stop]⟩
  case header w h ch cs => exact ⟨_, fun _ => rfl, fun hwf s => by rw [packHeader_eq_none hwf, emitPacked]⟩
  case endMarker => exact ⟨_, fun _ => rfl, nofun⟩

/-- An operand out of range comes to the packer, which has no meaning for it (R179). -/
theorem exec_unit_illFormed {i : Instr} {s : State} (hi : i.isCommand = false) (hs : s.fsm = .encoding) (hwf : i.wf = false) :
    exec i s = .fault .packerOperand := by
  obtain ⟨op, hexec, hstop⟩ := exec_unit_eq_inSession hi
  rw [hexec, inSession_illFormed op hs hwf, hstop hwf, Flow.outcome_stop]

/-- A well-formed unit that the table of R83 excludes in the state stops by name (notes/assumptions/19.md). -/
theorem exec_unit_neverEmitted {i : Instr} {s : State} (hi : i.isCommand = false) (hs : s.fsm = .encoding)
    (hwf : i.WellFormed) (hmay : mayEmit i s = false) : exec i s = .fault .neverEmitted := by
  obtain ⟨op, hexec, -⟩ := exec_unit_eq_inSession hi
  rw [hexec, inSession_neverEmitted op hs hwf hmay]

/-- In IDLE there is no session to carry a unit's bytes (R196, R198). -/
theorem exec_unit_idle {i : Instr} {s : State} (hi : i.isCommand = false) (hs : s.fsm = .idle) :
    exec i s = .fault .noSession := by
  obtain ⟨op, hexec, -⟩ := exec_unit_eq_inSession hi
  rw [hexec, inSession, hs]

/-- A LUMA that a DIFF could code is in LUMA's own range (R72, R73). -/
theorem luma_wellFormed_of_inDiff {dg drg dbg : Int} (hr : inDiff (drg + dg)) (hg : inDiff dg) (hb : inDiff (dbg + dg)) :
    (Instr.luma dg drg dbg).WellFormed :=
  decide_eq_true (by omega)

/-- Settles O33: in a session the stops are those of an ill-formed unit and of one that `mayEmit` excludes; IDLE and ERROR
come before both. -/
theorem unitsStopOutsideTheirDomain : Obligations.UnitsStopOutsideTheirDomain := by
  intro s
  refine ⟨fun hs => ⟨fun i hi hwf => exec_unit_illFormed hi hs hwf, exec_unit_neverEmitted rfl hs rfl rfl,
    fun dg drg dbg hr hg hb => ?_, fun r g b hex => ?_, fun r g b a hex => ?_, fun n hpos hmax hex => ?_⟩,
    fun i hi => ⟨exec_unit_idle hi, exec_of_error i⟩⟩
  · have hmay : mayEmit (.luma dg drg dbg) s = false := decide_eq_false (not_not_intro ⟨hr, hg, hb⟩)
    exact exec_unit_neverEmitted rfl hs (luma_wellFormed_of_inDiff hr hg hb) hmay
  · have hmay : mayEmit (.rgb r g b) s = false := decide_eq_false fun ⟨hch, hne⟩ => hex.elim (· hch) hne
    exact exec_unit_neverEmitted rfl hs rfl hmay
  · have hmay : mayEmit (.rgba r g b a) s = false := decide_eq_false fun ⟨hch, hne⟩ => hex.elim (· hch) hne
    exact exec_unit_neverEmitted rfl hs rfl hmay
  · have hmay : mayEmit (.run n) s = false := decide_eq_false hex
    have hwf : (Instr.run n).WellFormed := decide_eq_true ⟨hpos, hmax⟩
    exact exec_unit_neverEmitted rfl hs hwf hmay

end Sys2Proof.Machine
end

section
/-!
SUPPORT. The serializer seen from the commands (spec/44_serializer.md rules R190 to R198): the three ends of a stream row's
Emit, the error exit of a session, a CLOSE whose block fails, the command that is held on its block, and the silence of the
sink port outside a session.
-/

namespace Sys2Proof.Machine

/-! ## The stream rows -/

/-- A row's own update after its emission leaves OUTBUF and the sink alone. -/
@[simp] theorem afterUnit_sinkLog (i : Instr) (s : State) : (afterUnit i s).sinkLog = s.sinkLog := by
  cases i <;> rfl

@[simp] theorem afterUnit_outbuf (i : Instr) (s : State) : (afterUnit i s).outbuf = s.outbuf := by
  cases i <;> rfl

/-- Settles O34: an accepted row is one Emit, which cuts OUTBUF's bytes and the unit's into blocks. -/
theorem emittedStreamIsCutIntoBlocks : Obligations.EmittedStreamIsCutIntoBlocks := by
  intro s i hi hwf hmay hs hroom hacc
  have hcap : 1 ≤ s.bufCap := Nat.one_le_of_lt hroom
  refine ⟨_, fullBlocks s.bufCap (s.outbuf ++ unitBytes i), exec_unit_accepted hi hwf hs hmay hroom hacc, ?_,
    fun b => length_of_mem_fullBlocks, ?_, ?_⟩
  · rw [afterUnit_sinkLog]
    rfl
  · rw [afterUnit_outbuf]
    exact length_outbuf_afterEmit s _ hcap
  · rw [afterUnit_outbuf]
    exact flatten_fullBlocks_append_remainder s.bufCap hcap _

/-- Settles O35: the Emit fails at block `k`, and what a row does after its emission is not reached. -/
theorem unitBlockFailureIsSink : Obligations.UnitBlockFailureIsSink := by
  intro s i k code hi hwf hmay hs hroom hk hacc hfail
  rw [exec_unit hi hwf hs hmay, emit_failed _ s k code (Nat.one_le_of_lt hroom) hroom hk hacc hfail]
  rfl

/-- Block number `k` of a byte sequence (R191). -/
theorem getD_fullBlocks {cap k : Nat} {l : List Byte} (hk : k < l.length / cap) :
    (fullBlocks cap l).getD k [] = (l.drop (k * cap)).take cap := by
  simp [fullBlocks, hk]

/-- Settles O36: the Emit is held at block `k`, which is then what OUTBUF holds. -/
theorem unitHeldOnUnansweredBlock : Obligations.UnitHeldOnUnansweredBlock := by
  intro s i k hi hwf hmay hs hroom hk hacc hheld
  rw [exec_unit hi hwf hs hmay, emit_held _ s k (Nat.one_le_of_lt hroom) hroom hk hacc hheld, getD_fullBlocks hk]
  rfl

/-! ## The error exit of a session -/

/-- With OUTBUF empty there is no block to write before SinkClose (R195). -/
theorem afterErrorExit_empty {s : State} (code : ErrorCode) (info : U64) (hout : s.outbuf = []) :
    afterErrorExit s code info = s.logClose.enterError code info := by
  simp [afterErrorExit, hout, State.enterError, State.logClose]

/-- The partial block is accepted, and SinkClose follows (R195). -/
theorem afterErrorExit_ok {s : State} (code : ErrorCode) (info : U64) (hout : s.outbuf ≠ []) (ha : answerAt s 0 = .ok) :
    afterErrorExit s code info = ((s.logBlock s.outbuf).logClose).enterError code info := by
  simp [afterErrorExit, hout, ha, State.enterError, State.logClose, State.logBlock]

/-- The partial block fails: ERR_SUP and no SinkClose (R195). -/
theorem afterErrorExit_fail {s : State} (code : ErrorCode) (info : U64) {sinkCode : U32} (hout : s.outbuf ≠ [])
    (ha : answerAt s 0 = .fail sinkCode) :
    afterErrorExit s code info = ((s.logBlock s.outbuf).setSup).enterError code info := by
  simp [afterErrorExit, hout, ha, State.enterError, State.setSup, State.logBlock]

/-- A PIXEL past the end of the scan (R124, R211). -/
theorem exec_pixel_bounds {s : State} (ign : BitVec 48) (r g b a : Byte) (hs : s.fsm = .encoding)
    (hc : s.pixCount.toNat = s.total) : exec (.pixel ign r g b a) s = .next (afterErrorExit s .bounds s.pixCount) := by
  simp only [exec, execPixel, hs, pixelEncoding, if_pos hc, raiseError_session .bounds _ s hs (by decide), Flow.outcome_halt]

/-- Settles O14: each of the four commands goes through the error exit and nothing else. -/
theorem errorExitFlushesAndCloses : Obligations.ErrorExitFlushesAndCloses := by
  intro s i code info hs hraises
  obtain ⟨hstart, hreserved⟩ := (outOfStateCommandsRaiseProtocol s).2.1 hs
  have hexec : exec i s = .next (afterErrorExit s code info) := by
    obtain ⟨ign, rfl, rfl, rfl⟩ | ⟨w, h, ch, cs, rfl, rfl, rfl⟩ | ⟨ign, r, g, b, a, rfl, hc, rfl, rfl⟩ |
      ⟨ign, rfl, hc, rfl, rfl⟩ := hraises
    · exact hreserved ign
    · exact hstart w h ch cs
    · exact exec_pixel_bounds ign r g b a hs hc
    · exact shortCloseIsMalformed s ign hs hc
  refine ⟨fun hout => ⟨_, hexec, ?_⟩, fun hout ha => ⟨_, hexec, ?_⟩, fun hout sinkCode ha => ⟨_, hexec, ?_⟩⟩
  · simp [afterErrorExit_empty code info hout]
  · simp [afterErrorExit_ok code info hout ha]
  · simp [afterErrorExit_fail code info hout ha]

/-! ## A CLOSE whose block fails -/

/-- The blocks of an Emit come before those of the next one. -/
theorem afterBlocks_append_left {s : State} {a : List Byte} {k : Nat} (b out : List Byte) (hcap : 1 ≤ s.bufCap)
    (hk : k < blocksDue s a) : afterBlocks s (a ++ b) k out = afterBlocks s a k out := by
  have hlen : k + 1 ≤ (fullBlocks s.bufCap (s.outbuf ++ a)).length := by rwa [length_fullBlocks]
  obtain ⟨hblocks, -⟩ := fullBlocks_remainder_append s.bufCap hcap (s.outbuf ++ a) b
  simp only [afterBlocks, ← List.append_assoc, hblocks, List.take_append_of_le_length hlen]

theorem afterBlocks_append_right (s : State) (a b : List Byte) (k : Nat) (out : List Byte) (hcap : 1 ≤ s.bufCap) :
    afterBlocks (afterEmit s a) b k out = afterBlocks s (a ++ b) (blocksDue s a + k) out := by
  obtain ⟨hblocks, -⟩ := fullBlocks_remainder_append s.bufCap hcap (s.outbuf ++ a) b
  have hlen : (fullBlocks s.bufCap (s.outbuf ++ a)).length = blocksDue s a := length_fullBlocks _ _
  simp only [afterBlocks, ← List.append_assoc, hblocks, Nat.add_assoc, ← hlen, List.take_length_add_append]
  simp [afterEmit, hlen, Nat.add_assoc]

/-- An Emit that fails after an accepted one is the failed Emit of the bytes together (R193). -/
theorem emit_afterEmit_failed {s : State} {a b : List Byte} {k : Nat} {code : U32} (hcap : 1 ≤ s.bufCap)
    (hlate : blocksDue s a ≤ k) (hk : k < blocksDue s (a ++ b)) (hacc : accepts s k) (hfail : answerAt s k = .fail code) :
    emit b (afterEmit s a) = .halt ((afterBlocks s (a ++ b) k []).enterError .sink (code.setWidth 64)) := by
  obtain ⟨j, rfl⟩ := Nat.exists_eq_add_of_le hlate
  rw [blocksDue_append s a b hcap] at hk
  rw [emit_failed b (afterEmit s a) j code hcap (length_outbuf_afterEmit s a hcap) (by omega)
    (fun n hn => (answerAt_afterEmit s a n).trans (hacc _ (by omega))) ((answerAt_afterEmit s a j).trans hfail),
    afterBlocks_append_right s a b j [] hcap]

/-- `s` after the first `k` blocks of the rest of its session were accepted and block number `k` was answered too (R194). -/
def afterSessionBlocks (s : State) (bytes : List Byte) (k : Nat) : State :=
  { s with
    outbuf := []
    sinkLog := s.sinkLog ++ ((sessionBlocks s.bufCap (s.outbuf ++ bytes)).take (k + 1)).map .block
    sinkIn := s.sinkIn.drop (k + 1)
    sinkWrites := s.sinkWrites + (k + 1) }

/-- A whole block of the session is a block of the Emit. -/
theorem afterBlocks_eq_afterSessionBlocks {s : State} {bytes : List Byte} {k : Nat} (hk : k < blocksDue s bytes) :
    afterBlocks s bytes k [] = afterSessionBlocks s bytes k := by
  have hlen : k + 1 ≤ (fullBlocks s.bufCap (s.outbuf ++ bytes)).length := by rwa [length_fullBlocks]
  simp only [afterBlocks, afterSessionBlocks, sessionBlocks, List.take_append_of_le_length hlen]

/-- The partial block goes out after the whole ones (R194). -/
theorem logBlock_afterEmit_eq_afterSessionBlocks {s : State} {bytes : List Byte} (hne : (afterEmit s bytes).outbuf ≠ []) :
    ((afterEmit s bytes).logBlock (afterEmit s bytes).outbuf).clearOut =
      afterSessionBlocks s bytes (blocksDue s bytes) := by
  have hblocks : sessionBlocks s.bufCap (s.outbuf ++ bytes) =
      fullBlocks s.bufCap (s.outbuf ++ bytes) ++ [(afterEmit s bytes).outbuf] := by
    rw [sessionBlocks]
    exact congrArg _ (if_neg hne)
  have hall : (sessionBlocks s.bufCap (s.outbuf ++ bytes)).take (blocksDue s bytes + 1) =
      sessionBlocks s.bufCap (s.outbuf ++ bytes) := List.take_of_length_le (by simp [hblocks, blocksDue])
  rw [afterSessionBlocks, hall, hblocks]
  simp [afterEmit, State.logBlock, State.clearOut, Nat.add_assoc]

/-- The whole blocks, and the partial one where the Emit leaves bytes. -/
theorem length_sessionBlocks (s : State) (bytes : List Byte) :
    (sessionBlocks s.bufCap (s.outbuf ++ bytes)).length =
      blocksDue s bytes + if (afterEmit s bytes).outbuf = [] then 0 else 1 := by
  rw [sessionBlocks, List.length_append, length_fullBlocks]
  congr 1
  exact apply_ite List.length _ _ _

/-- The pending run's chunk (R143, R152). -/
abbrev State.runBytes (s : State) : List Byte := streamBytes (pendingRun s.run.toNat)

theorem State.lastBytes_eq (s : State) : s.lastBytes = s.runBytes ++ unitBytes .endMarker := by
  rw [State.lastBytes, streamBytes_append, streamBytes_singleton]

/-- RUN is cleared after the pending run's Emit: at block `k` of a CLOSE that is so unless the run's chunk filled the block
(R152, R215). -/
def State.runAtBlock (s : State) (k : Nat) : State := s.setRun (if k < blocksDue s s.runBytes then s.run else 0)

/-- A whole block of a CLOSE fails, within the pending run's Emit or within the end marker's (R193). -/
theorem endRun_packEnd_failed {s : State} {k : Nat} {code : U32} (hrun : s.run.toNat ≤ 62)
    (hroom : s.outbuf.length < s.bufCap) (hk : k < blocksDue s s.lastBytes) (hacc : accepts s k)
    (hfail : answerAt s k = .fail code) :
    (endRun s).bind (emitPacked packEnd) =
      .halt ((afterBlocks (s.runAtBlock k) s.lastBytes k []).enterError .sink (code.setWidth 64)) := by
  have hcap : 1 ≤ s.bufCap := Nat.one_le_of_lt hroom
  rw [State.lastBytes_eq] at hk ⊢
  by_cases hearly : k < blocksDue s s.runBytes
  · have hkept : s.runAtBlock k = s := by rw [State.runAtBlock, if_pos hearly]; rfl
    rw [endRun_eq s hrun, emit_failed s.runBytes s k code hcap hroom hearly hacc hfail, Flow.bind_halt, Flow.bind_halt,
      hkept, afterBlocks_append_left _ _ hcap hearly]
  · have hlate : blocksDue s s.runBytes ≤ k := Nat.le_of_not_lt hearly
    have hcleared : s.runAtBlock k = s.setRun 0 := by rw [State.runAtBlock, if_neg hearly]
    have hmarker := emit_afterEmit_failed (s := s.setRun 0) hcap hlate hk hacc hfail
    rw [endRun_accepted s hrun hroom fun n hn => hacc n (hn.trans_le hlate), Flow.bind_go, packEnd_eq, emitPacked, hmarker,
      hcleared]

/-- CLOSE at the end of the scan, statement by statement (R125). -/
theorem exec_close_atEnd {s : State} (ign : BitVec 80) (hs : s.fsm = .encoding) (hcount : s.pixCount.toNat = s.total) :
    exec (.close ign) s =
      ((((endRun s).bind (emitPacked packEnd)).bind finalFlushAndClose).bind fun t => .go (t.setFsm .idle)).outcome := by
  simp only [exec, execClose, hs, closeEncoding, if_neg (not_not.mpr hcount)]

/-- At the partial block the pending run's Emit is over. -/
theorem State.runAtBlock_partial {s : State} (hcap : 1 ≤ s.bufCap) : s.runAtBlock (blocksDue s s.lastBytes) = s.setRun 0 := by
  have hlate : blocksDue s s.runBytes ≤ blocksDue s s.lastBytes := by
    rw [State.lastBytes_eq, blocksDue_append s _ _ hcap]
    exact Nat.le_add_right _ _
  rw [State.runAtBlock, if_neg (Nat.not_lt.mpr hlate)]

/-- A CLOSE at the end of the scan whose block `k` the sink fails: SINK, and nothing after that block (R193, R194). -/
theorem exec_close_failed {s : State} {k : Nat} {code : U32} (ign : BitVec 80) (hs : s.fsm = .encoding)
    (hcount : s.pixCount.toNat = s.total) (hrun : s.run.toNat ≤ 62) (hroom : s.outbuf.length < s.bufCap)
    (hk : k < (sessionBlocks s.bufCap (s.outbuf ++ s.lastBytes)).length) (hacc : accepts s k)
    (hfail : answerAt s k = .fail code) :
    exec (.close ign) s =
      .next ((afterSessionBlocks (s.runAtBlock k) s.lastBytes k).enterError .sink (code.setWidth 64)) := by
  rw [exec_close_atEnd ign hs hcount]
  by_cases hwhole : k < blocksDue s s.lastBytes
  · have hsame := afterBlocks_eq_afterSessionBlocks (s := s.runAtBlock k) hwhole
    rw [endRun_packEnd_failed hrun hroom hwhole hacc hfail, hsame]
    rfl
  · obtain ⟨hne, rfl⟩ : (afterEmit s s.lastBytes).outbuf ≠ [] ∧ k = blocksDue s s.lastBytes := by
      rw [length_sessionBlocks] at hk
      split at hk
      · omega
      next hne => exact ⟨hne, by omega⟩
    have hflush := finalFlushAndClose_failed (afterEmit (s.setRun 0) s.lastBytes) code hne
      ((answerAt_afterEmit (s.setRun 0) _ 0).trans hfail)
    rw [endRun_packEnd_accepted hrun hroom hacc, Flow.bind_go, hflush, State.runAtBlock_partial (Nat.one_le_of_lt hroom),
      logBlock_afterEmit_eq_afterSessionBlocks (s := s.setRun 0) hne]
    rfl

/-- Settles O25: error entry writes its registers over the state after the failed block. -/
theorem closeBlockFailureIsSink : Obligations.CloseBlockFailureIsSink := by
  intro s ign k code hs hcount hrun hroom blocks hk hacc hfail
  exact exec_close_failed ign hs hcount hrun hroom hk hacc hfail

/-! ## Outside a session -/

/-- Settles O45: outside a session exec answers a next state for an ignored row, a START with legal fields and an error, and
an error there has no error exit (R215). -/
theorem sinkIsSilentOutsideASession : Obligations.SinkIsSilentOutsideASession := by
  intro s t i hs hexec
  cases exec_transition hexec with
  | ignored => exact .inr ⟨rfl, rfl, rfl⟩
  | started hidle hl _ => exact .inl ⟨_, _, _, _, rfl, hl, hidle⟩
  | scanned hsession => exact absurd hsession hs
  | closed hsession => exact absurd hsession hs
  | @raised _ _ code info _ _ _ _ _ ht =>
    rw [raiseError_silent code info s (.inl hs), Flow.outcome_halt] at ht
    cases ht
    exact .inr ⟨rfl, rfl, rfl⟩
  | emitted _ hsession => exact absurd hsession hs
  | emittedRun hsession => exact absurd hsession hs

/-! ## A command that ends held -/

/-- A statement of a command that began in `s₀` goes on in `t`, with the events of `s₀` first in its record. -/
def Unheld (s₀ t : State) : Prop := t.held = false ∧ ∃ before, t.sinkLog = s₀.sinkLog ++ before

/-- Where `t` is held, the block that it waits for is in OUTBUF and the last sink event (R192). -/
def WaitsAtBlock (s₀ t : State) : Prop :=
  t.held = true → t.outbuf ≠ [] ∧ ∃ before, t.sinkLog = s₀.sinkLog ++ before ++ [.block t.outbuf]

theorem Unheld.waitsAtBlock {s₀ t : State} (h : Unheld s₀ t) : WaitsAtBlock s₀ t := fun hheld => by
  simp [h.1] at hheld

theorem Unheld.append {s₀ s t : State} (h : Unheld s₀ s) (hheld : t.held = s.held) {new : List SinkEvent}
    (hlog : t.sinkLog = s.sinkLog ++ new) : Unheld s₀ t := by
  obtain ⟨hfree, before, hbefore⟩ := h
  exact ⟨hheld.trans hfree, before ++ new, by rw [hlog, hbefore, List.append_assoc]⟩

/-- A block goes out: it is answered, or the command waits for the answer. -/
theorem Unheld.maySend {s₀ s : State} (h : Unheld s₀ s) (hne : s.outbuf ≠ []) : MaySend (Unheld s₀) (WaitsAtBlock s₀) s := by
  refine ⟨h.append rfl rfl, fun _ => ⟨hne, ?_⟩⟩
  obtain ⟨-, before, hbefore⟩ := h
  exact ⟨before, by simp [hbefore]⟩

theorem carried_unheld (s₀ : State) : Carried (Unheld s₀) (WaitsAtBlock s₀) where
  push _ _ h _ := h
  full s b h _ := Unheld.maySend (s := s.pushByte b) h (by simp)
  part _ h hne := h.maySend hne
  close _ h := h.append rfl rfl
  sup _ h := h
  setRun _ _ h := h
  sink s info h := Unheld.waitsAtBlock (t := s.enterError .sink info) h

theorem Transition.waitsAtBlock {s t : State} {i : Instr} (hi : Transition s i t) (hheld : s.held = false) :
    WaitsAtBlock s t := by
  have h : Unheld s s := ⟨hheld, [], (List.append_nil _).symm⟩
  have hc := carried_unheld s
  have hend {x : Flow} (hx : x.Ensures (Unheld s) (WaitsAtBlock s)) (ht : x.outcome = .next t) : WaitsAtBlock s t :=
    (hx.of_outcome ht).elim Unheld.waitsAtBlock id
  cases hi with
  | ignored => exact h.waitsAtBlock
  | started _ _ ht => exact hend (emitPacked_carried hc _ (s := s.begin _ _ _ _) h) ht
  | @scanned _ r g b a _ _ _ ht =>
    have hpixel := encodePixel_carried hc (pixelOf s.cfgChannels r g b a) (fun _ hu => hu) (fun _ hu => hu)
      (s := s.countPixel) h
    exact hend (hpixel.forgetScanOnError fun _ hu _ => hu) ht
  | closed _ _ ht => exact hend (closeAtEnd_carried hc (fun _ hu => hu) h) ht
  | raised _ _ _ _ _ _ ht => exact hend (raiseError_carried hc (fun _ hu => Unheld.waitsAtBlock hu) h) ht
  | emitted _ _ bytes ht => exact hend (emitPacked_carried hc bytes h) ht
  | emittedRun _ ht => exact hend (emitRun_carried hc _ h) ht

/-- Settles O37: the block is where the statements leave it, and the rest is the invariant of a held machine. -/
theorem heldCommandWaitsAtItsBlock : Obligations.HeldCommandWaitsAtItsBlock := by
  intro s t i hinv hfree hexec hheld
  have hi := exec_transition hexec
  have hnext : t.Inv := hi.inv hinv hfree
  have hsession : t.fsm = .encoding := hnext.held_session hheld
  obtain ⟨hcode, -, -⟩ := hnext.no_error (by simp [hsession])
  obtain ⟨hcap, -, -⟩ := onlyStartWritesConfiguration s t i hexec
  obtain ⟨hne, hblock⟩ := hi.waitsAtBlock hfree hheld
  exact ⟨hsession, hcode, List.length_pos_iff.mpr hne, hcap ▸ hnext.fits, hblock⟩

end Sys2Proof.Machine
end

section
/-!
SUPPORT. Exceptions (spec/60_exceptions.md rules R212 to R227): a PIXEL whose block the sink fails, a PIXEL past the end of the
scan, the machine that waits for the host, and ERROR, which reset alone leaves.
-/

namespace Sys2Proof.Machine

/-! ## A PIXEL whose block fails -/

/-- `s` after the sink failed block `k` of a PIXEL that emits `bytes`: error entry with SINK, after which RUN, PREV and ICACHE
hold any value (R193, R213, I12). So it does not matter what the PIXEL had written to these three before its block failed: two
ends of a PIXEL that differ in them alone are equal by `rfl`. -/
def afterPixelFailure (s : State) (bytes : List Byte) (k : Nat) (code : U32) : State :=
  ((afterBlocks s bytes k []).enterError .sink (code.setWidth 64)).forgetScan

section Failed
variable {s : State} {px : Pixel} {k : Nat} {code : U32}

/-- A pixel equal to PREV emits at the cap alone, where RUN 62 fails (R142, R193). -/
theorem continueRun_failed (hrun : s.run.toNat ≤ 61) (hroom : s.outbuf.length < s.bufCap)
    (hk : k < blocksDue s (streamBytes (s.decision s.prev).chunks)) (hacc : accepts s k) (hfail : answerAt s k = .fail code) :
    (continueRun s).forgetScanOnError =
      .halt (afterPixelFailure s (streamBytes (s.decision s.prev).chunks) k code) := by
  have hfull : ¬ s.run.toNat < 61 := fun hbelow => by
    rw [decision_prev rfl, if_pos (by omega)] at hk
    simp [streamBytes, blocksDue, Nat.div_eq_of_lt hroom] at hk
  have hcap : s.run.toNat = 61 := by omega
  have hnext : s.run + 1 = 62#6 := by
    rw [← BitVec.toNat_inj, BitVec.toNat_add, hcap]
    rfl
  rw [decision_at_cap hcap, streamBytes_singleton] at hk ⊢
  rw [continueRun, if_pos hnext, emitRun_eq (by decide),
    emit_failed _ (s.setRun (s.run + 1)) k code (Nat.one_le_of_lt hroom) hroom hk hacc hfail]
  rfl

/-- The chunk's Emit fails after an accepted Emit of `bytes`; the cache was written before it (R144 to R150, R193, R246). -/
theorem emitChunk_afterEmit_failed {bytes : List Byte} (hcap : 1 ≤ s.bufCap) (hlate : blocksDue s bytes ≤ k)
    (hk : k < blocksDue s (bytes ++ unitBytes (chosenChunk s.cfgChannels px s.prev (icacheRead (pixelHash px) s))))
    (hacc : accepts s k) (hfail : answerAt s k = .fail code) :
    emitChunk px (afterEmit s bytes) =
      .halt ((afterBlocks { s with icache := cacheWith px s.icache }
        (bytes ++ unitBytes (chosenChunk s.cfgChannels px s.prev (icacheRead (pixelHash px) s))) k []).enterError .sink
          (code.setWidth 64)) := by
  rw [emitChunk_eq, cacheAfter_eq]
  exact emit_afterEmit_failed (s := { s with icache := cacheWith px s.icache }) hcap hlate hk hacc hfail

/-- A pixel that differs from PREV: the block is filled by the pending run, or by the chunk after it (R143 to R150, R193). -/
theorem encodePixel_ne_failed (hne : px ≠ s.prev) (hrun : s.run.toNat ≤ 61) (hroom : s.outbuf.length < s.bufCap)
    (hk : k < blocksDue s (streamBytes (s.decision px).chunks)) (hacc : accepts s k) (hfail : answerAt s k = .fail code) :
    (encodePixel px s).forgetScanOnError = .halt (afterPixelFailure s (streamBytes (s.decision px).chunks) k code) := by
  have hcap : 1 ≤ s.bufCap := Nat.one_le_of_lt hroom
  have hmax : s.run.toNat ≤ 62 := by omega
  rw [decision_ne hne] at hk ⊢
  simp only [streamBytes_append, streamBytes_singleton] at hk ⊢
  rw [encodePixel_ne hne]
  by_cases hearly : k < blocksDue s s.runBytes
  · rw [endRun_eq s hmax, emit_failed s.runBytes s k code hcap hroom hearly hacc hfail, afterPixelFailure,
      afterBlocks_append_left _ _ hcap hearly]
    rfl
  · have hlate : blocksDue s s.runBytes ≤ k := Nat.le_of_not_lt hearly
    have hchunk := emitChunk_afterEmit_failed (s := s.setRun 0) (px := px) hcap hlate hk hacc hfail
    rw [endRun_accepted s hmax hroom fun n hn => hacc n (hn.trans_le hlate), Flow.bind_go, hchunk]
    rfl

/-- EncodePixel whose block `k` the sink fails (R140, R153, R193). -/
theorem encodePixel_failed (hrun : s.run.toNat ≤ 61) (hroom : s.outbuf.length < s.bufCap)
    (hk : k < blocksDue s (streamBytes (s.decision px).chunks)) (hacc : accepts s k) (hfail : answerAt s k = .fail code) :
    (encodePixel px s).forgetScanOnError = .halt (afterPixelFailure s (streamBytes (s.decision px).chunks) k code) := by
  by_cases hpx : px = s.prev
  · rw [encodePixel_run hpx]
    subst hpx
    exact continueRun_failed hrun hroom hk hacc hfail
  · exact encodePixel_ne_failed hpx hrun hroom hk hacc hfail

end Failed

/-- Settles O38: PIX_COUNT is raised before the pixel is encoded, and the state after the failed block is exact. -/
theorem pixelBlockFailureIsSink : Obligations.PixelBlockFailureIsSink := by
  intro s ign r g b a k code hs hcount hrun hroom d bytes hk hacc hfail
  have hpixel : (encodePixel (pixelOf s.cfgChannels r g b a) s.countPixel).forgetScanOnError =
      .halt (afterPixelFailure s.countPixel bytes k code) := encodePixel_failed hrun hroom hk hacc hfail
  have hexec : exec (.pixel ign r g b a) s = .next (afterPixelFailure s.countPixel bytes k code) := by
    rw [exec_pixel_encoding ign r g b a hs hcount, hpixel, Flow.outcome_halt]
  exact ⟨_, hexec, rfl, rfl, rfl, rfl, rfl, rfl, rfl, rfl, rfl, rfl, rfl, rfl⟩

/-- Settles O22: the bounds check of PIXEL raises the error before the pixel is counted. -/
theorem extraPixelIsBounds : Obligations.ExtraPixelIsBounds :=
  fun _ ign r g b a hs hcount => exec_pixel_bounds ign r g b a hs hcount

/-! ## The machine between commands -/

/-- A hold, too, leaves PACK's input alone and lets the step look at the host's transactions (R240, R248). -/
theorem fetch_eq_fetchPort_of_noUnit {s : State} (h : s.packIn = [] ∨ s.held = true) : fetch s = fetchPort s := by
  obtain hpack | hheld := h
  · exact fetch_eq_fetchPort hpack
  · rw [fetch, if_neg fun hunit => by simp [hheld] at hunit]

/-- Settles O8: with no unit to take, `fetch` looks at the port and finds nothing there. -/
theorem stepWaitsForTheHost : Obligations.StepWaitsForTheHost := by
  intro s hunit hport
  rw [step, fetch_eq_fetchPort_of_noUnit hunit, fetchPort, hport]

/-- Settles O43: a step from ERROR waits, resets, or executes a row that ERROR ignores. -/
theorem errorIsLeftOnlyByReset : Obligations.ErrorIsLeftOnlyByReset := by
  intro s t hs hstep
  have hignored {i : Instr} {u : State} (hu : u.fsm = .error) (hexec : exec i u = .next t) : t = u := by
    rw [exec_of_error i hu] at hexec
    cases hexec
    rfl
  obtain ⟨rfl, -⟩ | ⟨rest, hport, -, rfl⟩ | ⟨w, rest, -, -, -, hexec⟩ | ⟨i, -, -, -, hexec⟩ := step_cases hstep
  · exact .inr ⟨hs, rfl, rfl, rfl, rfl, rfl, rfl⟩
  · exact .inl ⟨rest, hport, rfl⟩
  · obtain rfl := hignored (u := { s with port := rest }) hs hexec
    exact .inr ⟨hs, rfl, rfl, rfl, rfl, rfl, rfl⟩
  · obtain rfl := hignored (u := { s with packIn := [] }) hs hexec
    exact .inr ⟨hs, rfl, rfl, rfl, rfl, rfl, rfl⟩

end Sys2Proof.Machine
end

section
/-!
SUPPORT. Reset and the hold (spec/70_reset_and_hazards.md rules R240, R248): what a step does that takes a reset, and what a
machine held on the sink does.
-/

namespace Sys2Proof.Machine

@[simp] theorem State.afterReset_status (s : State) : s.afterReset.status = 0 := by
  rw [State.status, State.afterReset_errCode, State.afterReset_errSup, State.afterReset_fsm]
  rfl

@[simp] theorem State.afterReset_idleOut (s : State) : s.afterReset.idleOut = true := rfl
@[simp] theorem State.afterReset_errorOut (s : State) : s.afterReset.errorOut = false := rfl

/-- `step_reset`, also during a hold (R240). -/
theorem step_reset_of_noUnit {s : State} {rest : List PortEvent} (hunit : s.packIn = [] ∨ s.held = true)
    (hport : s.port = .reset :: rest) : step s = .next { s with port := rest }.afterReset := by
  rw [step, fetch_eq_fetchPort_of_noUnit hunit, fetchPort, hport]

theorem step_command_of_held {s : State} {w : CommandWord} {rest : List PortEvent} (hheld : s.held = true)
    (hport : s.port = .command w :: rest) : step s = .fault .heldOnSink := by
  simp [step, fetch_eq_fetchPort_of_noUnit (.inr hheld), fetchPort, hport, hheld]

/-- Settles O7: with no unit to take first, the step answers `State.afterReset`, whose fields the model's lemmas give. -/
theorem stepResets : Obligations.StepResets := by
  intro s rest hunit hport
  refine ⟨_, step_reset_of_noUnit hunit hport, ?_⟩
  simp

/-- Settles O9: of the four cases of a step, a held machine is in the wait or in the reset; commands and units are executed
outside a hold only. -/
theorem heldMachineExecutesNoCommand : Obligations.HeldMachineExecutesNoCommand := by
  intro s hheld
  refine ⟨fun w rest hport => step_command_of_held hheld hport, fun t hstep => ?_⟩
  have hnotFree : s.held ≠ false := by simp [hheld]
  obtain ⟨rfl, hport, -⟩ | ⟨rest, hport, -, rfl⟩ | ⟨_, _, _, _, hfree, _⟩ | ⟨_, _, hfree, _⟩ := step_cases hstep
  · exact .inr ⟨hport, rfl, hheld⟩
  · exact .inl ⟨rest, hport, State.afterReset_held _⟩
  · exact absurd hfree hnotFree
  · exact absurd hfree hnotFree

end Sys2Proof.Machine
end

section
/-!
SUPPORT. The encoder and the decoder of spec/30_encoding.md are inverse. A command word is the concatenation of its fields (rules
R85 to R88), so both directions follow from cutting the word at the fields' bounds; the bytes of a stream unit (R71 to R78) are
read back by value: tag, length and fields (R80, R81, R89).
-/

namespace Sys2Proof.Machine

/-! ## Words as concatenations of their fields -/

theorem append_inj {m n : Nat} {x x' : BitVec m} {y y' : BitVec n} (h : x ++ y = x' ++ y') : x = x' ∧ y = y' := by
  constructor
  · simpa only [BitVec.extractLsb'_append_eq_left] using congrArg (BitVec.extractLsb' n m) h
  · simpa only [BitVec.extractLsb'_append_eq_right] using congrArg (BitVec.extractLsb' 0 n) h

/-- Two fields that meet are one field: `BitVec.extractLsb'_append_extractLsb'_eq_extractLsb'` with the bounds given as numerals,
which `rw` does not find by itself. -/
theorem extractLsb'_meet {n : Nat} (x : BitVec n) {hi k lo len : Nat} (h : hi = lo + len) :
    x.extractLsb' hi k ++ x.extractLsb' lo len = x.extractLsb' lo (k + len) :=
  BitVec.extractLsb'_append_extractLsb'_eq_extractLsb' h

/-- CLOSE and the reserved word: `op` and `data` (R85, R88). -/
theorem opData_fields (w : CommandWord) : w.extractLsb' 80 2 ++ w.extractLsb' 0 80 = w :=
  (extractLsb'_meet w rfl).trans BitVec.extractLsb'_eq_self

/-- START: `op`, w, h, ch, cs (R86). -/
theorem startWord_fields (w : CommandWord) :
    w.extractLsb' 80 2 ++ w.extractLsb' 48 32 ++ w.extractLsb' 16 32 ++ w.extractLsb' 8 8 ++ w.extractLsb' 0 8 = w := by
  rw [extractLsb'_meet w (show 80 = 48 + 32 from rfl), extractLsb'_meet w (show 48 = 16 + 32 from rfl),
    extractLsb'_meet w (show 16 = 8 + 8 from rfl), extractLsb'_meet w (show 8 = 0 + 8 from rfl)]
  exact BitVec.extractLsb'_eq_self

/-- PIXEL: `op`, the ignored bits, r, g, b, a (R87). -/
theorem pixelWord_fields (w : CommandWord) :
    w.extractLsb' 80 2 ++ w.extractLsb' 32 48 ++ w.extractLsb' 24 8 ++ w.extractLsb' 16 8 ++ w.extractLsb' 8 8 ++
      w.extractLsb' 0 8 = w := by
  rw [extractLsb'_meet w (show 80 = 32 + 48 from rfl), extractLsb'_meet w (show 32 = 24 + 8 from rfl),
    extractLsb'_meet w (show 24 = 16 + 8 from rfl), extractLsb'_meet w (show 16 = 8 + 8 from rfl),
    extractLsb'_meet w (show 8 = 0 + 8 from rfl)]
  exact BitVec.extractLsb'_eq_self

/-- Reading back the four bytes of a u32 (R54). -/
theorem readU32_bytes (x : U32) :
    readU32 (x.extractLsb' 24 8) (x.extractLsb' 16 8) (x.extractLsb' 8 8) (x.extractLsb' 0 8) = x := by
  rw [readU32, extractLsb'_meet x (show 24 = 16 + 8 from rfl), extractLsb'_meet x (show 16 = 8 + 8 from rfl),
    extractLsb'_meet x (show 8 = 0 + 8 from rfl)]
  exact BitVec.extractLsb'_eq_self

/-! ## The command words -/

/-- Every value of the two bits of `op` is a command (R85). -/
theorem op_cases : ∀ op : BitVec 2, op = 0b00#2 ∨ op = 0b01#2 ∨ op = 0b10#2 ∨ op = 0b11#2 := by decide

theorem decodeCommand_start {w : CommandWord} (hop : w.extractLsb' 80 2 = 0b01#2) :
    decodeCommand w =
      .start (w.extractLsb' 48 32) (w.extractLsb' 16 32) (w.extractLsb' 8 8) (w.extractLsb' 0 8) := by
  simp [decodeCommand, hop]

/-- Settles O2: the fields that each command reads make up its whole word. -/
theorem commandWordDecodesWithoutLoss : Obligations.CommandWordDecodesWithoutLoss := by
  intro w
  obtain hop | hop | hop | hop := op_cases (w.extractLsb' 80 2)
  · rw [decodeCommand_reserved hop, encode, ← hop, opData_fields]
  · rw [decodeCommand_start hop, encode, ← hop, startWord_fields]
  · rw [decodeCommand_pixel hop, encode, ← hop, pixelWord_fields]
  · rw [decodeCommand_close hop, encode, ← hop, opData_fields]

theorem decodeCommand_startWord (w h : U32) (ch cs : Byte) :
    decodeCommand (0b01#2 ++ w ++ h ++ ch ++ cs) = .start w h ch cs := by
  obtain ⟨hfields, hcs⟩ := append_inj (startWord_fields (0b01#2 ++ w ++ h ++ ch ++ cs))
  obtain ⟨hfields, hch⟩ := append_inj hfields
  obtain ⟨hfields, hh⟩ := append_inj hfields
  obtain ⟨hop, hw⟩ := append_inj hfields
  rw [decodeCommand_start hop, hw, hh, hch, hcs]

theorem decodeCommand_pixelWord (ign : BitVec 48) (r g b a : Byte) :
    decodeCommand (0b10#2 ++ ign ++ r ++ g ++ b ++ a) = .pixel ign r g b a := by
  obtain ⟨hfields, ha⟩ := append_inj (pixelWord_fields (0b10#2 ++ ign ++ r ++ g ++ b ++ a))
  obtain ⟨hfields, hb⟩ := append_inj hfields
  obtain ⟨hfields, hg⟩ := append_inj hfields
  obtain ⟨hfields, hr⟩ := append_inj hfields
  obtain ⟨hop, hign⟩ := append_inj hfields
  rw [decodeCommand_pixel hop, hign, hr, hg, hb, ha]

theorem decodeCommand_closeWord (ign : BitVec 80) : decodeCommand (0b11#2 ++ ign) = .close ign := by
  obtain ⟨hop, hign⟩ := append_inj (opData_fields (0b11#2 ++ ign))
  rw [decodeCommand_close hop, hign]

theorem decodeCommand_reservedWord (ign : BitVec 80) : decodeCommand (0b00#2 ++ ign) = .reserved ign := by
  obtain ⟨hop, hign⟩ := append_inj (opData_fields (0b00#2 ++ ign))
  rw [decodeCommand_reserved hop, hign]

/-- The encoder of a command gives the word that decodes to it. -/
theorem encode_command {i : Instr} (hi : i.isCommand = true) :
    ∃ w, encode i = some (.command w) ∧ decodeCommand w = i := by
  cases i with
  | start w h ch cs => exact ⟨_, rfl, decodeCommand_startWord w h ch cs⟩
  | pixel ign r g b a => exact ⟨_, rfl, decodeCommand_pixelWord ign r g b a⟩
  | close ign => exact ⟨_, rfl, decodeCommand_closeWord ign⟩
  | reserved ign => exact ⟨_, rfl, decodeCommand_reservedWord ign⟩
  | index | diff | luma | rgb | rgba | run | header | endMarker => cases hi

/-! ## The chunk that an opcode byte selects (R81) -/

section Tagged

variable {b : Byte} {rest : List Byte}

theorem decodeChunk_index (htag : b.toNat / 64 = 0) :
    decodeChunk (b :: rest) = .ok (.index (b.extractLsb' 0 6), rest) := by
  obtain ⟨hrgb, hrgba⟩ := (ne_rawTag_iff b).mpr (by omega)
  have hindex := (tag_eq_iff b (by decide)).mpr htag
  simp [decodeChunk, hrgb, hrgba, hindex]

theorem decodeChunk_diff (htag : b.toNat / 64 = 1) :
    decodeChunk (b :: rest) = .ok (.diff (biased b 4 2 2) (biased b 2 2 2) (biased b 0 2 2), rest) := by
  obtain ⟨hrgb, hrgba⟩ := (ne_rawTag_iff b).mpr (by omega)
  have hdiff := (tag_eq_iff b (by decide)).mpr htag
  simp [decodeChunk, hrgb, hrgba, hdiff]

theorem decodeChunk_luma {b₂ : Byte} (htag : b.toNat / 64 = 2) :
    decodeChunk (b :: b₂ :: rest) = .ok (.luma (biased b 0 6 32) (biased b₂ 4 4 8) (biased b₂ 0 4 8), rest) := by
  obtain ⟨hrgb, hrgba⟩ := (ne_rawTag_iff b).mpr (by omega)
  have hluma := (tag_eq_iff b (by decide)).mpr htag
  simp [decodeChunk, hrgb, hrgba, hluma]

theorem decodeChunk_run (htag : b.toNat / 64 = 3) (hmax : b.toNat ≤ 0xFD) :
    decodeChunk (b :: rest) = .ok (.run ((b.extractLsb' 0 6).toNat + 1), rest) := by
  obtain ⟨hrgb, hrgba⟩ := (ne_rawTag_iff b).mpr hmax
  have hrun := (tag_eq_iff b (by decide)).mpr htag
  simp [decodeChunk, hrgb, hrgba, hrun]

end Tagged

/-! ## The fields of a chunk (R80) -/

theorem biased_eq (b : Byte) (lo n : Nat) (bias : Int) : biased b lo n bias = (b.toNat / 2 ^ lo % 2 ^ n : Nat) - bias := by
  rw [biased, BitVec.extractLsb'_toNat, Nat.shiftRight_eq_div_pow]

/-- A number in a byte's range is the byte's value. -/
theorem toNat_ofInt_byte {x : Int} (hmin : 0 ≤ x) (hmax : x < 256) : ((BitVec.ofInt 8 x).toNat : Int) = x := by
  rw [BitVec.toNat_ofInt]
  omega

theorem decodeChunk_unitBytes_index (h : Slot) : decodeChunk (unitBytes (.index h)) = .ok (.index h, []) := by
  have hval : (BitVec.ofNat 8 h.toNat).toNat = h.toNat := by
    rw [BitVec.toNat_ofNat]
    omega
  have hfield : (BitVec.ofNat 8 h.toNat).extractLsb' 0 6 = h := by
    apply BitVec.eq_of_toNat_eq
    rw [BitVec.extractLsb'_toNat, hval, Nat.shiftRight_zero]
    omega
  rw [unitBytes, decodeChunk_index (by omega), hfield]

theorem decodeChunk_unitBytes_diff {dr dg db : Int} (hr : inDiff dr) (hg : inDiff dg) (hb : inDiff db) :
    decodeChunk (unitBytes (.diff dr dg db)) = .ok (.diff dr dg db, []) := by
  have hval := toNat_ofInt_byte (x := 64 + 16 * (dr + 2) + 4 * (dg + 2) + (db + 2)) (by omega) (by omega)
  rw [unitBytes, decodeChunk_diff (by omega), biased_eq, biased_eq, biased_eq]
  congr <;> omega

theorem decodeChunk_unitBytes_luma {dg drg dbg : Int} (hg : inLumaG dg) (hr : inLumaRB drg) (hb : inLumaRB dbg) :
    decodeChunk (unitBytes (.luma dg drg dbg)) = .ok (.luma dg drg dbg, []) := by
  have hval₁ := toNat_ofInt_byte (x := 128 + (dg + 32)) (by omega) (by omega)
  have hval₂ := toNat_ofInt_byte (x := 16 * (drg + 8) + (dbg + 8)) (by omega) (by omega)
  rw [unitBytes, decodeChunk_luma (by omega), biased_eq, biased_eq, biased_eq]
  congr <;> omega

/-- The largest run length is 62, so the byte stays below the tags of RGB and RGBA (R173). -/
theorem decodeChunk_unitBytes_run {n : Nat} (hn : inRun n) : decodeChunk (unitBytes (.run n)) = .ok (.run n, []) := by
  obtain ⟨hpos, hmax⟩ := hn
  have hmax : n ≤ 62 := hmax
  have hval : (BitVec.ofNat 8 (192 + (n - 1))).toNat = 192 + (n - 1) := by
    rw [BitVec.toNat_ofNat]
    omega
  have hfield : ((BitVec.ofNat 8 (192 + (n - 1))).extractLsb' 0 6).toNat + 1 = n := by
    rw [BitVec.extractLsb'_toNat, hval, Nat.shiftRight_zero]
    omega
  rw [unitBytes, decodeChunk_run (by omega) (by omega), hfield]

/-! ## A unit by itself -/

theorem length_unitBytes (i : Instr) : (unitBytes i).length = unitLength i := by
  cases i <;> rfl

theorem decodeHeader_eq_none {bs : List Byte} (hlen : bs.length ≠ 14) : decodeHeader bs = none := by
  unfold decodeHeader
  split
  · exact absurd rfl hlen
  · rfl

/-- A chunk is told from the end marker and from a header by its length (R89; notes/assumptions/7.md). -/
theorem decodeUnit_of_chunk {i : Instr} (hlen : unitLength i ≤ 5) (hchunk : decodeChunk (unitBytes i) = .ok (i, [])) :
    decodeUnit (unitBytes i) = .ok i := by
  rw [← length_unitBytes] at hlen
  have hend : unitBytes i ≠ endBytes := fun h => absurd (h ▸ hlen) (by decide)
  rw [decodeUnit, if_neg hend, decodeHeader_eq_none (by omega), hchunk]

theorem decodeHeader_unitBytes (w h : U32) (ch cs : Byte) :
    decodeHeader (unitBytes (.header w h ch cs)) = some (.header w h ch cs) := by
  have hbytes : unitBytes (.header w h ch cs) = magicBytes ++ u32Bytes w ++ u32Bytes h ++ [ch, cs] := by
    rw [u32Bytes_eq, u32Bytes_eq]
    rfl
  calc decodeHeader (unitBytes (.header w h ch cs))
    _ = decodeHeader (magicBytes ++ u32Bytes w ++ u32Bytes h ++ [ch, cs]) := by rw [hbytes]
    _ = some (.header (readU32 (w.extractLsb' 24 8) (w.extractLsb' 16 8) (w.extractLsb' 8 8) (w.extractLsb' 0 8))
          (readU32 (h.extractLsb' 24 8) (h.extractLsb' 16 8) (h.extractLsb' 8 8) (h.extractLsb' 0 8)) ch cs) := rfl
    _ = some (.header w h ch cs) := by rw [readU32_bytes, readU32_bytes]

theorem decodeUnit_unitBytes_header (w h : U32) (ch cs : Byte) :
    decodeUnit (unitBytes (.header w h ch cs)) = .ok (.header w h ch cs) := by
  have hlen : (unitBytes (.header w h ch cs)).length = 14 := length_unitBytes _
  have hend : unitBytes (.header w h ch cs) ≠ endBytes := fun heq => absurd (heq ▸ hlen) (by decide)
  rw [decodeUnit, if_neg hend, decodeHeader_unitBytes]

theorem decodeUnit_unitBytes_endMarker : decodeUnit (unitBytes .endMarker) = .ok .endMarker := by
  rw [decodeUnit]
  exact if_pos rfl

/-- The bytes of a well-formed stream unit decode to it. -/
theorem decodeUnit_unitBytes {i : Instr} (hi : i.isCommand = false) (hwf : i.WellFormed) :
    decodeUnit (unitBytes i) = .ok i := by
  cases i with
  | index h => exact decodeUnit_of_chunk (by decide : 1 ≤ 5) (decodeChunk_unitBytes_index h)
  | diff dr dg db =>
    obtain ⟨hr, hg, hb⟩ := of_decide_eq_true hwf
    exact decodeUnit_of_chunk (by decide : 1 ≤ 5) (decodeChunk_unitBytes_diff hr hg hb)
  | luma dg drg dbg =>
    obtain ⟨hg, hr, hb⟩ := of_decide_eq_true hwf
    exact decodeUnit_of_chunk (by decide : 2 ≤ 5) (decodeChunk_unitBytes_luma hg hr hb)
  | rgb r g b => exact decodeUnit_of_chunk (by decide : 4 ≤ 5) rfl
  | rgba r g b a => exact decodeUnit_of_chunk (by decide : 5 ≤ 5) rfl
  | run n => exact decodeUnit_of_chunk (by decide : 1 ≤ 5) (decodeChunk_unitBytes_run (of_decide_eq_true hwf))
  | header w h ch cs => exact decodeUnit_unitBytes_header w h ch cs
  | endMarker => exact decodeUnit_unitBytes_endMarker
  | start | pixel | close | reserved => cases hi

/-! ## The obligations -/

/-- Settles O1: a command decodes from its word's fields, a stream unit from the bytes of its format, which are what the packers
give. -/
theorem encodeThenDecodeIsIdentity : Obligations.EncodeThenDecodeIsIdentity := by
  intro i hwf
  cases hi : i.isCommand with
  | false => exact ⟨_, encode_unit hi hwf, decodeUnit_unitBytes hi hwf⟩
  | true =>
    obtain ⟨w, henc, hdec⟩ := encode_command hi
    exact ⟨_, henc, congrArg Except.ok hdec⟩

/-- Settles O4: twelve closed facts that the decoder computes. -/
theorem writtenWordsDecode : Obligations.WrittenWordsDecode := by
  unfold Obligations.WrittenWordsDecode
  decide

end Sys2Proof.Machine
end
